-- ==== Sys2Proof/Word.lean ====
section
/-! DEFINITION. The widths of the Zpu core: the 64-bit word, the 8-bit device byte, the 16-bit operand slot. -/

namespace Sys2Proof

/-- A register, a memory cell, an address, a descriptor and an instruction word: `XLEN = 64` bits
(00_scope.md rule R5, decision D1). -/
abbrev Word := BitVec 64

/-- The unit of every device transaction (20_memory.md rule R71). -/
abbrev Byte := BitVec 8

/-- An operand slot, and the opcode field: `ARGW = OPW = 16` bits (00_scope.md rule R5). -/
abbrev Slot := BitVec 16

/-- The flag word: `FLAGW = 16` bits (10_state.md rule R29). -/
abbrev FlagWord := BitVec 16

end Sys2Proof
end

