-- ==== Sys2Proof/Config.lean ====
section
/-! DEFINITION. What an implementation of the core fixes: the constants of 00_scope.md rule R5, the layout of the
instruction word (30_encoding.md rule R91), and the construction-time configuration (10_state.md rule R34). No value of
this machine is left free by the spec after an instruction, so there is no opaque free value here. -/

namespace Sys2Proof

/-- Lowest bit of the opcode field. The layout is a named choice of the spec, decision D2
(30_encoding.md rule R91). -/
def Config.opLsb : Nat := 0

/-- Lowest bit of operand slot 0 (30_encoding.md rule R91). -/
def Config.a0Lsb : Nat := 16

/-- Lowest bit of operand slot 1 (30_encoding.md rule R91). -/
def Config.a1Lsb : Nat := 32

/-- Lowest bit of operand slot 2 (30_encoding.md rule R91). -/
def Config.a2Lsb : Nat := 48

/-- `SYS_DESC_REG`: the register that holds the Syscall descriptor, fixed (00_scope.md rule R5). -/
def Config.sysDescReg : Fin 16 := 3

/-- `SYS_PTR_REG`: the register that holds the Syscall data pointer, fixed (00_scope.md rule R5). -/
def Config.sysPtrReg : Fin 16 := 4

/-- `ARITH_OVERFLOW`: what an exact result outside 0 to 2^64 - 1 does (40_alu.md rule R120, decision D4). -/
inductive ArithOverflow where
  | wrap
  | fatal
deriving DecidableEq, Repr

/-- `DIV0_CLASS`: the class of the divide-by-zero fault (60_exceptions.md rule R231, decision D5). -/
inductive Div0Class where
  | fatal
  | stop
deriving DecidableEq, Repr

/-- The construction-time constants of one core, and its two model switches. The indices lie in 0..15 by their type;
that they differ is `Config.valid` (10_state.md rule R34). -/
structure Config where
  pcIndex : Fin 16
  spIndex : Fin 16
  stackCapacity : Nat
  arithOverflow : ArithOverflow
  div0Class : Div0Class
deriving DecidableEq, Repr

/-- A valid configuration: `PC_INDEX` and `SP_INDEX` differ (10_state.md rule R34, decision D21). -/
def Config.valid (c : Config) : Bool := c.pcIndex != c.spIndex

/-- A configuration from the host's numbers, refused unless both indices lie in 0..15 and differ
(10_state.md rule R34). -/
def Config.ofIndices (pc sp capacity : Nat) (ov : ArithOverflow) (dz : Div0Class) : Option Config :=
  if h : pc < 16 ∧ sp < 16 ∧ pc ≠ sp then
    some { pcIndex := ⟨pc, h.1⟩, spIndex := ⟨sp, h.2.1⟩, stackCapacity := capacity,
           arithOverflow := ov, div0Class := dz }
  else none

/-- The spec's own values: register 0 is the program counter, register 1 the stack pointer, arithmetic wraps, a zero
divisor is Fatal (00_scope.md rule R5). DESIGN CHOICE (log entry 4, safe): `STACK_CAPACITY`, which the spec leaves open,
is 16. -/
def Config.default : Config :=
  { pcIndex := 0, spIndex := 1, stackCapacity := 16, arithOverflow := .wrap, div0Class := .fatal }

end Sys2Proof
end

