-- ==== Sys2Proof/Syntax.lean ====
section
/-! DEFINITION. The instruction set Zpu-21: the closed enumeration of 21 opcodes, the four fields of an instruction
word, and the decoded instruction, one constructor for each row of spec/opcode_table.json. -/

namespace Sys2Proof

/-- The closed enumeration of 21 opcodes, in the source's order (30_encoding.md rule R94). Fault reports name an
instruction by it (60_exceptions.md rule R231). -/
inductive Opcode where
  | nop | add | sub | mul | div | addi | subi | muli | divi | mov | movi | load | store
  | beq | bne | blt | bgt | jmp | jmpR | halt | syscall
deriving DecidableEq, Repr

/-- The decoded record of an instruction word: the opcode field and the three operand slots, all 16 bits
(30_encoding.md rules R90 and R92). -/
structure Fields where
  op : Slot
  a0 : Slot
  a1 : Slot
  a2 : Slot
deriving DecidableEq, Repr

/-- A decoded instruction: the operand slots the instruction uses, as the word holds them. A register slot stays the
16-bit value of the word, since the values 16 to 65535 are checked only when the instruction executes
(10_state.md rule R22). Slots the instruction does not use are ignored (30_encoding.md rule R98) and are not held. -/
inductive Instr where
  | nop
  | add (a0 a1 : Slot)
  | sub (a0 a1 : Slot)
  | mul (a0 a1 : Slot)
  | div (a0 a1 : Slot)
  | addi (a0 imm : Slot)
  | subi (a0 imm : Slot)
  | muli (a0 imm : Slot)
  | divi (a0 imm : Slot)
  | mov (a0 a1 : Slot)
  | movi (a0 imm : Slot)
  | load (a0 addr : Slot)
  | store (a0 addr : Slot)
  | beq (a0 a1 addr : Slot)
  | bne (a0 a1 addr : Slot)
  | blt (a0 a1 addr : Slot)
  | bgt (a0 a1 addr : Slot)
  | jmp (addr : Slot)
  | jmpR (a0 : Slot)
  | halt
  | syscall
deriving DecidableEq, Repr

/-- The opcode of an instruction. -/
def Instr.opcode : Instr → Opcode
  | .nop => .nop
  | .add _ _ => .add
  | .sub _ _ => .sub
  | .mul _ _ => .mul
  | .div _ _ => .div
  | .addi _ _ => .addi
  | .subi _ _ => .subi
  | .muli _ _ => .muli
  | .divi _ _ => .divi
  | .mov _ _ => .mov
  | .movi _ _ => .movi
  | .load _ _ => .load
  | .store _ _ => .store
  | .beq _ _ _ => .beq
  | .bne _ _ _ => .bne
  | .blt _ _ _ => .blt
  | .bgt _ _ _ => .bgt
  | .jmp _ => .jmp
  | .jmpR _ => .jmpR
  | .halt => .halt
  | .syscall => .syscall

/-- The slots an instruction uses as register indices, each with its slot number, in slot order
(30_encoding.md rules R94 and R96). -/
def Instr.regSlots : Instr → List (Fin 3 × Slot)
  | .nop => []
  | .add a0 a1 => [(0, a0), (1, a1)]
  | .sub a0 a1 => [(0, a0), (1, a1)]
  | .mul a0 a1 => [(0, a0), (1, a1)]
  | .div a0 a1 => [(0, a0), (1, a1)]
  | .addi a0 _ => [(0, a0)]
  | .subi a0 _ => [(0, a0)]
  | .muli a0 _ => [(0, a0)]
  | .divi a0 _ => [(0, a0)]
  | .mov a0 a1 => [(0, a0), (1, a1)]
  | .movi a0 _ => [(0, a0)]
  | .load a0 _ => [(0, a0)]
  | .store a0 _ => [(0, a0)]
  | .beq a0 a1 _ => [(0, a0), (1, a1)]
  | .bne a0 a1 _ => [(0, a0), (1, a1)]
  | .blt a0 a1 _ => [(0, a0), (1, a1)]
  | .bgt a0 a1 _ => [(0, a0), (1, a1)]
  | .jmp _ => []
  | .jmpR a0 => [(0, a0)]
  | .halt => []
  | .syscall => []

end Sys2Proof
end

