-- ==== Sys2Proof/Machine/State.lean ====
section
/-! DEFINITION. The state of the machine: the core's own state (10_state.md), the host's memory and devices behind the
ports (20_memory.md), the trace of what the core has sent on its ports, and the reasons a step can stop. Plain data. -/

namespace Sys2Proof.Machine

/-- What a memory transaction is for (60_exceptions.md rule R231, first row). -/
inductive Access where
  | fetch
  | load
  | store
  | syscallRead
  | syscallWrite
deriving DecidableEq, Repr

/-- The two memory ports (20_memory.md rule R63). -/
inductive MemPort where
  | read
  | write
deriving DecidableEq, Repr

/-- The tag of a resolved device capability (20_memory.md rule R64). -/
inductive Capability where
  | read
  | write
deriving DecidableEq, Repr

/-- One report on the report port: the kind of fault with what it records (60_exceptions.md rule R231), or the log
IoCallbackAbsent, which is no fault (rule R247). `pc` is the address of the instruction, `fpc`. -/
inductive Report where
  | memoryOutOfBounds (access : Access) (addr pc : Word)
  | ioFunctionDoesntExist (desc pc : Word)
  | ioReadAccessError (desc pc : Word)
  | ioWriteAccessError (desc : Word) (byte : Byte) (addr pc : Word)
  | memoryCallbackAbsent (port : MemPort) (access : Access) (addr pc : Word)
  | unknownOpcode (op : Slot) (pc : Word)
  | divideByZero (instruction : Opcode) (pc : Word)
  | registerIndexOutOfRange (slot : Fin 3) (value : Slot) (pc : Word)
  | arithmeticOverflow (instruction : Opcode) (pc : Word)
  | ioCallbackAbsent (pc : Word)
deriving DecidableEq, Repr

/-- What a Read device answers to one request (20_memory.md rule R65): a byte, a failure, or nothing ever
(rule R78). -/
inductive ReadAnswer where
  | byte (b : Byte)
  | fails
  | never
deriving DecidableEq, Repr

/-- What a Write device answers to one request (20_memory.md rule R65): Ok, a failure, or nothing ever (rule R78). -/
inductive WriteAnswer where
  | accepts
  | fails
  | never
deriving DecidableEq, Repr

/-- A host device with the answers it will give: those of the script in order, then always `rest`. A `silent`
descriptor is one whose resolution the host never answers (rule R78). The answers are the
host's (93_implementation_defined.md U15), so they are data that a claim quantifies over (DESIGN CHOICE, log entry 11,
safe). -/
inductive Device where
  | reader (script : List ReadAnswer) (rest : ReadAnswer)
  | writer (script : List WriteAnswer) (rest : WriteAnswer)
  | silent
deriving DecidableEq, Repr

/-- One descriptor the host has bound (20_memory.md rule R64). -/
structure Binding where
  desc : Word
  dev : Device
deriving DecidableEq, Repr

/-- What the host's memory read responder answers to one request (20_memory.md rule R81): as its cells say; any word at
all; MemoryOutOfBounds; or nothing ever (rule R78). The answers are the host's (93_implementation_defined.md U13 and
U28). -/
inductive MemReadReply where
  | asCells
  | word (w : Word)
  | outOfBounds
  | never
deriving DecidableEq, Repr

/-- What the host's memory write responder answers to one request (20_memory.md rule R81): as its cells say; Ok, with a
cell at the address taking the word; MemoryOutOfBounds; or nothing ever (rule R78). -/
inductive MemWriteReply where
  | asCells
  | accepts
  | outOfBounds
  | never
deriving DecidableEq, Repr

/-- The answers a memory responder will give: those of the script in order, then always `rest`. They are data that a
claim quantifies over (DESIGN CHOICE, log entry 10, safe for a claim over all scripts). -/
structure Replies (α : Type) where
  script : List α
  rest : α
deriving DecidableEq, Repr

/-- One event at the core's ports, requests with their answers and reports (60_exceptions.md rule R246). A memory read
answered `none` and a write not `ok` are answers MemoryOutOfBounds; a resolve answered `none` is
IoFunctionDoesntExist; a request `Unanswered`, as a device request answered `never`, is one the core waits on for ever
(20_memory.md rule R78). Each request stands with all that the core sends in it (20_memory.md, table of ports). -/
inductive Event where
  | memRead (addr : Word) (answer : Option Word)
  | memWrite (addr data : Word) (ok : Bool)
  | ioResolve (desc : Word) (answer : Option Capability)
  | memReadUnanswered (addr : Word)
  | memWriteUnanswered (addr data : Word)
  | ioUnanswered (desc : Word)
  | devRead (desc : Word) (answer : ReadAnswer)
  | devWrite (desc : Word) (byte : Byte) (answer : WriteAnswer)
  | report (r : Report)
deriving DecidableEq, Repr

/-- A run of existing cells: the addresses `base` to `base + size - 1`. -/
structure Region where
  base : Nat
  size : Nat
deriving DecidableEq, Repr

/-- The host's memory: which addresses hold a cell, and the contents. The unit is the 64-bit cell
(20_memory.md rule R60), so an entry is an address and a word; an existing address that is not listed holds
`Memory.unlisted` of Ops.lean. `silent` lists the addresses without a cell at which a request is not answered
MemoryOutOfBounds but never (rule R78). The canonical form is `Memory.wf` of Ops.lean (DESIGN CHOICE, log entry 7, safe).
A responder that answers `asCells` is the reference memory of rule R79 over these cells. -/
structure Memory where
  regions : List Region
  cells : List (Nat × Word)
  silent : List Nat
deriving DecidableEq, Repr

/-- The three presence bits, one per host responder (10_state.md rule R35). -/
structure Presence where
  memRead : Bool
  memWrite : Bool
  io : Bool
deriving DecidableEq, Repr

/-- Where the core stands between two steps: before a fetch; inside the Write traversal of a Syscall, about to read the
cell `addr` for the device resolved as `desc` (43_system.md rules R205 and R207, decision D27); or waiting for ever for
an answer of a port (20_memory.md rule R78). The model's own field: it holds the temporaries of rule R44 (DESIGN CHOICE,
log entry 6, safe). -/
inductive Phase where
  | fetch
  | traverse (desc addr : Word)
  | waiting
deriving DecidableEq, Repr

/-- The whole state. `x`, `flags`, `stack`, `cfg`, `present` and `fatal` are the core's (the table of 10_state.md);
`mem`, the answers `reads` and `writes` of the two memory responders, and `devices` are the host's, behind the ports
(20_memory.md); `phase` and `trace` are the model's own, the
latter newest event first (DESIGN CHOICE, log entry 6, safe). -/
structure State where
  x : Vector Word 16
  flags : FlagWord
  stack : List Word
  cfg : Config
  present : Presence
  fatal : Bool
  phase : Phase
  mem : Memory
  reads : Replies MemReadReply
  writes : Replies MemWriteReply
  devices : List Binding
  trace : List Event
deriving DecidableEq, Repr

/-- The run state machine's three states (10_state.md rule R38). -/
inductive RunState where
  | stopped
  | running
  | fatal
deriving DecidableEq, Repr

/-- Why a step stops. Recoverable faults are no `Fault`: they lead to a next state, Stopped
(60_exceptions.md rule R232). -/
inductive Fault where
  /-- Raised by the decode step and by every meaning that raises a Fatal-class fault (60_exceptions.md rule R233: "A
  model represents Fatal as a fault outcome that is never a final state"). It carries the report and the terminal
  condition: `fatal` is 1 and the report is the newest event. The other core fields of `terminal` only record what the
  core held; the spec leaves them undefined (rule R37), and no statement rests on them (DESIGN CHOICE, log entry 8).
  Safe: nothing is claimed of a core after Fatal. -/
  | fatal (report : Report) (terminal : State)
  /-- Raised by a step of a core whose `fatal` bit is already 1: it performs no cycle (10_state.md rule R37). Safe. -/
  | coreIsFatal
deriving DecidableEq, Repr

/-- Why an instruction has no meaning. -/
inductive Refusal where
  /-- Raised by an arm of exec whose instruction has no meaning yet, of which there is none. Safe. -/
  | notModelled (mnemonic : String)
deriving DecidableEq, Repr

/-- The core after construction with a configuration, beside a host memory and device map
(70_reset_and_hazards.md rule R270): flags 0, no responder installed, fatal 0. DESIGN CHOICE (log entries 1, 3 and
5): a register and a stack word, which the spec leaves unspecified, hold 0, and the memory responders that the host will
install answer as the cells say. -/
def State.constructed (cfg : Config) (mem : Memory) (devices : List Binding) : State :=
  { x := Vector.replicate 16 0
    flags := 0
    stack := List.replicate cfg.stackCapacity 0
    cfg := cfg
    present := { memRead := false, memWrite := false, io := false }
    fatal := false
    phase := .fetch
    mem := mem
    reads := { script := [], rest := .asCells }
    writes := { script := [], rest := .asCells }
    devices := devices
    trace := [] }

/-- The machine right after reset, which is construction (70_reset_and_hazards.md rule R270), in the spec's default
configuration. DESIGN CHOICE (log entry 3): the host's memory has a cell at every 64-bit address, with nothing listed,
and no descriptor is bound. -/
def State.reset : State :=
  State.constructed Config.default { regions := [{ base := 0, size := 2 ^ 64 }], cells := [], silent := [] } []

end Sys2Proof.Machine
end

