-- ==== Sys2Proof/Machine/Flags.lean ====
section
/-! DEFINITION. The flag word (10_state.md rules R29 to R32). No instruction computes a condition flag
(40_alu.md rule R121): the one flag operation of the instruction set clears Running. -/

namespace Sys2Proof.Machine

/-- Bit 0, `Running`: execution enabled (10_state.md rule R29, positions by decision D12). -/
def Flags.running (f : FlagWord) : Bool := f.getLsbD 0

/-- Bit 1, `Carry`, reserved (10_state.md rule R31). -/
def Flags.carry (f : FlagWord) : Bool := f.getLsbD 1

/-- Bit 2, `Zero`, reserved (10_state.md rule R31). -/
def Flags.zero (f : FlagWord) : Bool := f.getLsbD 2

/-- Bit 3, `Negative`, reserved (10_state.md rule R31). -/
def Flags.negative (f : FlagWord) : Bool := f.getLsbD 3

/-- Bit 4, `Overflow`, reserved (10_state.md rule R31). -/
def Flags.overflow (f : FlagWord) : Bool := f.getLsbD 4

/-- Bit 5, `Interrupt`, reserved and without effect (60_exceptions.md rule R239). -/
def Flags.interrupt (f : FlagWord) : Bool := f.getLsbD 5

/-- `flags.Running <- 0`, the other 15 bits preserved (10_state.md rule R30). -/
def Flags.clearRunning (f : FlagWord) : FlagWord := f &&& 0xFFFE

/-- `flags.Running <- 1`, which only the host does (10_state.md rule R30). -/
def Flags.setRunning (f : FlagWord) : FlagWord := f ||| 0x0001

/-- The run state: Fatal where `fatal` is 1, else Running or Stopped by the Running flag (10_state.md rule R38). -/
def State.runState (s : State) : RunState :=
  if s.fatal then .fatal else if Flags.running s.flags then .running else .stopped

end Sys2Proof.Machine
end

