-- ==== Sys2Proof/Machine/Ops.lean ====
section
/-! DEFINITION. The named operations over the state: registers, the program-counter update, the host's memory and
devices, the ports with their blocking transactions (20_memory.md), and taking a fault, recoverable or Fatal
(60_exceptions.md rules R232 and R233). The core has no return from a fault (rule R240). -/

namespace Sys2Proof.Machine

/-- What an instruction, and a step, answers. -/
abbrev Out := Host.Outcome State Fault Refusal

/-! ### Registers and the program counter -/

/-- `x[i]` (10_state.md rule R20). -/
def State.readReg (s : State) (i : Fin 16) : Word := s.x[i]

/-- `x[i] <- v` (10_state.md rule R20). -/
def State.writeReg (i : Fin 16) (v : Word) (s : State) : State := { s with x := s.x.set i v }

/-- The program counter, `x[PC_INDEX]` (10_state.md rule R24). -/
def State.pc (s : State) : Word := s.readReg s.cfg.pcIndex

/-- The stack pointer, `x[SP_INDEX]`, which no instruction treats as special (10_state.md rule R28). -/
def State.sp (s : State) : Word := s.readReg s.cfg.spIndex

/-- `x[PC_INDEX] <- v`. -/
def State.setPc (v : Word) (s : State) : State := s.writeReg s.cfg.pcIndex v

/-- How an instruction that completes leaves the program counter (10_state.md rule R41). -/
inductive PcUpdate where
  | next
  | target (t : Word)
  | stay
deriving DecidableEq, Repr

/-- The program-counter update at the end of a cycle. `next` adds 1 modulo 2^64 to the program counter as it stands
after the execute phase (10_state.md rules R27 and R42). -/
def State.retire (u : PcUpdate) (s : State) : State :=
  match u with
  | .next => s.setPc (s.pc + 1)
  | .target t => s.setPc t
  | .stay => s

/-- The phase the core stands in after the step. -/
def State.setPhase (p : Phase) (s : State) : State := { s with phase := p }

/-- The answer a responder gives to the next request. -/
def Replies.head {α : Type} (r : Replies α) : α := r.script.headD r.rest

/-- The answers left after `n` requests. -/
def Replies.after {α : Type} (n : Nat) (r : Replies α) : Replies α := { r with script := r.script.drop n }

/-- How many requests on the memory port the event stands for. -/
def Event.requestsOn (p : MemPort) : Event → Nat
  | .memRead _ _ => if p = .read then 1 else 0
  | .memWrite _ _ _ => if p = .write then 1 else 0
  | .memReadUnanswered _ => if p = .read then 1 else 0
  | .memWriteUnanswered _ _ => if p = .write then 1 else 0
  | .ioResolve _ _ => 0
  | .ioUnanswered _ => 0
  | .devRead _ _ => 0
  | .devWrite _ _ _ => 0
  | .report _ => 0

/-- The core's ports record one more event, and a memory responder that it is a request to has one answer less left. -/
def State.emit (e : Event) (s : State) : State :=
  { s with trace := e :: s.trace
           reads := s.reads.after (e.requestsOn .read)
           writes := s.writes.after (e.requestsOn .write) }

/-! ### Faults and reports -/

/-- The report codes (60_exceptions.md rules R231 and R247, decision D17). -/
def Report.code : Report → Nat
  | .memoryOutOfBounds _ _ _ => 0x01
  | .ioFunctionDoesntExist _ _ => 0x02
  | .ioReadAccessError _ _ => 0x03
  | .ioWriteAccessError _ _ _ _ => 0x04
  | .memoryCallbackAbsent _ _ _ _ => 0x05
  | .unknownOpcode _ _ => 0x10
  | .divideByZero _ _ => 0x11
  | .registerIndexOutOfRange _ _ _ => 0x12
  | .arithmeticOverflow _ _ => 0x13
  | .ioCallbackAbsent _ => 0x20

/-- The effects of a recoverable fault: the report is emitted, Running is cleared and no other flag changes, the
program counter keeps the address of the instruction (60_exceptions.md rule R232). -/
def State.stopWith (r : Report) (s : State) : State :=
  { s with flags := Flags.clearRunning s.flags, phase := .fetch, trace := .report r :: s.trace }

/-- The terminal condition of a Fatal-class fault: the report is emitted and `fatal <- 1`
(60_exceptions.md rule R233). -/
def State.enterFatal (r : Report) (s : State) : State :=
  { s with fatal := true, phase := .fetch, trace := .report r :: s.trace }

/-- Raise a recoverable fault: a next state, Stopped (60_exceptions.md rule R232). -/
def raiseStop (r : Report) (s : State) : Out := .next (s.stopWith r)

/-- Raise a Fatal-class fault: a fault outcome, never a final state (60_exceptions.md rule R233). -/
def raiseFatal (r : Report) (s : State) : Out := .fault (.fatal r (s.enterFatal r))

/-! ### The host's memory -/

/-- What an existing cell that nothing has written holds. DESIGN CHOICE (log entry 2, unsafe): 0, the value of the
reference memory in the spec's vectors (20_memory.md rule R79). -/
def Memory.unlisted : Word := 0

/-- The region holds the address. -/
def Region.has (r : Region) (a : Nat) : Bool := decide (r.base ≤ a) && decide (a < r.base + r.size)

/-- A cell exists at the address (20_memory.md rule R60). -/
def Memory.mapped (m : Memory) (a : Nat) : Bool := m.regions.any (·.has a)

/-- The contents that a list of cells gives an address. -/
def Memory.lookup : List (Nat × Word) → Nat → Word
  | [], _ => Memory.unlisted
  | (b, v) :: rest, a => if a = b then v else Memory.lookup rest a

/-- The contents of one cell, none where there is no cell. -/
def Memory.read (m : Memory) (a : Nat) : Option Word :=
  if m.mapped a then some (Memory.lookup m.cells a) else none

/-- A list of cells with one cell's contents replaced, in rising order and without entries that say what an unlisted
address says. -/
def Memory.update (a : Nat) (v : Word) : List (Nat × Word) → List (Nat × Word)
  | [] => if v = Memory.unlisted then [] else [(a, v)]
  | (b, w) :: rest =>
    if a < b then (if v = Memory.unlisted then (b, w) :: rest else (a, v) :: (b, w) :: rest)
    else if a = b then (if v = Memory.unlisted then rest else (a, v) :: rest)
    else (b, w) :: Memory.update a v rest

/-- One cell's contents replaced, none where there is no cell: then nothing changes (20_memory.md rules R62
and R79). -/
def Memory.write (m : Memory) (a : Nat) (v : Word) : Option Memory :=
  if m.mapped a then some { m with cells := Memory.update a v m.cells } else none

/-- A cell, where there is one, takes a word. -/
def Memory.store (m : Memory) (a : Nat) (v : Word) : Memory := (m.write a v).getD m

/-- The host never answers a request at the address, which has no cell (20_memory.md rule R78). -/
def Memory.blocks (m : Memory) (a : Nat) : Bool := m.silent.contains a

/-- A list of regions with the one address added, regions that touch being one region. -/
def Memory.addAddress (a : Nat) : List Region → List Region
  | [] => [{ base := a, size := 1 }]
  | r :: rest =>
    if a + 1 < r.base then { base := a, size := 1 } :: r :: rest
    else if a + 1 = r.base then { base := a, size := r.size + 1 } :: rest
    else if a < r.base + r.size then r :: rest
    else if a = r.base + r.size then
      match rest with
      | [] => [{ base := r.base, size := r.size + 1 }]
      | q :: more =>
        if a + 1 = q.base then { base := r.base, size := r.size + 1 + q.size } :: more
        else { base := r.base, size := r.size + 1 } :: q :: more
    else r :: Memory.addAddress a rest

/-- The host makes a cell exist at an address and puts a word in it (20_memory.md rule R81, preparing a run). -/
def Memory.place (m : Memory) (a : Nat) (v : Word) : Memory :=
  { regions := Memory.addAddress a m.regions
    cells := Memory.update a v m.cells
    silent := m.silent.filter fun b => b != a }

/-- The regions are in rising order from `lo` on, none is empty, no two touch, and none passes the end of the 64-bit
address space. -/
def Memory.regionsFrom (lo : Nat) : List Region → Bool
  | [] => true
  | r :: rest =>
    decide (lo ≤ r.base) && decide (0 < r.size) && decide (r.base + r.size ≤ 2 ^ 64) &&
      Memory.regionsFrom (r.base + r.size + 1) rest

/-- The cells are in strictly rising order from `lo` on, and none says what an unlisted address says. -/
def Memory.cellsFrom (lo : Nat) : List (Nat × Word) → Bool
  | [] => true
  | (a, v) :: rest => decide (lo ≤ a) && decide (v ≠ Memory.unlisted) && Memory.cellsFrom (a + 1) rest

/-- The addresses are in strictly rising order from `lo` on. -/
def Memory.addressesFrom (lo : Nat) : List Nat → Bool
  | [] => true
  | a :: rest => decide (lo ≤ a) && Memory.addressesFrom (a + 1) rest

/-- The canonical form of memory: equal memories are equal data. -/
def Memory.wf (m : Memory) : Bool :=
  Memory.regionsFrom 0 m.regions && Memory.cellsFrom 0 m.cells && (m.cells.all fun c => m.mapped c.1) &&
    Memory.addressesFrom 0 m.silent && m.silent.all fun a => !m.mapped a

/-! ### The host's devices -/

/-- The device bound to a descriptor: the core gives the descriptor's value no meaning (20_memory.md rule R64). -/
def deviceAt (d : Word) : List Binding → Option Device
  | [] => none
  | b :: rest => if b.desc = d then some b.dev else deviceAt d rest

/-- The bindings with the device of one descriptor replaced. -/
def setDevice (d : Word) (dev : Device) : List Binding → List Binding
  | [] => []
  | b :: rest => if b.desc = d then { desc := d, dev := dev } :: rest else b :: setDevice d dev rest

/-- The tag a device resolves to, none where the resolution is never answered (20_memory.md rules R64 and R78). -/
def Device.tag : Device → Option Capability
  | .reader _ _ => some .read
  | .writer _ _ => some .write
  | .silent => none

/-- A device's answer to one read request, and the device after it. A read request to a Write device, which no
instruction makes, fails (DESIGN CHOICE, log entry 11, safe). -/
def Device.answerRead : Device → ReadAnswer × Device
  | .reader [] rest => (rest, .reader [] rest)
  | .reader (a :: script) rest => (a, .reader script rest)
  | .writer script rest => (.fails, .writer script rest)
  | .silent => (.never, .silent)

/-- A device's answer to one write request, and the device after it. A write request to a Read device, which no
instruction makes, fails. -/
def Device.answerWrite : Device → WriteAnswer × Device
  | .writer [] rest => (rest, .writer [] rest)
  | .writer (a :: script) rest => (a, .writer script rest)
  | .reader script rest => (.fails, .reader script rest)
  | .silent => (.never, .silent)

/-- The bindings are in strictly rising order of their descriptors from `lo` on: the canonical form of the host's
device map. -/
def bindingsFrom (lo : Nat) : List Binding → Bool
  | [] => true
  | b :: rest => decide (lo ≤ b.desc.toNat) && bindingsFrom (b.desc.toNat + 1) rest

/-! ### The ports -/

/-- One answer to a memory read request (20_memory.md rule R61), or that there will be none (rule R78). -/
inductive MemReadAnswer where
  | word (w : Word)
  | outOfBounds
  | never
deriving DecidableEq, Repr

/-- One answer to a memory write request (20_memory.md rule R62), or that there will be none (rule R78). -/
inductive MemWriteAnswer where
  | ok
  | outOfBounds
  | never
deriving DecidableEq, Repr

/-- The answer to a read request at an address, with the host's cells as they are. -/
def MemReadReply.answer (r : MemReadReply) (m : Memory) (a : Nat) : MemReadAnswer :=
  match r with
  | .asCells =>
    match m.read a with
    | some w => .word w
    | none => if m.blocks a then .never else .outOfBounds
  | .word w => .word w
  | .outOfBounds => .outOfBounds
  | .never => .never

/-- The answer to a write request at an address, with the host's cells as they are. -/
def MemWriteReply.answer (r : MemWriteReply) (m : Memory) (a : Nat) : MemWriteAnswer :=
  match r with
  | .asCells => if m.mapped a then .ok else if m.blocks a then .never else .outOfBounds
  | .accepts => .ok
  | .outOfBounds => .outOfBounds
  | .never => .never

/-- The host's cell at the address, where there is one, takes a word. -/
def State.storeCell (a : Nat) (v : Word) (s : State) : State := { s with mem := s.mem.store a v }

/-- What the memory read responder answers, if it is installed and the core now reads the cell. -/
def State.readAnswer (s : State) (addr : Word) : MemReadAnswer := s.reads.head.answer s.mem addr.toNat

/-- What the memory write responder answers, if it is installed and the core now writes the cell. -/
def State.writeAnswer (s : State) (addr : Word) : MemWriteAnswer := s.writes.head.answer s.mem addr.toNat

/-- The core waits for ever for a port's answer, in the middle of the cycle, still Running (20_memory.md
rule R78). -/
def waitForEver (s : State) : Out := .next (s.setPhase .waiting)

/-- `MemRead(addr, 1)`: without a read responder no request is issued (20_memory.md rule R63); the answer
MemoryOutOfBounds is the recoverable fault (rule R61), no answer leaves the core waiting (rule R78), and a word goes
on. -/
def memRead (access : Access) (addr : Word) (s : State) (k : Word → State → Out) : Out :=
  if s.present.memRead then
    match s.readAnswer addr with
    | .word w => k w (s.emit (.memRead addr (some w)))
    | .outOfBounds => raiseStop (.memoryOutOfBounds access addr s.pc) (s.emit (.memRead addr none))
    | .never => waitForEver (s.emit (.memReadUnanswered addr))
  else raiseStop (.memoryCallbackAbsent .read access addr s.pc) s

/-- `MemWrite(addr, 1, v)`: as `memRead`, on the memory write port (20_memory.md rules R62 and R63). DESIGN CHOICE (log
entry 10, unsafe for a general host): a write answered MemoryOutOfBounds changes no cell, as in the reference memory of
rule R79. -/
def memWrite (access : Access) (addr v : Word) (s : State) (k : State → Out) : Out :=
  if s.present.memWrite then
    match s.writeAnswer addr with
    | .ok => k ((s.storeCell addr.toNat v).emit (.memWrite addr v true))
    | .outOfBounds => raiseStop (.memoryOutOfBounds access addr s.pc) (s.emit (.memWrite addr v false))
    | .never => waitForEver (s.emit (.memWriteUnanswered addr v))
  else raiseStop (.memoryCallbackAbsent .write access addr s.pc) s

/-- `IoResolve(d)`: an unbound descriptor is the recoverable fault IoFunctionDoesntExist; else the tag of the device
goes on (20_memory.md rule R64), unless the host never answers (rule R78). -/
def ioResolve (d : Word) (s : State) (k : Capability → State → Out) : Out :=
  match deviceAt d s.devices with
  | some dev =>
    match dev.tag with
    | some tag => k tag (s.emit (.ioResolve d (some tag)))
    | none => waitForEver (s.emit (.ioUnanswered d))
  | none => raiseStop (.ioFunctionDoesntExist d s.pc) (s.emit (.ioResolve d none))

/-- `DevRead(cap)` for the device resolved as `d`: a byte goes on, a failure is the recoverable fault IoReadAccessError
(20_memory.md rule R65). -/
def devRead (d : Word) (s : State) (k : Byte → State → Out) : Out :=
  match deviceAt d s.devices with
  | some dev =>
    let s' := { s with devices := setDevice d dev.answerRead.2 s.devices
                       trace := .devRead d dev.answerRead.1 :: s.trace }
    match dev.answerRead.1 with
    | .byte b => k b s'
    | .fails => raiseStop (.ioReadAccessError d s.pc) s'
    | .never => waitForEver s'
  | none => raiseStop (.ioReadAccessError d s.pc) (s.emit (.devRead d .fails))

/-- `DevWrite(cap, b)` for the device resolved as `d`, the byte of the cell `addr`: Ok goes on, a failure is the
recoverable fault IoWriteAccessError (20_memory.md rule R65, 60_exceptions.md rule R231). -/
def devWrite (d : Word) (b : Byte) (addr : Word) (s : State) (k : State → Out) : Out :=
  match deviceAt d s.devices with
  | some dev =>
    let s' := { s with devices := setDevice d dev.answerWrite.2 s.devices
                       trace := .devWrite d b dev.answerWrite.1 :: s.trace }
    match dev.answerWrite.1 with
    | .accepts => k s'
    | .fails => raiseStop (.ioWriteAccessError d b addr s.pc) s'
    | .never => waitForEver s'
  | none => raiseStop (.ioWriteAccessError d b addr s.pc) (s.emit (.devWrite d b .fails))

end Sys2Proof.Machine
end

