-- ==== Sys2Proof/Machine/Operands.lean ====
section
/-! DEFINITION. The operand forms (30_encoding.md rules R96 and R97): a register slot with its index check, and a
literal slot, immediate or address, extended by zeros. The arithmetic, division and branch forms the families share. -/

namespace Sys2Proof.Machine

/-- `zext_64` of an operand slot: an immediate or an absolute cell address (30_encoding.md rule R97). -/
def zext64 (v : Slot) : Word := v.setWidth 64

/-- `zext_64` of a device byte, as a Syscall lands it (43_system.md rule R204). -/
def zextByte (b : Byte) : Word := b.setWidth 64

/-- The byte view of a cell: bits 7:0 (43_system.md rule R205). -/
def lowByte (c : Word) : Byte := c.extractLsb' 0 8

/-- A register operand: `chkreg` of the slot, then the register's index goes on. The values 16 to 65535 raise the
Fatal-class fault RegisterIndexOutOfRange (10_state.md rule R22). -/
def withReg (slot : Fin 3) (v : Slot) (s : State) (k : Fin 16 → Out) : Out :=
  if h : v.toNat < 16 then k ⟨v.toNat, h⟩
  else raiseFatal (.registerIndexOutOfRange slot v s.pc) s

/-- The two register operands of slots 0 and 1, checked in slot order (40_alu.md rule R122). -/
def withRegs (a0 a1 : Slot) (s : State) (k : Fin 16 → Fin 16 → Out) : Out :=
  withReg 0 a0 s fun d => withReg 1 a1 s fun r => k d r

/-- The end of an instruction that writes one register: `x[d] <- v`, then the program-counter update `Next`
(10_state.md rules R41 and R42). -/
def writeAndNext (d : Fin 16) (v : Word) (s : State) : Out := .next ((s.writeReg d v).retire .next)

/-- The end of an addition, subtraction or multiplication with the exact result `e`: the destination takes `e` modulo
2^64, unless `ARITH_OVERFLOW` is `fatal` and `e` lies outside 0 to 2^64 - 1 (40_alu.md rule R120; the switches are
fields of the configuration, log entry 15). -/
def finishArith (o : Opcode) (d : Fin 16) (e : Int) (s : State) : Out :=
  if s.cfg.arithOverflow = .fatal ∧ (e < 0 ∨ 2 ^ 64 ≤ e) then raiseFatal (.arithmeticOverflow o s.pc) s
  else writeAndNext d (BitVec.ofInt 64 e) s

/-- Raise DivideByZero in the class that `DIV0_CLASS` gives it (60_exceptions.md rule R231). -/
def raiseDivideByZero (o : Opcode) (s : State) : Out :=
  match s.cfg.div0Class with
  | .fatal => raiseFatal (.divideByZero o s.pc) s
  | .stop => raiseStop (.divideByZero o s.pc) s

/-- The end of a division of `n` by `m`: the unsigned quotient, rounded toward 0 (40_alu.md rules R120 and R127). -/
def finishDivide (o : Opcode) (d : Fin 16) (n m : Word) (s : State) : Out :=
  if m = 0 then raiseDivideByZero o s
  else writeAndNext d (BitVec.ofNat 64 (n.toNat / m.toNat)) s

/-- The end of a conditional branch: to the literal address where the condition holds, else to the next cell
(42_control.md rules R180 and R187). -/
def finishBranch (taken : Bool) (addr : Slot) (s : State) : Out :=
  .next (s.retire (if taken then .target (zext64 addr) else .next))

end Sys2Proof.Machine
end

