-- ==== Sys2Proof/Machine/Alu.lean ====
section
/-! DEFINITION. Arithmetic, move and no-operation instructions (40_alu.md). Each checks its register slots, reads its
sources, checks its divisor, writes its one destination, in that order (rule R122); none touches a flag (rule R121). -/

namespace Sys2Proof.Machine

/-- Nop (40_alu.md rule R123). -/
def execNop (s : State) : Out := .next (s.retire .next)

/-- Add (40_alu.md rule R124). -/
def execAdd (a0 a1 : Slot) (s : State) : Out :=
  withRegs a0 a1 s fun d r => finishArith .add d ((s.readReg d).toNat + (s.readReg r).toNat : Int) s

/-- Sub (40_alu.md rule R125). -/
def execSub (a0 a1 : Slot) (s : State) : Out :=
  withRegs a0 a1 s fun d r => finishArith .sub d ((s.readReg d).toNat - (s.readReg r).toNat : Int) s

/-- Mul (40_alu.md rule R126). -/
def execMul (a0 a1 : Slot) (s : State) : Out :=
  withRegs a0 a1 s fun d r => finishArith .mul d ((s.readReg d).toNat * (s.readReg r).toNat : Int) s

/-- Div (40_alu.md rule R127). -/
def execDiv (a0 a1 : Slot) (s : State) : Out :=
  withRegs a0 a1 s fun d r => finishDivide .div d (s.readReg d) (s.readReg r) s

/-- Addi (40_alu.md rule R128). -/
def execAddi (a0 imm : Slot) (s : State) : Out :=
  withReg 0 a0 s fun d => finishArith .addi d ((s.readReg d).toNat + (zext64 imm).toNat : Int) s

/-- Subi (40_alu.md rule R129). -/
def execSubi (a0 imm : Slot) (s : State) : Out :=
  withReg 0 a0 s fun d => finishArith .subi d ((s.readReg d).toNat - (zext64 imm).toNat : Int) s

/-- Muli (40_alu.md rule R130). -/
def execMuli (a0 imm : Slot) (s : State) : Out :=
  withReg 0 a0 s fun d => finishArith .muli d ((s.readReg d).toNat * (zext64 imm).toNat : Int) s

/-- Divi (40_alu.md rule R131). -/
def execDivi (a0 imm : Slot) (s : State) : Out :=
  withReg 0 a0 s fun d => finishDivide .divi d (s.readReg d) (zext64 imm) s

/-- Mov (40_alu.md rule R132). -/
def execMov (a0 a1 : Slot) (s : State) : Out :=
  withRegs a0 a1 s fun d r => writeAndNext d (s.readReg r) s

/-- Movi (40_alu.md rule R133). -/
def execMovi (a0 imm : Slot) (s : State) : Out :=
  withReg 0 a0 s fun d => writeAndNext d (zext64 imm) s

end Sys2Proof.Machine
end

