-- ==== Sys2Proof/Machine/Control.lean ====
section
/-! DEFINITION. Branch and jump instructions (42_control.md): unsigned comparisons with `x[a0]` on the left, absolute
targets (rules R180 and R187). -/

namespace Sys2Proof.Machine

/-- Beq (42_control.md rule R181). -/
def execBeq (a0 a1 addr : Slot) (s : State) : Out :=
  withRegs a0 a1 s fun l r => finishBranch (decide (s.readReg l = s.readReg r)) addr s

/-- Bne (42_control.md rule R182). -/
def execBne (a0 a1 addr : Slot) (s : State) : Out :=
  withRegs a0 a1 s fun l r => finishBranch (decide (s.readReg l ≠ s.readReg r)) addr s

/-- Blt (42_control.md rule R183). -/
def execBlt (a0 a1 addr : Slot) (s : State) : Out :=
  withRegs a0 a1 s fun l r => finishBranch (decide ((s.readReg l).toNat < (s.readReg r).toNat)) addr s

/-- Bgt (42_control.md rule R184). -/
def execBgt (a0 a1 addr : Slot) (s : State) : Out :=
  withRegs a0 a1 s fun l r => finishBranch (decide ((s.readReg r).toNat < (s.readReg l).toNat)) addr s

/-- Jmp (42_control.md rule R185). -/
def execJmp (addr : Slot) (s : State) : Out := .next (s.retire (.target (zext64 addr)))

/-- JmpR (42_control.md rule R186). -/
def execJmpR (a0 : Slot) (s : State) : Out :=
  withReg 0 a0 s fun t => .next (s.retire (.target (s.readReg t)))

end Sys2Proof.Machine
end

