-- ==== Sys2Proof/Machine/LoadStore.lean ====
section
/-! DEFINITION. Load and Store (41_load_store.md): one whole cell at an absolute literal address. -/

namespace Sys2Proof.Machine

/-- Load (41_load_store.md rule R161): the destination is written after the one transaction that can fault. -/
def execLoad (a0 addr : Slot) (s : State) : Out :=
  withReg 0 a0 s fun d => memRead .load (zext64 addr) s fun v s' => writeAndNext d v s'

/-- Store (41_load_store.md rule R162). -/
def execStore (a0 addr : Slot) (s : State) : Out :=
  withReg 0 a0 s fun r => memWrite .store (zext64 addr) (s.readReg r) s fun s' => .next (s'.retire .next)

end Sys2Proof.Machine
end

