-- ==== Sys2Proof/Machine/System.lean ====
section
/-! DEFINITION. Halt and Syscall (43_system.md). The Write traversal of a Syscall goes one cell a step
(rule R207, decision D27): Syscall itself does the first cell, and the steps after it the others (DESIGN CHOICE, log
entry 12, safe). -/

namespace Sys2Proof.Machine

/-- Halt (43_system.md rule R200): Running is cleared, the program counter stays. -/
def execHalt (s : State) : Out :=
  .next ({ s with flags := Flags.clearRunning s.flags } |>.retire .stay)

/-- A Syscall completes: the next step fetches, from the next cell. -/
def finishSyscall (s : State) : Out := .next ((s.setPhase .fetch).retire .next)

/-- One cell of the Write traversal for the device resolved as `d` (43_system.md rule R205): the zero byte ends the
Syscall; any other byte goes to the device, and the next cell's address, modulo 2^64, is next. -/
def traverseCell (d addr : Word) (s : State) : Out :=
  memRead .syscallWrite addr s fun c s' =>
    if lowByte c = 0 then finishSyscall s'
    else devWrite d (lowByte c) addr s' fun s'' => .next (s''.setPhase (.traverse d (addr + 1)))

/-- The Read path of a Syscall (43_system.md rule R204): the byte is taken from the device before the write port is
looked at, so a fault after it loses the byte. -/
def landByte (d ptr : Word) (s : State) : Out :=
  devRead d s fun b s' => memWrite .syscallRead ptr (zextByte b) s' finishSyscall

/-- Syscall (43_system.md rules R201 to R203). Without an IO responder it logs the condition and goes on. -/
def execSyscall (s : State) : Out :=
  if s.present.io then
    ioResolve (s.readReg Config.sysDescReg) s fun tag s' =>
      match tag with
      | .read => landByte (s.readReg Config.sysDescReg) (s'.readReg Config.sysPtrReg) s'
      | .write => traverseCell (s.readReg Config.sysDescReg) (s'.readReg Config.sysPtrReg) s'
  else .next ((s.emit (.report (.ioCallbackAbsent s.pc))).retire .next)

end Sys2Proof.Machine
end

