-- ==== Sys2Proof/Machine/Dispatch.lean ====
section
/-! DEFINITION. One arm per instruction. -/

namespace Sys2Proof.Machine

def exec (i : Instr) (s : State) : Host.Outcome State Fault Refusal :=
  match i with
  | .nop => Sys2Proof.Machine.execNop s
  | .add a0 a1 => Sys2Proof.Machine.execAdd a0 a1 s
  | .sub a0 a1 => Sys2Proof.Machine.execSub a0 a1 s
  | .mul a0 a1 => Sys2Proof.Machine.execMul a0 a1 s
  | .div a0 a1 => Sys2Proof.Machine.execDiv a0 a1 s
  | .addi a0 imm => Sys2Proof.Machine.execAddi a0 imm s
  | .subi a0 imm => Sys2Proof.Machine.execSubi a0 imm s
  | .muli a0 imm => Sys2Proof.Machine.execMuli a0 imm s
  | .divi a0 imm => Sys2Proof.Machine.execDivi a0 imm s
  | .mov a0 a1 => Sys2Proof.Machine.execMov a0 a1 s
  | .movi a0 imm => Sys2Proof.Machine.execMovi a0 imm s
  | .load a0 addr => Sys2Proof.Machine.execLoad a0 addr s
  | .store a0 addr => Sys2Proof.Machine.execStore a0 addr s
  | .beq a0 a1 addr => Sys2Proof.Machine.execBeq a0 a1 addr s
  | .bne a0 a1 addr => Sys2Proof.Machine.execBne a0 a1 addr s
  | .blt a0 a1 addr => Sys2Proof.Machine.execBlt a0 a1 addr s
  | .bgt a0 a1 addr => Sys2Proof.Machine.execBgt a0 a1 addr s
  | .jmp addr => Sys2Proof.Machine.execJmp addr s
  | .jmpR a0 => Sys2Proof.Machine.execJmpR a0 s
  | .halt => Sys2Proof.Machine.execHalt s
  | .syscall => Sys2Proof.Machine.execSyscall s

end Sys2Proof.Machine
end

