-- ==== Sys2Proof/WellFormed.lean ====
section
/-! DEFINITION. The encoding duties of a program that an instruction, as syntax, can break
(70_reset_and_hazards.md rule R280). -/

namespace Sys2Proof

/-- A register slot names one of the 16 registers (30_encoding.md rule R96). -/
def WellFormed.regSlot (v : Slot) : Bool := decide (v.toNat < 16)

/-- Every register slot of the instruction names a register (70_reset_and_hazards.md rule R280). An opcode outside the
21 is no term of `Instr`, and an unused slot is not held, so the other two duties of that rule are checked on words:
`wellFormedWord` of Decode.lean. -/
def WellFormed.check : Instr → Bool
  | .nop => true
  | .add a0 a1 => regSlot a0 && regSlot a1
  | .sub a0 a1 => regSlot a0 && regSlot a1
  | .mul a0 a1 => regSlot a0 && regSlot a1
  | .div a0 a1 => regSlot a0 && regSlot a1
  | .addi a0 _ => regSlot a0
  | .subi a0 _ => regSlot a0
  | .muli a0 _ => regSlot a0
  | .divi a0 _ => regSlot a0
  | .mov a0 a1 => regSlot a0 && regSlot a1
  | .movi a0 _ => regSlot a0
  | .load a0 _ => regSlot a0
  | .store a0 _ => regSlot a0
  | .beq a0 a1 _ => regSlot a0 && regSlot a1
  | .bne a0 a1 _ => regSlot a0 && regSlot a1
  | .blt a0 a1 _ => regSlot a0 && regSlot a1
  | .bgt a0 a1 _ => regSlot a0 && regSlot a1
  | .jmp _ => true
  | .jmpR a0 => regSlot a0
  | .halt => true
  | .syscall => true

end Sys2Proof
end

