-- ==== Sys2Proof/Decode.lean ====
section
/-! DEFINITION. The instruction word codec (30_encoding.md): the raw record of four 16-bit fields, the decoder of the
opcode map, and after it the encoder. The field layout lives in `decodeFields` and `encodeFields` alone, with the
positions of Config.lean (decision D2). -/

namespace Sys2Proof

/-- What a word decodes to: an instruction, or by name the opcode value that names none
(30_encoding.md rules R92 and R95). -/
inductive DecodeResult where
  | instr (i : Instr)
  | unknownOpcode (op : Slot)
deriving DecidableEq, Repr

/-- The raw decoding of a word, which never fails (30_encoding.md rule R92). -/
def decodeFields (w : Word) : Fields :=
  { op := w.extractLsb' Config.opLsb 16
    a0 := w.extractLsb' Config.a0Lsb 16
    a1 := w.extractLsb' Config.a1Lsb 16
    a2 := w.extractLsb' Config.a2Lsb 16 }

/-- The opcode that an opcode field's value names, none for 21 to 65535 (30_encoding.md rules R94 and R95). -/
def Opcode.ofCode (op : Slot) : Option Opcode :=
  match op.toNat with
  | 0 => some .nop
  | 1 => some .add
  | 2 => some .sub
  | 3 => some .mul
  | 4 => some .div
  | 5 => some .addi
  | 6 => some .subi
  | 7 => some .muli
  | 8 => some .divi
  | 9 => some .mov
  | 10 => some .movi
  | 11 => some .load
  | 12 => some .store
  | 13 => some .beq
  | 14 => some .bne
  | 15 => some .blt
  | 16 => some .bgt
  | 17 => some .jmp
  | 18 => some .jmpR
  | 19 => some .halt
  | 20 => some .syscall
  | _ => none

/-- The instruction of an opcode and the operand slots (the slot columns of 30_encoding.md rule R94); the slots an
opcode does not use are ignored (rule R98). -/
def Instr.ofFields (o : Opcode) (f : Fields) : Instr :=
  match o with
  | .nop => .nop
  | .add => .add f.a0 f.a1
  | .sub => .sub f.a0 f.a1
  | .mul => .mul f.a0 f.a1
  | .div => .div f.a0 f.a1
  | .addi => .addi f.a0 f.a1
  | .subi => .subi f.a0 f.a1
  | .muli => .muli f.a0 f.a1
  | .divi => .divi f.a0 f.a1
  | .mov => .mov f.a0 f.a1
  | .movi => .movi f.a0 f.a1
  | .load => .load f.a0 f.a1
  | .store => .store f.a0 f.a1
  | .beq => .beq f.a0 f.a1 f.a2
  | .bne => .bne f.a0 f.a1 f.a2
  | .blt => .blt f.a0 f.a1 f.a2
  | .bgt => .bgt f.a0 f.a1 f.a2
  | .jmp => .jmp f.a0
  | .jmpR => .jmpR f.a0
  | .halt => .halt
  | .syscall => .syscall

/-- Decoding of a whole word: the same in every state and configuration (30_encoding.md rule R102). -/
def decode (w : Word) : DecodeResult :=
  match Opcode.ofCode (decodeFields w).op with
  | some o => .instr (Instr.ofFields o (decodeFields w))
  | none => .unknownOpcode (decodeFields w).op

/-- The number of an opcode (30_encoding.md rule R94). -/
def Opcode.code : Opcode → Slot
  | .nop => 0
  | .add => 1
  | .sub => 2
  | .mul => 3
  | .div => 4
  | .addi => 5
  | .subi => 6
  | .muli => 7
  | .divi => 8
  | .mov => 9
  | .movi => 10
  | .load => 11
  | .store => 12
  | .beq => 13
  | .bne => 14
  | .blt => 15
  | .bgt => 16
  | .jmp => 17
  | .jmpR => 18
  | .halt => 19
  | .syscall => 20

/-- The raw encoding: the four fields at their places, with no check of the opcode or of unused slots
(30_encoding.md rules R91 and R93). -/
def encodeFields (f : Fields) : Word :=
  (f.op.setWidth 64 <<< Config.opLsb) ||| (f.a0.setWidth 64 <<< Config.a0Lsb) |||
    (f.a1.setWidth 64 <<< Config.a1Lsb) ||| (f.a2.setWidth 64 <<< Config.a2Lsb)

/-- The fields of an instruction, unused slots zero (30_encoding.md rules R94 and R98). -/
def Instr.fields (i : Instr) : Fields :=
  match i with
  | .nop => ⟨i.opcode.code, 0, 0, 0⟩
  | .add a0 a1 => ⟨i.opcode.code, a0, a1, 0⟩
  | .sub a0 a1 => ⟨i.opcode.code, a0, a1, 0⟩
  | .mul a0 a1 => ⟨i.opcode.code, a0, a1, 0⟩
  | .div a0 a1 => ⟨i.opcode.code, a0, a1, 0⟩
  | .addi a0 imm => ⟨i.opcode.code, a0, imm, 0⟩
  | .subi a0 imm => ⟨i.opcode.code, a0, imm, 0⟩
  | .muli a0 imm => ⟨i.opcode.code, a0, imm, 0⟩
  | .divi a0 imm => ⟨i.opcode.code, a0, imm, 0⟩
  | .mov a0 a1 => ⟨i.opcode.code, a0, a1, 0⟩
  | .movi a0 imm => ⟨i.opcode.code, a0, imm, 0⟩
  | .load a0 addr => ⟨i.opcode.code, a0, addr, 0⟩
  | .store a0 addr => ⟨i.opcode.code, a0, addr, 0⟩
  | .beq a0 a1 addr => ⟨i.opcode.code, a0, a1, addr⟩
  | .bne a0 a1 addr => ⟨i.opcode.code, a0, a1, addr⟩
  | .blt a0 a1 addr => ⟨i.opcode.code, a0, a1, addr⟩
  | .bgt a0 a1 addr => ⟨i.opcode.code, a0, a1, addr⟩
  | .jmp addr => ⟨i.opcode.code, addr, 0, 0⟩
  | .jmpR a0 => ⟨i.opcode.code, a0, 0, 0⟩
  | .halt => ⟨i.opcode.code, 0, 0, 0⟩
  | .syscall => ⟨i.opcode.code, 0, 0, 0⟩

/-- The one word of an instruction (30_encoding.md rules R90 and R91). -/
def encode (i : Instr) : Word := encodeFields i.fields

/-- All three encoding duties of a program on one word: a defined opcode, register slots 0 to 15, unused slots zero
(70_reset_and_hazards.md rule R280). The core itself checks only the first two, when the word executes. -/
def wellFormedWord (w : Word) : Bool :=
  match decode w with
  | .instr i => WellFormed.check i && encode i == w
  | .unknownOpcode _ => false

/-- The word whose bits are `w`, in the numbering of spec/opcode_table.json; bits at `nbits` and above are 0. An
instruction is one 64-bit cell, so the table's numbering and the cell's are one. -/
def tableWord (nbits w : Nat) : Word := BitVec.ofNat 64 (w % 2 ^ nbits)

/-- The instruction the decoder reads from a table word, none where it names no opcode. -/
def decodeTableWord (nbits w : Nat) : Option Instr :=
  match decode (tableWord nbits w) with
  | .instr i => some i
  | .unknownOpcode _ => none

end Sys2Proof
end

