-- ==== Sys2Proof/Machine/Fetch.lean ====
section
/-! DEFINITION. The instruction cycle around exec (10_state.md rules R39 to R41): run-state test, fetch, decode, and the
steps inside a Syscall that takes more than one. Step.lean only calls it. -/

namespace Sys2Proof.Machine

/-- Fetch the word at the program counter, decode it and run the instruction with `run`; an opcode outside the 21 is
the Fatal-class fault UnknownOpcode (10_state.md rule R41, 30_encoding.md rule R95). -/
def cycleWith (run : Instr → State → Out) (s : State) : Out :=
  memRead .fetch s.pc s fun w s' =>
    match decode w with
    | .instr i => run i s'
    | .unknownOpcode op => raiseFatal (.unknownOpcode op s'.pc) s'

/-- One step: a Fatal core performs no cycle, a Stopped core does nothing (10_state.md rules R37 and R39), a Running
core fetches and runs one instruction or goes on with the Syscall it is in. DESIGN CHOICE (log entry 13, safe): the step
of a Stopped core is a next state, the same. -/
def stepWith (run : Instr → State → Out) (s : State) : Out :=
  match s.runState with
  | .fatal => .fault .coreIsFatal
  | .stopped => .next s
  | .running =>
    match s.phase with
    | .fetch => cycleWith run s
    | .traverse d addr => traverseCell d addr s
    | .waiting => .next s

/-- The host prepares a run of one word at the program counter (20_memory.md rule R81, 70_reset_and_hazards.md
rule R273): the word stands in a cell there, the memory read responder is installed and answers the next request as the
cells say, Running is set. A core in another condition than before a fetch is brought there, which takes a new
construction. DESIGN CHOICE (log entry 9, safe). -/
def State.placeWord (s : State) (w : Word) : State :=
  { s with mem := s.mem.place s.pc.toNat w
           reads := { s.reads with script := .asCells :: s.reads.script }
           present := { s.present with memRead := true }
           flags := Flags.setRunning s.flags
           fatal := false
           phase := .fetch }

end Sys2Proof.Machine
end

