-- ==== Sys2Proof/Machine/Step.lean ====
section
/-! DEFINITION. One step of the machine. -/

namespace Sys2Proof.Machine

/-- One step: one instruction cycle, or one cell of a Syscall's Write traversal (10_state.md rule R41, 43_system.md
rule R207). -/
def step (s : State) : Host.Outcome State Fault Refusal := stepWith exec s

/-- The state with a table word stored where the next step fetches, and all that this fetch takes. -/
def State.withFetchWord (s : State) (nbits w : Nat) : State := s.placeWord (tableWord nbits w)

end Sys2Proof.Machine
end

