-- ==== Sys2Proof/Machine/Tracked.lean ====
section
/-! DEFINITION. The step that keeps account of which registers have been written since construction (10_state.md
rule R36) and raises the model-only fault UndefinedRegisterRead (60_exceptions.md rule R249), and the registers an
instruction names. The host's runs are made of it (HostSide.lean). -/

namespace Sys2Proof.Machine

/-! ### The registers an instruction names -/

/-- The register a slot names, none for 16 to 65535. -/
def slotReg (v : Slot) : Option (Fin 16) := if h : v.toNat < 16 then some ⟨v.toNat, h⟩ else none

/-- The source registers an instruction reads in the state, in the order of its rule, after its index checks. A Syscall
reads `x[3]` with an IO responder, and `x[4]` once the descriptor has resolved (43_system.md rule R202). The reading of
the program counter for the `Next` update is not among them. -/
def sourceRegs (i : Instr) (s : State) : List (Fin 16) :=
  match i with
  | .nop => []
  | .add a0 a1 => (slotReg a0).toList ++ (slotReg a1).toList
  | .sub a0 a1 => (slotReg a0).toList ++ (slotReg a1).toList
  | .mul a0 a1 => (slotReg a0).toList ++ (slotReg a1).toList
  | .div a0 a1 => (slotReg a0).toList ++ (slotReg a1).toList
  | .addi a0 _ => (slotReg a0).toList
  | .subi a0 _ => (slotReg a0).toList
  | .muli a0 _ => (slotReg a0).toList
  | .divi a0 _ => (slotReg a0).toList
  | .mov _ a1 => (slotReg a1).toList
  | .movi _ _ => []
  | .load _ _ => []
  | .store a0 _ => (slotReg a0).toList
  | .beq a0 a1 _ => (slotReg a0).toList ++ (slotReg a1).toList
  | .bne a0 a1 _ => (slotReg a0).toList ++ (slotReg a1).toList
  | .blt a0 a1 _ => (slotReg a0).toList ++ (slotReg a1).toList
  | .bgt a0 a1 _ => (slotReg a0).toList ++ (slotReg a1).toList
  | .jmp _ => []
  | .jmpR a0 => (slotReg a0).toList
  | .halt => []
  | .syscall =>
    if s.present.io then
      Config.sysDescReg ::
        (if ((deviceAt (s.readReg Config.sysDescReg) s.devices).bind Device.tag).isSome then [Config.sysPtrReg]
         else [])
    else []

/-- The register an instruction writes as its destination, beside the program-counter update. -/
def destReg : Instr → Option (Fin 16)
  | .add a0 _ => slotReg a0
  | .sub a0 _ => slotReg a0
  | .mul a0 _ => slotReg a0
  | .div a0 _ => slotReg a0
  | .addi a0 _ => slotReg a0
  | .subi a0 _ => slotReg a0
  | .muli a0 _ => slotReg a0
  | .divi a0 _ => slotReg a0
  | .mov a0 _ => slotReg a0
  | .movi a0 _ => slotReg a0
  | .load a0 _ => slotReg a0
  | .nop => none
  | .store _ _ => none
  | .beq _ _ _ => none
  | .bne _ _ _ => none
  | .blt _ _ _ => none
  | .bgt _ _ _ => none
  | .jmp _ => none
  | .jmpR _ => none
  | .halt => none
  | .syscall => none

/-! ### The next instruction -/

/-- The word that the next fetch gets, none where the fetch faults. -/
def fetched (s : State) : Option Word :=
  if s.present.memRead then
    match s.readAnswer s.pc with
    | .word w => some w
    | .outOfBounds => none
    | .never => none
  else none

/-- The instruction the next step fetches, none where the fetch or the decoding faults. -/
def fetchedInstr (s : State) : Option Instr :=
  match fetched s with
  | some w => match decode w with
    | .instr i => some i
    | .unknownOpcode _ => none
  | none => none

/-! ### Tracked steps -/

/-- A state with the registers that the host or an instruction has written since construction
(10_state.md rule R36): none at construction (`hostConstruct`), and after that those that `trackedStep` and the host's
actions add (HostSide.lean). -/
structure Tracked where
  s : State
  written : List (Fin 16)
deriving DecidableEq, Repr

/-- The outcomes of a step of a tracked run: one of the model's, or the model-only fault UndefinedRegisterRead
(60_exceptions.md rule R249). -/
inductive TrackedOut where
  | next (t : Tracked)
  | fault (f : Fault)
  | refused (r : Refusal)
  | undefinedRegisterRead (r : Fin 16)
deriving DecidableEq, Repr

/-- The registers written after an instruction: its destination is, where the instruction has completed, so that the
core is Running and stands before a fetch. -/
def writtenAfter (dest : Option (Fin 16)) (written : List (Fin 16)) (s' : State) : List (Fin 16) :=
  if s'.runState = .running ∧ s'.phase = .fetch then dest.toList ++ written else written

/-- A step of the machine, with the destination of its instruction marked as written. -/
def trackedAfter (dest : Option (Fin 16)) (written : List (Fin 16)) (out : Out) : TrackedOut :=
  match out with
  | .next s' => .next { s := s', written := writtenAfter dest written s' }
  | .fault f => .fault f
  | .refused r => .refused r

/-- A step that reads no register before it is written, or UndefinedRegisterRead for the first it would read: the
program counter, then the sources of the instruction after its index checks (60_exceptions.md rules R236 and R249). -/
def trackedStep (t : Tracked) : TrackedOut :=
  if t.s.runState = .running then
    if t.s.cfg.pcIndex ∉ t.written then .undefinedRegisterRead t.s.cfg.pcIndex
    else if t.s.phase = .fetch then
      match fetchedInstr t.s with
      | none => trackedAfter none t.written (step t.s)
      | some i =>
        if WellFormed.check i then
          match (sourceRegs i t.s).find? (fun r => decide (r ∉ t.written)) with
          | some r => .undefinedRegisterRead r
          | none => trackedAfter (destReg i) t.written (step t.s)
        else trackedAfter none t.written (step t.s)
    else trackedAfter none t.written (step t.s)
  else trackedAfter none t.written (step t.s)

end Sys2Proof.Machine
end

