-- ==== Sys2Proof/Machine/HostSide.lean ====
section
/-! DEFINITION. What the host may do to the core (20_memory.md rule R81): construct it; while no call of run is in
progress write its registers and flag word, install, swap and remove its responders, and write or replace memory and
devices; then call run. Each is refused (`none`) where the spec does not define it (10_state.md rules R34 and R46,
93_implementation_defined.md U21 and U22). Reading needs no definition: the state is plain data. That a host does
nothing else is DESIGN CHOICE, log entry 14, unsafe. -/

namespace Sys2Proof.Machine

/-- One core at its host: the core's state, the registers written since construction (10_state.md rule R36), and whether
a call of run is in progress. -/
structure Session where
  t : Tracked
  inRun : Bool
deriving DecidableEq, Repr

/-- Construction from the host's numbers, refused for an invalid configuration (10_state.md rule R34,
70_reset_and_hazards.md rule R270). No register has been written (10_state.md rule R36). -/
def hostConstruct (pc sp capacity : Nat) (ov : ArithOverflow) (dz : Div0Class) (mem : Memory)
    (devices : List Binding) : Option Session :=
  match Config.ofIndices pc sp capacity ov dz with
  | some cfg =>
    if mem.wf && bindingsFrom 0 devices then
      some { t := { s := State.constructed cfg mem devices, written := [] }, inRun := false }
    else none
  | none => none

/-! ### Actions -/

/-- One action of the host on a core (20_memory.md rule R81, 10_state.md rules R35 and R46). To install a responder where
one stands is to swap it: each memory responder has its own answers, the IO responder the host's device map. -/
inductive HostAction where
  | writeReg (r : Fin 16) (v : Word)
  | writeFlags (f : FlagWord)
  | installMemRead (replies : Replies MemReadReply)
  | removeMemRead
  | installMemWrite (replies : Replies MemWriteReply)
  | removeMemWrite
  | installIo
  | removeIo
  | replaceMemory (m : Memory)
  | writeCell (a v : Word)
  | bindDevices (ds : List Binding)
deriving DecidableEq, Repr

/-- The part of the state that an action acts on. -/
inductive HostPart where
  | registers
  | flags
  | memReadResponder
  | memWriteResponder
  | ioResponder
  | memory
  | devices
deriving DecidableEq, Repr

/-- The part of the state that the action acts on. -/
def HostAction.part : HostAction → HostPart
  | .writeReg _ _ => .registers
  | .writeFlags _ => .flags
  | .installMemRead _ => .memReadResponder
  | .removeMemRead => .memReadResponder
  | .installMemWrite _ => .memWriteResponder
  | .removeMemWrite => .memWriteResponder
  | .installIo => .ioResponder
  | .removeIo => .ioResponder
  | .replaceMemory _ => .memory
  | .writeCell _ _ => .memory
  | .bindDevices _ => .devices

/-- What the action does to the state. It is refused for a memory or device map out of its canonical form (log entry 7),
and for writing a cell that does not exist. -/
def HostAction.onState (a : HostAction) (s : State) : Option State :=
  match a with
  | .writeReg r v => some (s.writeReg r v)
  | .writeFlags f => some { s with flags := f }
  | .installMemRead replies => some { s with present := { s.present with memRead := true }, reads := replies }
  | .removeMemRead => some { s with present := { s.present with memRead := false } }
  | .installMemWrite replies => some { s with present := { s.present with memWrite := true }, writes := replies }
  | .removeMemWrite => some { s with present := { s.present with memWrite := false } }
  | .installIo => some { s with present := { s.present with io := true } }
  | .removeIo => some { s with present := { s.present with io := false } }
  | .replaceMemory m => if m.wf then some { s with mem := m } else none
  | .writeCell a v => (s.mem.write a.toNat v).map fun m => { s with mem := m }
  | .bindDevices ds => if bindingsFrom 0 ds then some { s with devices := ds } else none

/-- The registers that the action writes (10_state.md rule R36). -/
def HostAction.registers : HostAction → List (Fin 16)
  | .writeReg r _ => [r]
  | .writeFlags _ => []
  | .installMemRead _ => []
  | .removeMemRead => []
  | .installMemWrite _ => []
  | .removeMemWrite => []
  | .installIo => []
  | .removeIo => []
  | .replaceMemory _ => []
  | .writeCell _ _ => []
  | .bindDevices _ => []

/-- The host acts on the core while no call of run is in progress and the core is not Fatal. DEDUCED (log entry 14): rule
R46 of 10_state.md forbids it "while the core is Running", and rule R273 of 70_reset_and_hazards.md lets the host set
`flags.Running` before it installs responders and writes memory and registers, all before it calls run; the model takes
"Running" in R46, as R39, R273 and decision D29 give it, to be a call of run in progress, not the flag alone. -/
def hostAct (a : HostAction) (h : Session) : Option Session :=
  if h.inRun || h.t.s.fatal then none
  else (a.onState h.t.s).map fun s => { h with t := { s := s, written := a.registers ++ h.t.written } }

/-- The host's actions in order. -/
def hostActs : List HostAction → Session → Option Session
  | [], h => some h
  | a :: rest, h => (hostAct a h).bind (hostActs rest)

/-! ### A call of run -/

/-- How a call of run stands after some steps (70_reset_and_hazards.md rule R275): it has returned Stopped with a final
state; it is Fatal, or has read a register that nothing has written (60_exceptions.md rule R249), both with no final
state; or it has not ended yet, and a run for which this holds of every number of steps never ends. -/
inductive RunEnd where
  | stopped (h : Session)
  | fatal (report : Report)
  | undefinedRegisterRead (r : Fin 16)
  | notYet (h : Session)
deriving DecidableEq, Repr

/-- A run followed for at most `n` steps: it returns at once where Running is clear (10_state.md rules R39 and R40). A
core that is Fatal on entry, or an instruction without a meaning, gives no final state: `none`. -/
def runFor : Nat → Tracked → Option RunEnd
  | n, t =>
    match t.s.runState with
    | .stopped => some (.stopped { t := t, inRun := false })
    | .fatal => none
    | .running =>
      match n with
      | 0 => some (.notYet { t := t, inRun := true })
      | n + 1 =>
        match trackedStep t with
        | .next t' => runFor n t'
        | .fault (.fatal r _) => some (.fatal r)
        | .fault .coreIsFatal => none
        | .refused _ => none
        | .undefinedRegisterRead r => some (.undefinedRegisterRead r)

/-- The host calls run, which no host does during a run (10_state.md rule R46). -/
def hostRun (n : Nat) (h : Session) : Option RunEnd := if h.inRun then none else runFor n h.t

end Sys2Proof.Machine
end

