-- ==== Sys2Proof/Safety.lean ====
section
/-! DEFINITION. The terms of the claims: what an instruction leaves unchanged, how it stops, the invariant of the
machine, the strings of a Syscall, and what it means that a tracked step (Machine/Tracked.lean) does not depend on a
register that nothing has written (60_exceptions.md rule R249). -/

namespace Sys2Proof.Safety

open Sys2Proof.Machine

/-! ### Frames -/

/-- How many requests on the memory port the events hold. -/
def memRequests (p : MemPort) : List Event → Nat
  | [] => 0
  | e :: rest => e.requestsOn p + memRequests p rest

/-- From `s` to `t`, apart from the registers `regs` and the cells `cells`, nothing of the state changes, but that the
devices are `devices`, the events `events`, newest first, are added to the trace, and the memory responders have given
the answers to the requests among them. -/
structure Frame (regs : List (Fin 16)) (cells : List Nat) (devices : List Binding) (events : List Event)
    (s t : State) : Prop where
  regs : ∀ r, r ∉ regs → t.readReg r = s.readReg r
  flags : t.flags = s.flags
  stack : t.stack = s.stack
  cfg : t.cfg = s.cfg
  present : t.present = s.present
  fatal : t.fatal = s.fatal
  phase : t.phase = s.phase
  mem : ∀ a, a ∉ cells → t.mem.read a = s.mem.read a
  reads : t.reads = s.reads.after (memRequests .read events)
  writes : t.writes = s.writes.after (memRequests .write events)
  devices : t.devices = devices
  trace : t.trace = events ++ s.trace

/-- From `s` to `t` the core has stopped with the recoverable fault `r` (60_exceptions.md rule R232): Running is 0 and no
other flag has changed, no register and no cell has changed, and the report is the newest event, after `events`, whose
requests the memory responders have answered. -/
structure StopsWith (r : Report) (devices : List Binding) (events : List Event) (s t : State) : Prop where
  regs : ∀ r, t.readReg r = s.readReg r
  running : t.flags.getLsbD 0 = false
  flags : ∀ k, k ≠ 0 → t.flags.getLsbD k = s.flags.getLsbD k
  stack : t.stack = s.stack
  cfg : t.cfg = s.cfg
  present : t.present = s.present
  fatal : t.fatal = s.fatal
  phase : t.phase = .fetch
  mem : ∀ a, t.mem.read a = s.mem.read a
  reads : t.reads = s.reads.after (memRequests .read events)
  writes : t.writes = s.writes.after (memRequests .write events)
  devices : t.devices = devices
  trace : t.trace = .report r :: (events ++ s.trace)

/-- The instruction ends in a Fatal-class fault (60_exceptions.md rule R233): a fault outcome with the report, in which
`fatal` is 1 and the report is the newest event. -/
def EndsFatal (r : Report) (s : State) (out : Out) : Prop :=
  ∃ t, out = .fault (.fatal r t) ∧ t.fatal = true ∧ t.trace = .report r :: s.trace

/-- From `s` to `t` the register `d` takes `v`, and then the program counter takes 1 more than it holds
(10_state.md rules R41 and R42); nothing else changes but the events. -/
def WritesReg (d : Fin 16) (v : Word) (events : List Event) (s t : State) : Prop :=
  (d ≠ s.cfg.pcIndex → t.readReg d = v ∧ t.pc = s.pc + 1) ∧
  (d = s.cfg.pcIndex → t.pc = v + 1) ∧
  Frame [d, s.cfg.pcIndex] [] s.devices events s t

/-- From `s` to `t` the program counter takes `v`; nothing else changes. -/
def WritesPc (v : Word) (s t : State) : Prop :=
  t.pc = v ∧ Frame [s.cfg.pcIndex] [] s.devices [] s t

/-- An outcome with a change made to its next state. The terminal state of a Fatal fault, of which the spec defines
nothing (10_state.md rule R37), is forgotten: the reset state stands in its place. -/
def mapOut (f : State → State) : Out → Out
  | .next t => .next (f t)
  | .fault (.fatal r _) => .fault (.fatal r State.reset)
  | .fault .coreIsFatal => .fault .coreIsFatal
  | .refused r => .refused r

/-- The state with the flag word's bits of `g` inverted. -/
def flipFlags (g : FlagWord) (s : State) : State := { s with flags := s.flags ^^^ g }

/-- An instruction with one register slot, slot 0, is Fatal for the values 16 to 65535 (10_state.md rule R22). -/
def ChecksSlot0 (mk : Slot → Instr) : Prop :=
  ∀ (a0 : Slot) (s : State), 16 ≤ a0.toNat →
    EndsFatal (.registerIndexOutOfRange 0 a0 s.pc) s (exec (mk a0) s)

/-- An instruction with two register slots is Fatal for the values 16 to 65535, slot 0 first
(10_state.md rule R22). -/
def ChecksSlots01 (mk : Slot → Slot → Instr) : Prop :=
  ∀ (a0 a1 : Slot) (s : State),
    (16 ≤ a0.toNat → EndsFatal (.registerIndexOutOfRange 0 a0 s.pc) s (exec (mk a0 a1) s)) ∧
    (a0.toNat < 16 → 16 ≤ a1.toNat →
      EndsFatal (.registerIndexOutOfRange 1 a1 s.pc) s (exec (mk a0 a1) s))

/-- The faults of one cell of a Write traversal, the cell `a` for the device resolved as `d`, after the events `before` of
the same step (43_system.md rule R205). -/
def CellFaultsStop (d a : Word) (before : List Event) (s : State) (out : Out) : Prop :=
  (s.present.memRead = false →
    ∃ t, out = .next t ∧
      StopsWith (.memoryCallbackAbsent .read .syscallWrite a s.pc) s.devices before s t) ∧
  (s.present.memRead = true → s.readAnswer a = .outOfBounds →
    ∃ t, out = .next t ∧
      StopsWith (.memoryOutOfBounds .syscallWrite a s.pc) s.devices (.memRead a none :: before) s t) ∧
  (∀ c dev, s.present.memRead = true → s.readAnswer a = .word c → c.toNat % 256 ≠ 0 →
    deviceAt d s.devices = some dev → dev.answerWrite.1 = .fails →
    ∃ t, out = .next t ∧
      StopsWith (.ioWriteAccessError d (BitVec.ofNat 8 c.toNat) a s.pc)
        (setDevice d dev.answerWrite.2 s.devices)
        (.devWrite d (BitVec.ofNat 8 c.toNat) .fails :: .memRead a (some c) :: before) s t)

/-- The same of the requests of the cell that are never answered (20_memory.md rule R78). -/
def CellUnanswered (d a : Word) (before : List Event) (s : State) (out : Out) : Prop :=
  (s.present.memRead = true → s.readAnswer a = .never →
    out = .next { s with phase := .waiting, reads := s.reads.after 1
                         trace := .memReadUnanswered a :: (before ++ s.trace) }) ∧
  (∀ c dev, s.present.memRead = true → s.readAnswer a = .word c → c.toNat % 256 ≠ 0 →
    deviceAt d s.devices = some dev → dev.answerWrite.1 = .never →
    out = .next { s with
      phase := .waiting, reads := s.reads.after 1, devices := setDevice d dev.answerWrite.2 s.devices
      trace := .devWrite d (BitVec.ofNat 8 c.toNat) .never :: .memRead a (some c) :: (before ++ s.trace) })

/-! ### The invariant -/

/-- The canonical form of the host's memory and device map, the fixed length of the stack, a valid configuration, and
that a core which is not Running is not inside an instruction. -/
structure Inv (s : State) : Prop where
  mem : s.mem.wf = true
  devices : bindingsFrom 0 s.devices = true
  stack : s.stack.length = s.cfg.stackCapacity
  cfg : s.cfg.valid = true
  phase : s.runState ≠ .running → s.phase = .fetch

/-! ### Faults -/

/-- The kinds of the recoverable class, in the class that the configuration gives divide-by-zero
(60_exceptions.md rule R231). -/
def recoverable (c : Config) : Report → Bool
  | .memoryOutOfBounds _ _ _ => true
  | .ioFunctionDoesntExist _ _ => true
  | .ioReadAccessError _ _ => true
  | .ioWriteAccessError _ _ _ _ => true
  | .memoryCallbackAbsent _ _ _ _ => true
  | .divideByZero _ _ => c.div0Class == .stop
  | .unknownOpcode _ _ => false
  | .registerIndexOutOfRange _ _ _ => false
  | .arithmeticOverflow _ _ => false
  | .ioCallbackAbsent _ => false

/-- The kinds of the Fatal class (60_exceptions.md rule R231). -/
def fatalClass (c : Config) : Report → Bool
  | .unknownOpcode _ _ => true
  | .registerIndexOutOfRange _ _ _ => true
  | .divideByZero _ _ => c.div0Class == .fatal
  | .arithmeticOverflow _ _ => c.arithOverflow == .fatal
  | .memoryOutOfBounds _ _ _ => false
  | .ioFunctionDoesntExist _ _ => false
  | .ioReadAccessError _ _ => false
  | .ioWriteAccessError _ _ _ _ => false
  | .memoryCallbackAbsent _ _ _ _ => false
  | .ioCallbackAbsent _ => false

/-! ### Strings of a Syscall -/

/-- Read from the address `p` on, one cell after another, the memory read responder answers the words `cs`, each with a
byte in bits 7:0 that is not zero, and then the word `z`, with a zero byte (43_system.md rule R205). -/
def AnswersString (r : Replies MemReadReply) (m : Memory) (z p : Word) : List Word → Prop
  | [] => r.head.answer m p.toNat = .word z ∧ lowByte z = 0
  | c :: cs => r.head.answer m p.toNat = .word c ∧ lowByte c ≠ 0 ∧ AnswersString (r.after 1) m z (p + 1) cs

/-- The requests of a Write traversal over the words `cs` and the last word `z` from the address `p` on, newest first:
each cell is read and its byte written to the device, the last cell is only read (43_system.md rule R205). -/
def stringEvents (d z p : Word) : List Word → List Event
  | [] => [.memRead p (some z)]
  | c :: cs => stringEvents d z (p + 1) cs ++ [.devWrite d (lowByte c) .accepts, .memRead p (some c)]

/-- The device after `n` write requests. -/
def afterWrites : Nat → Device → Device
  | 0, dev => dev
  | n + 1, dev => afterWrites n dev.answerWrite.2

/-- The next `n` write requests to the device are accepted. -/
def AcceptsNext : Nat → Device → Prop
  | 0, dev => dev.tag = some .write
  | n + 1, dev => dev.answerWrite.1 = .accepts ∧ AcceptsNext n dev.answerWrite.2

/-- The bytes that the Write device of `d` has accepted, oldest first, in a trace that has its newest event first. -/
def accepted (d : Word) : List Event → List Byte
  | [] => []
  | .devWrite d' b .accepts :: rest => if d' = d then accepted d rest ++ [b] else accepted d rest
  | .devWrite _ _ .fails :: rest => accepted d rest
  | .devWrite _ _ .never :: rest => accepted d rest
  | .memRead _ _ :: rest => accepted d rest
  | .memWrite _ _ _ :: rest => accepted d rest
  | .ioResolve _ _ :: rest => accepted d rest
  | .memReadUnanswered _ :: rest => accepted d rest
  | .memWriteUnanswered _ _ :: rest => accepted d rest
  | .ioUnanswered _ :: rest => accepted d rest
  | .devRead _ _ :: rest => accepted d rest
  | .report _ :: rest => accepted d rest

/-! ### Tracked steps -/

/-- The state after `k` tracked steps, none where one of them answers no next state. -/
def trackedRun : Nat → Tracked → Option Tracked
  | 0, t => some t
  | k + 1, t =>
    match trackedStep t with
    | .next t' => trackedRun k t'
    | .fault _ => none
    | .refused _ => none
    | .undefinedRegisterRead _ => none

/-- Two tracked steps did the same, although the register `r`, unwritten before them, held `v` in the second: they end in
the same fault, or in next states that are equal where `r` is written now, and equal but for `v` in `r` where it is
not. -/
inductive AgreesBut (r : Fin 16) (v : Word) : TrackedOut → TrackedOut → Prop
  | written (s : State) (w : List (Fin 16)) (h : r ∈ w) :
      AgreesBut r v (.next { s := s, written := w }) (.next { s := s, written := w })
  | unwritten (s : State) (w : List (Fin 16)) (h : r ∉ w) :
      AgreesBut r v (.next { s := s, written := w }) (.next { s := s.writeReg r v, written := w })
  | undefinedRegisterRead (q : Fin 16) : AgreesBut r v (.undefinedRegisterRead q) (.undefinedRegisterRead q)
  | fatal (p : Report) (a b : State) : AgreesBut r v (.fault (.fatal p a)) (.fault (.fatal p b))
  | coreIsFatal : AgreesBut r v (.fault .coreIsFatal) (.fault .coreIsFatal)

end Sys2Proof.Safety
end

