-- ==== Sys2Proof/Certificates/Slice0/Obligations.lean ====
section
/-! DEFINITION. The statements for the provers, from the numbered rules of spec/. Each docstring names the rule. -/

open Sys2Proof Sys2Proof.Machine Sys2Proof.Safety

/-! ### Encoding -/

/-- 30_encoding.md rule R91: "So `word = op + a0 * 2^16 + a1 * 2^32 + a2 * 2^48`". Rests on the spec's decision D2. -/
def Obligations.EncodedWordIsTheSumOfItsFields : Prop :=
  ∀ f : Fields, (encodeFields f).toNat =
    f.op.toNat + f.a0.toNat * 2 ^ 16 + f.a1.toNat * 2 ^ 32 + f.a2.toNat * 2 ^ 48

/-- 30_encoding.md rule R93: the raw codec is a bijection, for every opcode value and every word. Rests on the
spec's decision D2. -/
def Obligations.RawDecodeAndEncodeAreInverse : Prop :=
  (∀ f : Fields, decodeFields (encodeFields f) = f) ∧ (∀ w : Word, encodeFields (decodeFields w) = w)

/-- 30_encoding.md rules R92 to R94: no operand bit of any instruction is dropped between encoder and decoder.
Rests on the spec's decisions D2 and D3. -/
def Obligations.DecodeOfEncodeIsTheInstruction : Prop :=
  ∀ i : Instr, decode (encode i) = .instr i

/-- 30_encoding.md rule R94, the opcode map row by row: the opcode's number, and which slot is which operand; what
stands in the slots an instruction does not use makes no difference. Rests on the spec's decisions D2 and D3. -/
def Obligations.DecodeReadsTheOpcodeMap : Prop :=
  ∀ a b c : Slot,
    decode (encodeFields ⟨0, a, b, c⟩) = .instr .nop ∧
    decode (encodeFields ⟨1, a, b, c⟩) = .instr (.add a b) ∧
    decode (encodeFields ⟨2, a, b, c⟩) = .instr (.sub a b) ∧
    decode (encodeFields ⟨3, a, b, c⟩) = .instr (.mul a b) ∧
    decode (encodeFields ⟨4, a, b, c⟩) = .instr (.div a b) ∧
    decode (encodeFields ⟨5, a, b, c⟩) = .instr (.addi a b) ∧
    decode (encodeFields ⟨6, a, b, c⟩) = .instr (.subi a b) ∧
    decode (encodeFields ⟨7, a, b, c⟩) = .instr (.muli a b) ∧
    decode (encodeFields ⟨8, a, b, c⟩) = .instr (.divi a b) ∧
    decode (encodeFields ⟨9, a, b, c⟩) = .instr (.mov a b) ∧
    decode (encodeFields ⟨10, a, b, c⟩) = .instr (.movi a b) ∧
    decode (encodeFields ⟨11, a, b, c⟩) = .instr (.load a b) ∧
    decode (encodeFields ⟨12, a, b, c⟩) = .instr (.store a b) ∧
    decode (encodeFields ⟨13, a, b, c⟩) = .instr (.beq a b c) ∧
    decode (encodeFields ⟨14, a, b, c⟩) = .instr (.bne a b c) ∧
    decode (encodeFields ⟨15, a, b, c⟩) = .instr (.blt a b c) ∧
    decode (encodeFields ⟨16, a, b, c⟩) = .instr (.bgt a b c) ∧
    decode (encodeFields ⟨17, a, b, c⟩) = .instr (.jmp a) ∧
    decode (encodeFields ⟨18, a, b, c⟩) = .instr (.jmpR a) ∧
    decode (encodeFields ⟨19, a, b, c⟩) = .instr .halt ∧
    decode (encodeFields ⟨20, a, b, c⟩) = .instr .syscall

/-- 95_test_vectors.md Parts 1 and 2: words the spec writes out, some for each family, and two that name no
instruction. Rests on the spec's decisions D2 and D3. -/
def Obligations.WordsOfTheSpecDecode : Prop :=
  decode 0x0000000000000000 = .instr .nop ∧
  decode 0x000000050005000A = .instr (.movi 5 5) ∧
  decode 0x0000000600050001 = .instr (.add 5 6) ∧
  decode 0x0000003F0005000B = .instr (.load 5 63) ∧
  decode 0x0000003F0005000C = .instr (.store 5 63) ∧
  decode 0x002800060005000D = .instr (.beq 5 6 40) ∧
  decode 0x00000000FFFF0011 = .instr (.jmp 65535) ∧
  decode 0x0000000000070012 = .instr (.jmpR 7) ∧
  decode 0x0000000000000013 = .instr .halt ∧
  decode 0x0000000000000014 = .instr .syscall ∧
  decode 0x0003000200010015 = .unknownOpcode 21 ∧
  decode 0xFFFFFFFFFFFFFFFF = .unknownOpcode 65535

/-! ### The cycle -/

/-- 10_state.md rule R41: where the core is Running and stands before a fetch, and the memory read responder is installed
and answers the fetch at the program counter with a word that decodes to an instruction, a step is exec of that
instruction; the step adds the fetch to the trace and nothing else. That the fetch stands in the trace, and that the
responder has one answer less left, is the model's own record (log entries 6 and 10). -/
def Obligations.StepRunsTheDecodedInstruction : Prop :=
  ∀ (s : State) (w : Word) (i : Instr),
    s.runState = .running → s.phase = .fetch → s.present.memRead = true →
    s.readAnswer s.pc = .word w → decode w = .instr i →
    step s = exec i (s.emit (.memRead s.pc (some w)))

/-- The placed word is what the next step runs: the model's own function withFetchWord (log entry 9) does for every
state what the host does before a run (70_reset_and_hazards.md rule R273). -/
def Obligations.StepRunsThePlacedWord : Prop :=
  ∀ (s : State) (n w : Nat) (i : Instr),
    s.mem.wf = true → decodeTableWord n w = some i →
    (s.withFetchWord n w).pc = s.pc ∧
    step (s.withFetchWord n w) =
      exec i ((s.withFetchWord n w).emit (.memRead s.pc (some (tableWord n w))))

/-- 30_encoding.md rule R95: an opcode value of 21 to 65535 raises UnknownOpcode, Fatal, whatever stands in the operand
slots and in the cells that follow. Rests on the spec's decisions D2 and D3 (the opcode field and its numbers) and D18
(`fatal`); the fetch in the trace and the fault outcome are the model's own (log entries 6 and 8). -/
def Obligations.UnknownOpcodeIsFatal : Prop :=
  ∀ (s : State) (w : Word),
    s.runState = .running → s.phase = .fetch → fetched s = some w → 21 ≤ w.toNat % 2 ^ 16 →
    EndsFatal (.unknownOpcode (BitVec.ofNat 16 w.toNat) s.pc) (s.emit (.memRead s.pc (some w))) (step s)

/-- 10_state.md rule R41, 20_memory.md rules R61 and R63: a fetch without a read responder issues no request and stops
the core; a fetch that is answered MemoryOutOfBounds stops it too. Rests on the spec's decisions D11 and D13. -/
def Obligations.FetchFaultsStopTheCore : Prop :=
  ∀ s : State, s.runState = .running → s.phase = .fetch →
    (s.present.memRead = false →
      ∃ t, step s = .next t ∧
        StopsWith (.memoryCallbackAbsent .read .fetch s.pc s.pc) s.devices [] s t) ∧
    (s.present.memRead = true → s.readAnswer s.pc = .outOfBounds →
      ∃ t, step s = .next t ∧
        StopsWith (.memoryOutOfBounds .fetch s.pc s.pc) s.devices [.memRead s.pc none] s t)

/-- 10_state.md rule R39: run does nothing if Running is clear on entry. That the step of a Stopped core answers the same
state is the model's own (DESIGN CHOICE, log entry 13). -/
def Obligations.StoppedCoreDoesNothing : Prop :=
  ∀ (s : State) (written : List (Fin 16)) (n : Nat), s.runState = .stopped →
    step s = .next s ∧
    hostRun n ⟨⟨s, written⟩, false⟩ = some (.stopped ⟨⟨s, written⟩, false⟩)

/-- 10_state.md rule R37: a Fatal core performs no cycle, and no step leads from a core that is not Fatal to a next
state that is. Rests on the spec's decision D18. -/
def Obligations.FatalIsTerminal : Prop :=
  (∀ s : State, s.fatal = true → step s = .fault .coreIsFatal) ∧
  (∀ s t : State, step s = .next t → s.fatal = false ∧ t.fatal = false)

/-- 20_memory.md rule R78, 60_exceptions.md rule R248: a core that waits for a port's answer stays as it is,
Running. The waiting phase is the model's own field (log entry 6). -/
def Obligations.WaitingCoreStaysRunning : Prop :=
  ∀ s : State, s.runState = .running → s.phase = .waiting → step s = .next s

/-! ### Arithmetic, moves, Nop -/

/-- 40_alu.md rule R123: no state change but the program counter's advance; what stands in the unused slots is ignored.
Rests on the spec's decisions D2, D3 and D15 (the word of Nop and its unused slots) and D10 (the wrap of the program
counter), log entry 16. -/
def Obligations.NopOnlyAdvancesThePc : Prop :=
  (∀ a b c : Slot, decode (encodeFields ⟨0, a, b, c⟩) = .instr .nop) ∧
  ∀ s : State, ∃ t, exec .nop s = .next t ∧ WritesPc (s.pc + 1) s t

/-- 40_alu.md rules R124 and R120, with both values of `ARITH_OVERFLOW`: for every two registers, the same one or the
program counter too, Add stores the exact sum modulo 2^64. Rests on the spec's decisions D4 and D6. -/
def Obligations.AddStoresTheSumModulo : Prop :=
  ChecksSlots01 .add ∧
  ∀ (a0 a1 : Slot) (d r : Fin 16) (s : State), a0.toNat = d.val → a1.toNat = r.val →
    (s.cfg.arithOverflow = .wrap ∨ (s.readReg d).toNat + (s.readReg r).toNat < 2 ^ 64 →
      ∃ t, exec (.add a0 a1) s = .next t ∧
        WritesReg d (BitVec.ofNat 64 (((s.readReg d).toNat + (s.readReg r).toNat) % 2 ^ 64)) [] s t) ∧
    (s.cfg.arithOverflow = .fatal → 2 ^ 64 ≤ (s.readReg d).toNat + (s.readReg r).toNat →
      EndsFatal (.arithmeticOverflow .add s.pc) s (exec (.add a0 a1) s))

/-- 40_alu.md rules R125 and R120: a negative difference stores 2^64 plus it. Rests on the spec's decisions D4 and
D6. -/
def Obligations.SubStoresTheDifferenceModulo : Prop :=
  ChecksSlots01 .sub ∧
  ∀ (a0 a1 : Slot) (d r : Fin 16) (s : State), a0.toNat = d.val → a1.toNat = r.val →
    ((s.readReg r).toNat ≤ (s.readReg d).toNat →
      ∃ t, exec (.sub a0 a1) s = .next t ∧
        WritesReg d (BitVec.ofNat 64 ((s.readReg d).toNat - (s.readReg r).toNat)) [] s t) ∧
    (s.cfg.arithOverflow = .wrap → (s.readReg d).toNat < (s.readReg r).toNat →
      ∃ t, exec (.sub a0 a1) s = .next t ∧
        WritesReg d (BitVec.ofNat 64 (2 ^ 64 + (s.readReg d).toNat - (s.readReg r).toNat)) [] s t) ∧
    (s.cfg.arithOverflow = .fatal → (s.readReg d).toNat < (s.readReg r).toNat →
      EndsFatal (.arithmeticOverflow .sub s.pc) s (exec (.sub a0 a1) s))

/-- 40_alu.md rules R126 and R120: the low 64 bits of the product. Rests on the spec's decisions D4 and D6. -/
def Obligations.MulStoresTheProductModulo : Prop :=
  ChecksSlots01 .mul ∧
  ∀ (a0 a1 : Slot) (d r : Fin 16) (s : State), a0.toNat = d.val → a1.toNat = r.val →
    (s.cfg.arithOverflow = .wrap ∨ (s.readReg d).toNat * (s.readReg r).toNat < 2 ^ 64 →
      ∃ t, exec (.mul a0 a1) s = .next t ∧
        WritesReg d (BitVec.ofNat 64 (((s.readReg d).toNat * (s.readReg r).toNat) % 2 ^ 64)) [] s t) ∧
    (s.cfg.arithOverflow = .fatal → 2 ^ 64 ≤ (s.readReg d).toNat * (s.readReg r).toNat →
      EndsFatal (.arithmeticOverflow .mul s.pc) s (exec (.mul a0 a1) s))

/-- 40_alu.md rule R127, with both values of `DIV0_CLASS`: the unsigned quotient, and DivideByZero with no register
written; the index checks come before the divisor. Rests on the spec's decisions D5, D6 and D25. -/
def Obligations.DivStoresTheQuotient : Prop :=
  ChecksSlots01 .div ∧
  ∀ (a0 a1 : Slot) (d r : Fin 16) (s : State), a0.toNat = d.val → a1.toNat = r.val →
    (s.readReg r ≠ 0 →
      ∃ t, exec (.div a0 a1) s = .next t ∧
        WritesReg d (BitVec.ofNat 64 ((s.readReg d).toNat / (s.readReg r).toNat)) [] s t) ∧
    (s.readReg r = 0 → s.cfg.div0Class = .fatal →
      EndsFatal (.divideByZero .div s.pc) s (exec (.div a0 a1) s)) ∧
    (s.readReg r = 0 → s.cfg.div0Class = .stop →
      ∃ t, exec (.div a0 a1) s = .next t ∧ StopsWith (.divideByZero .div s.pc) s.devices [] s t)

/-- 40_alu.md rules R128 and R120: the immediate is the slot extended by zeros. Rests on the spec's decisions D4
and D6. -/
def Obligations.AddiStoresTheSumModulo : Prop :=
  (∀ imm, ChecksSlot0 (.addi · imm)) ∧
  ∀ (a0 imm : Slot) (d : Fin 16) (s : State), a0.toNat = d.val →
    (s.cfg.arithOverflow = .wrap ∨ (s.readReg d).toNat + imm.toNat < 2 ^ 64 →
      ∃ t, exec (.addi a0 imm) s = .next t ∧
        WritesReg d (BitVec.ofNat 64 (((s.readReg d).toNat + imm.toNat) % 2 ^ 64)) [] s t) ∧
    (s.cfg.arithOverflow = .fatal → 2 ^ 64 ≤ (s.readReg d).toNat + imm.toNat →
      EndsFatal (.arithmeticOverflow .addi s.pc) s (exec (.addi a0 imm) s))

/-- 40_alu.md rules R129 and R120. Rests on the spec's decisions D4 and D6. -/
def Obligations.SubiStoresTheDifferenceModulo : Prop :=
  (∀ imm, ChecksSlot0 (.subi · imm)) ∧
  ∀ (a0 imm : Slot) (d : Fin 16) (s : State), a0.toNat = d.val →
    (imm.toNat ≤ (s.readReg d).toNat →
      ∃ t, exec (.subi a0 imm) s = .next t ∧
        WritesReg d (BitVec.ofNat 64 ((s.readReg d).toNat - imm.toNat)) [] s t) ∧
    (s.cfg.arithOverflow = .wrap → (s.readReg d).toNat < imm.toNat →
      ∃ t, exec (.subi a0 imm) s = .next t ∧
        WritesReg d (BitVec.ofNat 64 (2 ^ 64 + (s.readReg d).toNat - imm.toNat)) [] s t) ∧
    (s.cfg.arithOverflow = .fatal → (s.readReg d).toNat < imm.toNat →
      EndsFatal (.arithmeticOverflow .subi s.pc) s (exec (.subi a0 imm) s))

/-- 40_alu.md rules R130 and R120. Rests on the spec's decisions D4 and D6. -/
def Obligations.MuliStoresTheProductModulo : Prop :=
  (∀ imm, ChecksSlot0 (.muli · imm)) ∧
  ∀ (a0 imm : Slot) (d : Fin 16) (s : State), a0.toNat = d.val →
    (s.cfg.arithOverflow = .wrap ∨ (s.readReg d).toNat * imm.toNat < 2 ^ 64 →
      ∃ t, exec (.muli a0 imm) s = .next t ∧
        WritesReg d (BitVec.ofNat 64 (((s.readReg d).toNat * imm.toNat) % 2 ^ 64)) [] s t) ∧
    (s.cfg.arithOverflow = .fatal → 2 ^ 64 ≤ (s.readReg d).toNat * imm.toNat →
      EndsFatal (.arithmeticOverflow .muli s.pc) s (exec (.muli a0 imm) s))

/-- 40_alu.md rule R131: the register index is checked before the divisor. Rests on the spec's decisions D5, D6 and
D25. -/
def Obligations.DiviStoresTheQuotient : Prop :=
  (∀ imm, ChecksSlot0 (.divi · imm)) ∧
  ∀ (a0 imm : Slot) (d : Fin 16) (s : State), a0.toNat = d.val →
    (imm ≠ 0 →
      ∃ t, exec (.divi a0 imm) s = .next t ∧
        WritesReg d (BitVec.ofNat 64 ((s.readReg d).toNat / imm.toNat)) [] s t) ∧
    (imm = 0 → s.cfg.div0Class = .fatal →
      EndsFatal (.divideByZero .divi s.pc) s (exec (.divi a0 imm) s)) ∧
    (imm = 0 → s.cfg.div0Class = .stop →
      ∃ t, exec (.divi a0 imm) s = .next t ∧ StopsWith (.divideByZero .divi s.pc) s.devices [] s t)

/-- 40_alu.md rule R132: with the program counter as the source, the Mov's own address. Rests on the spec's
decisions D6 and D9. -/
def Obligations.MovCopiesARegister : Prop :=
  ChecksSlots01 .mov ∧
  ∀ (a0 a1 : Slot) (d r : Fin 16) (s : State), a0.toNat = d.val → a1.toNat = r.val →
    ∃ t, exec (.mov a0 a1) s = .next t ∧ WritesReg d (s.readReg r) [] s t

/-- 40_alu.md rule R133: the upper 48 bits become 0. Rests on the spec's decisions D6 and D9. -/
def Obligations.MoviStoresTheImmediate : Prop :=
  (∀ imm, ChecksSlot0 (.movi · imm)) ∧
  ∀ (a0 imm : Slot) (d : Fin 16) (s : State), a0.toNat = d.val →
    ∃ t, exec (.movi a0 imm) s = .next t ∧ WritesReg d (BitVec.ofNat 64 imm.toNat) [] s t

/-! ### Load and Store -/

/-- 41_load_store.md rule R161: the whole cell at the literal address, extended by zeros, or a stop with no register
written; the index check comes before the access. The last two clauses say what a memory read responder that answers as
its cells say, the reference memory of 20_memory.md rule R79, answers. Rests on the spec's decisions D6, D11 and D13;
responders as scripts are the model's own (log entry 10). -/
def Obligations.LoadReadsOneCell : Prop :=
  (∀ addr, ChecksSlot0 (.load · addr)) ∧
  ∀ (a0 addr : Slot) (p : Word) (d : Fin 16) (s : State), a0.toNat = d.val → p.toNat = addr.toNat →
    (∀ v, s.present.memRead = true → s.readAnswer p = .word v →
      ∃ t, exec (.load a0 addr) s = .next t ∧ WritesReg d v [.memRead p (some v)] s t) ∧
    (s.present.memRead = false →
      ∃ t, exec (.load a0 addr) s = .next t ∧
        StopsWith (.memoryCallbackAbsent .read .load p s.pc) s.devices [] s t) ∧
    (s.present.memRead = true → s.readAnswer p = .outOfBounds →
      ∃ t, exec (.load a0 addr) s = .next t ∧
        StopsWith (.memoryOutOfBounds .load p s.pc) s.devices [.memRead p none] s t) ∧
    (∀ v, s.reads.head = .asCells → s.mem.read addr.toNat = some v → s.readAnswer p = .word v) ∧
    (s.reads.head = .asCells → s.mem.read addr.toNat = none → s.mem.blocks addr.toNat = false →
      s.readAnswer p = .outOfBounds)

/-- 41_load_store.md rule R162: with the answer Ok the cell at the literal address, extended by zeros, takes the
register's value, where the host has a cell there, and no other cell changes; else a stop with no cell changed; the index
check comes before the access. The last two clauses say what a memory write responder that answers as its cells say, the
reference memory of 20_memory.md rule R79, answers. Rests on the spec's decisions D6, D11 and D13; responders as scripts,
and that a write answered MemoryOutOfBounds changes no cell, are the model's own (log entry 10). -/
def Obligations.StoreWritesOneCell : Prop :=
  (∀ addr, ChecksSlot0 (.store · addr)) ∧
  ∀ (a0 addr : Slot) (p : Word) (r : Fin 16) (s : State), a0.toNat = r.val → p.toNat = addr.toNat →
    (s.present.memWrite = true → s.writeAnswer p = .ok →
      ∃ t, exec (.store a0 addr) s = .next t ∧ t.pc = s.pc + 1 ∧
        (∀ v, s.mem.wf = true → s.mem.read addr.toNat = some v → t.mem.read addr.toNat = some (s.readReg r)) ∧
        (s.mem.read addr.toNat = none → t.mem.read addr.toNat = none) ∧
        Frame [s.cfg.pcIndex] [addr.toNat] s.devices [.memWrite p (s.readReg r) true] s t) ∧
    (s.present.memWrite = false →
      ∃ t, exec (.store a0 addr) s = .next t ∧
        StopsWith (.memoryCallbackAbsent .write .store p s.pc) s.devices [] s t) ∧
    (s.present.memWrite = true → s.writeAnswer p = .outOfBounds →
      ∃ t, exec (.store a0 addr) s = .next t ∧
        StopsWith (.memoryOutOfBounds .store p s.pc) s.devices [.memWrite p (s.readReg r) false] s t) ∧
    (∀ v, s.writes.head = .asCells → s.mem.read addr.toNat = some v → s.writeAnswer p = .ok) ∧
    (s.writes.head = .asCells → s.mem.read addr.toNat = none → s.mem.blocks addr.toNat = false →
      s.writeAnswer p = .outOfBounds)

/-- 20_memory.md rule R76, 70_reset_and_hazards.md rule R278: where the memory responders answer as their cells say, the
reference memory of rule R79, the word a Store puts into the next instruction's cell is what the next step fetches. The
spec marks R76 and R278 as derived; responders as scripts are log entry 10. -/
def Obligations.StoredWordIsFetchedNext : Prop :=
  ∀ (s : State) (a0 addr : Slot) (r : Fin 16), s.mem.wf = true →
    s.runState = .running → s.phase = .fetch → fetchedInstr s = some (.store a0 addr) →
    a0.toNat = r.val → s.present.memWrite = true → (∃ v, s.mem.read addr.toNat = some v) →
    s.writes.head = .asCells → (s.reads.after 1).head = .asCells →
    s.pc + 1 = BitVec.ofNat 64 addr.toNat →
    ∃ t, step s = .next t ∧ t.runState = .running ∧ t.phase = .fetch ∧ fetched t = some (s.readReg r)

/-! ### Branches and jumps -/

/-- 42_control.md rule R181. Rests on the spec's decisions D6 and D8. -/
def Obligations.BeqBranchesOnEqual : Prop :=
  (∀ addr, ChecksSlots01 (.beq · · addr)) ∧
  ∀ (a0 a1 addr : Slot) (l r : Fin 16) (s : State), a0.toNat = l.val → a1.toNat = r.val →
    ∃ t, exec (.beq a0 a1 addr) s = .next t ∧
      (s.readReg l = s.readReg r → WritesPc (BitVec.ofNat 64 addr.toNat) s t) ∧
      (s.readReg l ≠ s.readReg r → WritesPc (s.pc + 1) s t)

/-- 42_control.md rule R182. Rests on the spec's decisions D6 and D8. -/
def Obligations.BneBranchesOnDifferent : Prop :=
  (∀ addr, ChecksSlots01 (.bne · · addr)) ∧
  ∀ (a0 a1 addr : Slot) (l r : Fin 16) (s : State), a0.toNat = l.val → a1.toNat = r.val →
    ∃ t, exec (.bne a0 a1 addr) s = .next t ∧
      (s.readReg l ≠ s.readReg r → WritesPc (BitVec.ofNat 64 addr.toNat) s t) ∧
      (s.readReg l = s.readReg r → WritesPc (s.pc + 1) s t)

/-- 42_control.md rules R183 and R180: unsigned, `x[a0]` on the left. Rests on the spec's decisions D6 and D8. -/
def Obligations.BltBranchesOnLess : Prop :=
  (∀ addr, ChecksSlots01 (.blt · · addr)) ∧
  ∀ (a0 a1 addr : Slot) (l r : Fin 16) (s : State), a0.toNat = l.val → a1.toNat = r.val →
    ∃ t, exec (.blt a0 a1 addr) s = .next t ∧
      ((s.readReg l).toNat < (s.readReg r).toNat → WritesPc (BitVec.ofNat 64 addr.toNat) s t) ∧
      ((s.readReg r).toNat ≤ (s.readReg l).toNat → WritesPc (s.pc + 1) s t)

/-- 42_control.md rules R184 and R180: unsigned, `x[a0]` on the left. Rests on the spec's decisions D6 and D8. -/
def Obligations.BgtBranchesOnGreater : Prop :=
  (∀ addr, ChecksSlots01 (.bgt · · addr)) ∧
  ∀ (a0 a1 addr : Slot) (l r : Fin 16) (s : State), a0.toNat = l.val → a1.toNat = r.val →
    ∃ t, exec (.bgt a0 a1 addr) s = .next t ∧
      ((s.readReg r).toNat < (s.readReg l).toNat → WritesPc (BitVec.ofNat 64 addr.toNat) s t) ∧
      ((s.readReg l).toNat ≤ (s.readReg r).toNat → WritesPc (s.pc + 1) s t)

/-- 42_control.md rule R185: an absolute target, the slot extended by zeros. -/
def Obligations.JmpGoesToTheLiteral : Prop :=
  ∀ (addr : Slot) (s : State), ∃ t, exec (.jmp addr) s = .next t ∧ WritesPc (BitVec.ofNat 64 addr.toNat) s t

/-- 42_control.md rule R186: the full 64-bit value of the register; for the program counter itself, the same address
again. Rests on the spec's decision D6 (the index check), log entry 16. -/
def Obligations.JmpRGoesToTheRegister : Prop :=
  ChecksSlot0 .jmpR ∧
  ∀ (a0 : Slot) (r : Fin 16) (s : State), a0.toNat = r.val →
    ∃ t, exec (.jmpR a0) s = .next t ∧ WritesPc (s.readReg r) s t

/-! ### Halt and Syscall -/

/-- 43_system.md rule R200: Running is cleared, the other 15 flags, the program counter and all else stay, and nothing
is reported. -/
def Obligations.HaltClearsRunningOnly : Prop :=
  ∀ s : State, ∃ t, exec .halt s = .next t ∧
    t.flags.getLsbD 0 = false ∧ (∀ k, k ≠ 0 → t.flags.getLsbD k = s.flags.getLsbD k) ∧
    t = { s with flags := t.flags } ∧ t.runState ≠ .running

/-- 43_system.md rule R203, 20_memory.md rule R66: without an IO responder a Syscall reports IoCallbackAbsent, makes no
request and goes on; it reads neither `x[3]` nor `x[4]`. -/
def Obligations.SyscallWithoutIoOnlyReports : Prop :=
  ∀ s : State, s.present.io = false →
    ∃ t, exec .syscall s = .next t ∧ t.pc = s.pc + 1 ∧
      Frame [s.cfg.pcIndex] [] s.devices [.report (.ioCallbackAbsent s.pc)] s t

/-- 43_system.md rule R203: an unbound descriptor stops the core before any device or memory access; the descriptor is
the full value of `x[3]`. Rests on the spec's decisions D11 and D31. -/
def Obligations.SyscallOnUnboundDescriptorStops : Prop :=
  ∀ s : State, s.present.io = true → deviceAt (s.readReg 3) s.devices = none →
    ∃ t, exec .syscall s = .next t ∧
      StopsWith (.ioFunctionDoesntExist (s.readReg 3) s.pc) s.devices [.ioResolve (s.readReg 3) none] s t

/-- 43_system.md rule R204: one byte, taken from the Read device of `x[3]`, lands extended by zeros in the cell of
`x[4]`, where the write is answered Ok and the host has a cell there; no register but the program counter and no other
cell changes. Rests on the spec's decisions D14 and D24; responders as scripts are the model's own (log entry 10). -/
def Obligations.SyscallReadLandsOneByte : Prop :=
  ∀ (s : State) (dev : Device) (b : Byte),
    s.present.io = true → deviceAt (s.readReg 3) s.devices = some dev → dev.tag = some .read →
    dev.answerRead.1 = .byte b → s.present.memWrite = true → s.phase = .fetch →
    s.writeAnswer (s.readReg 4) = .ok →
    ∃ t, exec .syscall s = .next t ∧ t.pc = s.pc + 1 ∧
      (∀ v, s.mem.wf = true → s.mem.read (s.readReg 4).toNat = some v →
        t.mem.read (s.readReg 4).toNat = some (BitVec.ofNat 64 b.toNat)) ∧
      (s.mem.read (s.readReg 4).toNat = none → t.mem.read (s.readReg 4).toNat = none) ∧
      Frame [s.cfg.pcIndex] [(s.readReg 4).toNat] (setDevice (s.readReg 3) dev.answerRead.2 s.devices)
        [.memWrite (s.readReg 4) (BitVec.ofNat 64 b.toNat) true, .devRead (s.readReg 3) (.byte b),
         .ioResolve (s.readReg 3) (some .read)] s t

/-- 43_system.md rules R204 and R206: a failing Read device stops the core with no memory write; after a byte was taken,
a missing write responder or the answer MemoryOutOfBounds stops it, and the byte is lost. Rests on the spec's decisions D11, D13
and D24; that a write answered MemoryOutOfBounds changes no cell is the model's choice (log entry 10). -/
def Obligations.SyscallReadFaultsStop : Prop :=
  ∀ (s : State) (dev : Device),
    s.present.io = true → deviceAt (s.readReg 3) s.devices = some dev → dev.tag = some .read →
    (dev.answerRead.1 = .fails →
      ∃ t, exec .syscall s = .next t ∧
        StopsWith (.ioReadAccessError (s.readReg 3) s.pc)
          (setDevice (s.readReg 3) dev.answerRead.2 s.devices)
          [.devRead (s.readReg 3) .fails, .ioResolve (s.readReg 3) (some .read)] s t) ∧
    (∀ b, dev.answerRead.1 = .byte b → s.present.memWrite = false →
      ∃ t, exec .syscall s = .next t ∧
        StopsWith (.memoryCallbackAbsent .write .syscallRead (s.readReg 4) s.pc)
          (setDevice (s.readReg 3) dev.answerRead.2 s.devices)
          [.devRead (s.readReg 3) (.byte b), .ioResolve (s.readReg 3) (some .read)] s t) ∧
    (∀ b, dev.answerRead.1 = .byte b → s.present.memWrite = true → s.writeAnswer (s.readReg 4) = .outOfBounds →
      ∃ t, exec .syscall s = .next t ∧
        StopsWith (.memoryOutOfBounds .syscallRead (s.readReg 4) s.pc)
          (setDevice (s.readReg 3) dev.answerRead.2 s.devices)
          [.memWrite (s.readReg 4) (BitVec.ofNat 64 b.toNat) false, .devRead (s.readReg 3) (.byte b),
           .ioResolve (s.readReg 3) (some .read)] s t)

/-- 43_system.md rule R205: from a Running core a Syscall on a Write device that accepts emits exactly the string at
`x[4]`, in order, without its zero byte: each cell is read and its byte written, the zero's cell is only read. The device
has moved on by one answer a byte, the program counter has advanced, and nothing else has changed. The Syscall's own step
does the first cell, each of the next steps one more (decision D27). Rests on the spec's decisions D14, D27 and D33; the
trace and devices and responders as scripts are the model's own (log entries 6, 10 and 11). -/
def Obligations.SyscallWriteEmitsExactlyTheString : Prop :=
  ∀ (s : State) (dev : Device) (z : Word) (cs : List Word),
    s.runState = .running → s.present.io = true → s.present.memRead = true → s.phase = .fetch →
    deviceAt (s.readReg 3) s.devices = some dev → AcceptsNext cs.length dev →
    AnswersString s.reads s.mem z (s.readReg 4) cs →
    ∃ u t, exec .syscall s = .next u ∧ Host.Core.run Sys2Proof.core cs.length u = .next t ∧
      t.pc = s.pc + 1 ∧ t.runState = .running ∧
      accepted (s.readReg 3) t.trace =
        accepted (s.readReg 3) s.trace ++ cs.map (fun c => BitVec.ofNat 8 c.toNat) ∧
      memRequests .read t.trace = memRequests .read s.trace + cs.length + 1 ∧
      Frame [s.cfg.pcIndex] [] (setDevice (s.readReg 3) (afterWrites cs.length dev) s.devices)
        (stringEvents (s.readReg 3) z (s.readReg 4) cs ++ [.ioResolve (s.readReg 3) (some .write)]) s t

/-- 43_system.md rules R205 and R206, 60_exceptions.md rule R236: one cell of the Write traversal stops the core where
the read responder is missing, answers MemoryOutOfBounds, or the device fails; what was emitted before stays. This is so
of a cell inside the traversal, and of the first cell, which the Syscall does in its own step after the resolve. Rests on
the spec's decisions D11, D13, D14 and D27. -/
def Obligations.TraversalFaultsStop : Prop :=
  (∀ (s : State) (d a : Word), s.runState = .running → s.phase = .traverse d a →
    CellFaultsStop d a [] s (step s)) ∧
  (∀ (s : State) (dev : Device), s.present.io = true → deviceAt (s.readReg 3) s.devices = some dev →
    dev.tag = some .write →
    CellFaultsStop (s.readReg 3) (s.readReg 4) [.ioResolve (s.readReg 3) (some .write)] s (exec .syscall s))

/-- 43_system.md rule R207: where every read of a Write traversal is answered with a word that has no zero byte, and the
device, whatever its script, accepts for ever, the traversal never completes. Rests on the spec's decisions D27 and
D33; devices and responders as scripts are the model's own (log entries 10 and 11). -/
def Obligations.EndlessTraversalNeverCompletes : Prop :=
  ∀ (s : State) (d a : Word) (dev : Device) (n : Nat),
    s.runState = .running → s.phase = .traverse d a → s.present.memRead = true →
    (∀ k, ∃ c, (s.reads.after k).head.answer s.mem (a + BitVec.ofNat 64 k).toNat = .word c ∧ c.toNat % 256 ≠ 0) →
    deviceAt d s.devices = some dev → (∀ k, AcceptsNext k dev) →
    ∃ t, Host.Core.run Sys2Proof.core n s = .next t ∧ t.runState = .running ∧
      t.phase = .traverse d (a + BitVec.ofNat 64 n) ∧ t.pc = s.pc

/-- 20_memory.md rule R78: a device that never answers leaves the core waiting in the middle of the Syscall, Running and
with the program counter at the Syscall, however many steps are taken. Devices as scripts, and the waiting phase,
are the model's own (log entries 6 and 11). -/
def Obligations.SyscallOnSilentDeviceNeverCompletes : Prop :=
  ∀ (s : State) (dev : Device) (n : Nat),
    s.runState = .running → s.present.io = true → deviceAt (s.readReg 3) s.devices = some dev →
    dev.tag = some .read → dev.answerRead.1 = .never →
    ∃ u, exec .syscall s = .next u ∧ u.phase = .waiting ∧ u.runState = .running ∧ u.pc = s.pc ∧
      u.mem = s.mem ∧ Host.Core.run Sys2Proof.core n u = .next u

/-- 20_memory.md rule R78: where the host never answers a fetch, a Load, a Store, the resolution of a descriptor, a read
or a device write of a traversal's cell (the first cell too), a device read, or the write that lands its byte, the core
waits in the middle of the instruction, Running, the request with all that the core has sent in it stands in the trace,
and what the instruction did before stands; the step of a waiting core
is WaitingCoreStaysRunning. Which requests go unanswered is data of the host (log entries 10 and 11), and the waiting
phase is the model's own (log entry 6). -/
def Obligations.UnansweredRequestsLeaveTheCoreWaiting : Prop :=
  (∀ s : State, s.runState = .running → s.phase = .fetch → s.present.memRead = true →
    s.readAnswer s.pc = .never →
    step s = .next { s with phase := .waiting, reads := s.reads.after 1
                            trace := .memReadUnanswered s.pc :: s.trace }) ∧
  (∀ (a0 addr : Slot) (p : Word) (r : Fin 16) (s : State), a0.toNat = r.val → p.toNat = addr.toNat →
    (s.present.memRead = true → s.readAnswer p = .never →
      exec (.load a0 addr) s = .next { s with phase := .waiting, reads := s.reads.after 1
                                              trace := .memReadUnanswered p :: s.trace }) ∧
    (s.present.memWrite = true → s.writeAnswer p = .never →
      exec (.store a0 addr) s = .next { s with phase := .waiting, writes := s.writes.after 1
                                               trace := .memWriteUnanswered p (s.readReg r) :: s.trace })) ∧
  (∀ (s : State) (d a : Word), s.runState = .running → s.phase = .traverse d a →
    CellUnanswered d a [] s (step s)) ∧
  (∀ (s : State) (dev : Device), s.present.io = true → deviceAt (s.readReg 3) s.devices = some dev →
    (dev.tag = none →
      exec .syscall s = .next { s with phase := .waiting, trace := .ioUnanswered (s.readReg 3) :: s.trace }) ∧
    (dev.tag = some .write →
      CellUnanswered (s.readReg 3) (s.readReg 4) [.ioResolve (s.readReg 3) (some .write)] s (exec .syscall s)) ∧
    (dev.tag = some .read → dev.answerRead.1 = .never →
      exec .syscall s = .next { s with
        phase := .waiting, devices := setDevice (s.readReg 3) dev.answerRead.2 s.devices
        trace := .devRead (s.readReg 3) .never :: .ioResolve (s.readReg 3) (some .read) :: s.trace }) ∧
    (∀ b, dev.tag = some .read → dev.answerRead.1 = .byte b → s.present.memWrite = true →
      s.writeAnswer (s.readReg 4) = .never →
      exec .syscall s = .next { s with
        phase := .waiting, writes := s.writes.after 1
        devices := setDevice (s.readReg 3) dev.answerRead.2 s.devices
        trace := .memWriteUnanswered (s.readReg 4) (BitVec.ofNat 64 b.toNat) :: .devRead (s.readReg 3) (.byte b) ::
          .ioResolve (s.readReg 3) (some .read) :: s.trace }))

/-! ### Rules about the whole machine -/

/-- 70_reset_and_hazards.md rule R270: the values the spec gives for construction, in every valid configuration and in
the default one. Rests on the spec's decision D18. -/
def Obligations.ConstructionGivesTheResetValues : Prop :=
  State.reset.cfg.pcIndex = 0 ∧ State.reset.cfg.spIndex = 1 ∧
  State.reset = State.constructed State.reset.cfg State.reset.mem State.reset.devices ∧
  ∀ (c : Config) (m : Memory) (ds : List Binding),
    (State.constructed c m ds).flags = 0 ∧ (State.constructed c m ds).fatal = false ∧
    (State.constructed c m ds).present = ⟨false, false, false⟩ ∧
    (State.constructed c m ds).runState = .stopped ∧ (State.constructed c m ds).cfg = c ∧
    (State.constructed c m ds).stack.length = c.stackCapacity

/-- 10_state.md rules R34 and R36: construction is refused unless both indices lie in 0..15 and differ; the constants are
those given, and no register has been written. That host memory and device map are canonical is the model's own condition
(log entry 7). Rests on the spec's decisions D7 and D21. -/
def Obligations.OnlyValidConfigurationsAreConstructed : Prop :=
  ∀ (pc sp cap : Nat) (ov : ArithOverflow) (dz : Div0Class) (m : Memory) (ds : List Binding),
    (¬ (pc < 16 ∧ sp < 16 ∧ pc ≠ sp) → hostConstruct pc sp cap ov dz m ds = none) ∧
    (pc < 16 ∧ sp < 16 ∧ pc ≠ sp → m.wf = true → bindingsFrom 0 ds = true →
      ∃ s, hostConstruct pc sp cap ov dz m ds = some ⟨⟨s, []⟩, false⟩ ∧ s.cfg.pcIndex.val = pc ∧
        s.cfg.spIndex.val = sp ∧ s.cfg.stackCapacity = cap ∧ s.cfg.arithOverflow = ov ∧ s.cfg.div0Class = dz ∧
        s = State.constructed s.cfg m ds ∧ Inv s)

/-- The invariant holds at reset. The canonical forms are the model's own (log entry 7). -/
def Obligations.ResetMeetsTheInvariant : Prop := Inv State.reset

/-- From every state that meets the invariant, a step that answers a next state answers one that meets it. The
canonical forms are the model's own (log entry 7). -/
def Obligations.StepKeepsTheInvariant : Prop :=
  ∀ s t : State, Inv s → step s = .next t → Inv t

/-- 10_state.md rules R33 to R35: no instruction changes a construction-time constant, a stack word or a presence bit.
Rests on the spec's decisions D21, D26 and D29. That no step changes which cells exist or are never answered, or which
descriptors resolve to which tag, is the model's choice: the host's cells and device map do not change on their own
during a run (DESIGN CHOICE, log entries 10 and 11). -/
def Obligations.StepKeepsTheFixedState : Prop :=
  ∀ s t : State, step s = .next t →
    t.cfg = s.cfg ∧ t.stack = s.stack ∧ t.present = s.present ∧
      (∀ a, (t.mem.read a).isSome = (s.mem.read a).isSome ∧ t.mem.blocks a = s.mem.blocks a) ∧
      (∀ d, (deviceAt d t.devices).map Device.tag = (deviceAt d s.devices).map Device.tag)

/-- 10_state.md rules R31 and R32, 60_exceptions.md rule R239: bits 15:1 of the flag word are never written, and never
read: with any of them inverted, a step does the same and leaves them inverted. Rests on the spec's decision D12 (the
positions, and bits 15:6, rule R32), log entry 16. -/
def Obligations.ReservedFlagsAreNeitherReadNorWritten : Prop :=
  (∀ (s t : State) (k : Nat), step s = .next t → k ≠ 0 → t.flags.getLsbD k = s.flags.getLsbD k) ∧
  (∀ (s : State) (g : FlagWord), g.getLsbD 0 = false →
    mapOut id (step (flipFlags g s)) = mapOut (flipFlags g) (step s))

/-- 10_state.md rules R30 and R38, 60_exceptions.md rule R232: no step sets Running; a step that clears it runs Halt, or
raises a recoverable fault, whose report is then the newest event, with no register, cell or other flag changed and the
program counter at the instruction. Rests on the spec's decisions D11 and D18; that a write answered
MemoryOutOfBounds changes no cell is the model's choice (log entry 10). -/
def Obligations.OnlyHaltAndRecoverableFaultsStop : Prop :=
  ∀ s t : State, step s = .next t →
    (t.runState = .running → s.runState = .running) ∧
    (s.runState = .running → t.runState ≠ .running →
      t.runState = .stopped ∧
      ((s.phase = .fetch ∧ fetchedInstr s = some .halt ∧ t.pc = s.pc) ∨
        ∃ r devices events, recoverable s.cfg r = true ∧ StopsWith r devices events s t))

/-- 60_exceptions.md rule R233: a step ends in a fault outcome only from a core already Fatal, or with a fault of the
Fatal class, whose report is then the newest event of a core with `fatal` set. Rests on the spec's decisions D5 and
D18. -/
def Obligations.FaultOutcomesAreOfTheFatalClass : Prop :=
  ∀ (s : State) (f : Fault), step s = .fault f →
    (s.fatal = true ∧ f = .coreIsFatal) ∨
    (s.runState = .running ∧
      ∃ r t, f = .fatal r t ∧ fatalClass s.cfg r = true ∧ t.fatal = true ∧ t.trace.head? = some (.report r))

/-- Every instruction has its meaning: no step is refused. -/
def Obligations.NoStepIsRefused : Prop :=
  ∀ (s : State) (r : Refusal), step s ≠ .refused r

/-- 10_state.md rule R23: an instruction writes no register but its destination and the program counter, and reads none
but its sources and the program counter: with any other value in another register it does the same, that register
aside. The spec marks rule R23 as derived from its opcode table. -/
def Obligations.OnlyNamedRegistersAreReadOrWritten : Prop :=
  ∀ (i : Instr) (s : State) (r : Fin 16), r ≠ s.cfg.pcIndex →
    (∀ t, destReg i ≠ some r → exec i s = .next t → t.readReg r = s.readReg r) ∧
    (∀ v, r ∉ sourceRegs i s →
      mapOut (State.writeReg r 0) (exec i (s.writeReg r v)) = mapOut (State.writeReg r 0) (exec i s))

/-- 20_memory.md rule R68: a step changes a cell only by a Store to it, or by a Syscall on a Read device that lands a
byte in it. That a write
answered MemoryOutOfBounds changes no cell, and no one else writes one, is the model's choice (log entry 10). -/
def Obligations.OnlyStoresChangeMemory : Prop :=
  ∀ (s t : State) (a : Nat), step s = .next t → t.mem.read a ≠ s.mem.read a →
    s.runState = .running ∧ s.phase = .fetch ∧
    ((∃ a0 addr, fetchedInstr s = some (.store a0 addr) ∧ a = addr.toNat) ∨
      (fetchedInstr s = some .syscall ∧ a = (s.readReg 4).toNat ∧ s.present.io = true ∧
        (deviceAt (s.readReg 3) s.devices).map Device.tag = some (some .read)))

/-- 60_exceptions.md rule R246, 20_memory.md rule R72: what has happened at the ports is never taken back, a step adds at
most five events, and each memory responder has given one answer to each request to it among them, no request being
retried. The trace and the responders' scripts are the model's own (log entries 6 and 10). The bound of five is the
model's too: 43_system.md rule R207 puts none on a Syscall's events, and it holds because a Write traversal takes one step
a cell (log entry 12, the spec's decision D27). -/
def Obligations.TraceOnlyGrows : Prop :=
  ∀ s t : State, step s = .next t → ∃ events, t.trace = events ++ s.trace ∧ events.length ≤ 5 ∧
    t.reads = s.reads.after (memRequests .read events) ∧ t.writes = s.writes.after (memRequests .write events)

/-- 60_exceptions.md rule R240, 43_system.md rule R200: after a recoverable stop, and after Halt, a host that changes
nothing but Running has the core before a fetch at the same program counter, with the same cell there, and so of the same
word where the memory read responder answers as its cells say. The spec marks rule R240 as derived; responders as
scripts are the model's own (log entry 10). -/
def Obligations.RestartRunsTheStoppedInstructionAgain : Prop :=
  ∀ (s t : State) (written : List (Fin 16)), step s = .next t → s.runState = .running → t.runState = .stopped →
    ∃ u, hostAct (.writeFlags (Flags.setRunning t.flags)) ⟨⟨t, written⟩, false⟩ = some ⟨⟨u, written⟩, false⟩ ∧
      u.runState = .running ∧ u.phase = .fetch ∧ u.pc = s.pc ∧
      u.mem.read s.pc.toNat = s.mem.read s.pc.toNat ∧
      (s.reads = ⟨[], .asCells⟩ → fetched u = fetched s)

/-- 10_state.md rules R35 and R46, 20_memory.md rule R81: the host's actions are refused during a call of run and of a
Fatal core, and else do exactly what they say, all other state staying as it is; a register that the host writes counts
as written (rule R36). That "while the core is Running" means a call of run, so that the host still acts on a core whose
flag Running it has set before it calls run, is the model's reading (DEDUCED, log entry 14); that memory and device map
are canonical is its own condition (log entry 7). Rests on the spec's decisions D7 and D29. -/
def Obligations.HostActsOnlyOutsideARun : Prop :=
  (∀ (a : HostAction) (h : Session), h.inRun = true ∨ h.t.s.fatal = true → hostAct a h = none) ∧
  (∀ (s : State) (w : List (Fin 16)), s.fatal = false →
    (∀ r v, hostAct (.writeReg r v) ⟨⟨s, w⟩, false⟩ = some ⟨⟨s.writeReg r v, r :: w⟩, false⟩ ∧
      (s.writeReg r v).readReg r = v ∧ ∀ q, q ≠ r → (s.writeReg r v).readReg q = s.readReg q) ∧
    (∀ f, hostAct (.writeFlags f) ⟨⟨s, w⟩, false⟩ = some ⟨⟨{ s with flags := f }, w⟩, false⟩) ∧
    (∀ replies, hostAct (.installMemRead replies) ⟨⟨s, w⟩, false⟩ =
      some ⟨⟨{ s with present := ⟨true, s.present.memWrite, s.present.io⟩, reads := replies }, w⟩, false⟩) ∧
    (hostAct .removeMemRead ⟨⟨s, w⟩, false⟩ =
      some ⟨⟨{ s with present := ⟨false, s.present.memWrite, s.present.io⟩ }, w⟩, false⟩) ∧
    (∀ replies, hostAct (.installMemWrite replies) ⟨⟨s, w⟩, false⟩ =
      some ⟨⟨{ s with present := ⟨s.present.memRead, true, s.present.io⟩, writes := replies }, w⟩, false⟩) ∧
    (hostAct .removeMemWrite ⟨⟨s, w⟩, false⟩ =
      some ⟨⟨{ s with present := ⟨s.present.memRead, false, s.present.io⟩ }, w⟩, false⟩) ∧
    (hostAct .installIo ⟨⟨s, w⟩, false⟩ =
      some ⟨⟨{ s with present := ⟨s.present.memRead, s.present.memWrite, true⟩ }, w⟩, false⟩) ∧
    (hostAct .removeIo ⟨⟨s, w⟩, false⟩ =
      some ⟨⟨{ s with present := ⟨s.present.memRead, s.present.memWrite, false⟩ }, w⟩, false⟩) ∧
    (∀ m, hostAct (.replaceMemory m) ⟨⟨s, w⟩, false⟩ =
      if m.wf then some ⟨⟨{ s with mem := m }, w⟩, false⟩ else none) ∧
    (∀ ds, hostAct (.bindDevices ds) ⟨⟨s, w⟩, false⟩ =
      if bindingsFrom 0 ds then some ⟨⟨{ s with devices := ds }, w⟩, false⟩ else none) ∧
    (∀ a v, s.mem.read a.toNat = none → hostAct (.writeCell a v) ⟨⟨s, w⟩, false⟩ = none) ∧
    (∀ a v old, s.mem.wf = true → s.mem.read a.toNat = some old →
      ∃ m, hostAct (.writeCell a v) ⟨⟨s, w⟩, false⟩ = some ⟨⟨{ s with mem := m }, w⟩, false⟩ ∧
        m.wf = true ∧ m.read a.toNat = some v ∧ (∀ b, b ≠ a.toNat → m.read b = s.mem.read b) ∧
        ∀ b, m.blocks b = s.mem.blocks b))

/-- The canonical form is canonical: two memories in it that read alike at every address are equal (the model's own
form, log entry 7). -/
def Obligations.MemoriesThatReadAlikeAreEqual : Prop :=
  ∀ m n : Memory, m.wf = true → n.wf = true → (∀ a, m.read a = n.read a ∧ m.blocks a = n.blocks a) → m = n

/-- 60_exceptions.md rule R249, 10_state.md rule R36: in a tracked run, which raises UndefinedRegisterRead where a
register is read before it is written, the value that the model gives an unwritten register never matters (log
entry 1): with another value in it a step does the same, that register aside. Rests on the spec's decision D7. -/
def Obligations.TrackedRunIgnoresUnwrittenRegisters : Prop :=
  ∀ (t : Tracked) (r : Fin 16) (v : Word), r ∉ t.written →
    AgreesBut r v (trackedStep t) (trackedStep { t with s := t.s.writeReg r v })

/-- 70_reset_and_hazards.md rule R273: before the first run the host may take its steps in any order, setting Running
first too: actions on different parts of the state may be exchanged, two register writes may, and once Running is set
every action is still refused or done as before. That the host may act then is the model's reading of 10_state.md
rule R46 (DEDUCED, log entry 14). Rests on the spec's decisions D7 and D29. -/
def Obligations.BootStepsMayComeInAnyOrder : Prop :=
  (∀ (a b : HostAction) (h : Session), a.part ≠ b.part →
    (hostAct a h).bind (hostAct b) = (hostAct b h).bind (hostAct a)) ∧
  (∀ (r q : Fin 16) (v w : Word) (h : Session), r ≠ q →
    ((hostAct (.writeReg r v) h).bind (hostAct (.writeReg q w))).map (·.t.s) =
      ((hostAct (.writeReg q w) h).bind (hostAct (.writeReg r v))).map (·.t.s)) ∧
  (∀ (f : FlagWord) (h : Session), h.inRun = false → h.t.s.fatal = false → f.getLsbD 0 = true →
    ∃ h', hostAct (.writeFlags f) h = some h' ∧ h'.t.s.runState = .running ∧
      ∀ a, (hostAct a h').isSome = (hostAct a h).isSome)

/-- 70_reset_and_hazards.md rule R275, 10_state.md rules R39 and R40, 60_exceptions.md rule R249: when a call of run,
followed for at most `n` steps, has which end. It has returned exactly where its steps lead to a Stopped core, which is
then the final state; it is Fatal exactly where they come to one that raises a Fatal-class fault; it ends in
UndefinedRegisterRead exactly where they come to one that reads a register before it is written, a register that was not
written at entry either; and it has not ended exactly where they lead to a core still Running. The steps are steps of the machine, and with
every register written all of them are. A run that fetches Halt first returns; one whose program counter nothing has
written ends so. Rests on the spec's decisions D7 and D32; a run is the repetition of the tracked step (log entries 1 and
13). -/
def Obligations.RunsEndAsTheSpecSays : Prop :=
  ∀ (n : Nat) (t : Tracked),
    (∀ h, hostRun n ⟨t, false⟩ = some (.stopped h) ↔
      h.inRun = false ∧ h.t.s.runState = .stopped ∧ trackedRun n t = some h.t) ∧
    (∀ h, hostRun n ⟨t, false⟩ = some (.notYet h) ↔
      h.inRun = true ∧ h.t.s.runState = .running ∧ trackedRun n t = some h.t) ∧
    (∀ r, hostRun n ⟨t, false⟩ = some (.fatal r) ↔
      ∃ k u e, k < n ∧ trackedRun k t = some u ∧ trackedStep u = .fault (.fatal r e) ∧
        step u.s = .fault (.fatal r e)) ∧
    (∀ r, hostRun n ⟨t, false⟩ = some (.undefinedRegisterRead r) ↔
      ∃ k u, k < n ∧ trackedRun k t = some u ∧ trackedStep u = .undefinedRegisterRead r) ∧
    (∀ r, hostRun n ⟨t, false⟩ = some (.fatal r) → fatalClass t.s.cfg r = true) ∧
    (∀ r, hostRun n ⟨t, false⟩ = some (.undefinedRegisterRead r) → r ∉ t.written) ∧
    (∀ u, trackedRun n t = some u → Host.Core.run Sys2Proof.core n t.s = .next u.s) ∧
    ((∀ r, r ∈ t.written) → ∀ u, Host.Core.run Sys2Proof.core n t.s = .next u →
      ∃ w, trackedRun n t = some ⟨u, w⟩) ∧
    (t.s.runState = .running → t.s.phase = .fetch → t.s.cfg.pcIndex ∈ t.written → fetchedInstr t.s = some .halt →
      ∃ h, hostRun (n + 1) ⟨t, false⟩ = some (.stopped h) ∧ h.t.s.pc = t.s.pc ∧ h.t.written = t.written) ∧
    (t.s.runState = .running → t.s.cfg.pcIndex ∉ t.written →
      hostRun (n + 1) ⟨t, false⟩ = some (.undefinedRegisterRead t.s.cfg.pcIndex))
end

