-- ==== Sys2Proof/Laws/Memory.lean ====
section
/-! SUPPORT. The host's memory: every operation keeps the canonical form, a read after a write gives the value written,
and a write leaves every other address alone. -/

namespace Sys2Proof.Machine

open Sys2Proof

/-! ### Cells -/

/-- A canonical list from `lo` on says nothing of the addresses below `lo`. -/
theorem Memory.lookup_below {lo a : Nat} : ∀ {cs : List (Nat × Word)},
    Memory.cellsFrom lo cs = true → a < lo → Memory.lookup cs a = Memory.unlisted
  | [], _, _ => rfl
  | (b, v) :: rest, h, ha => by
    simp only [Memory.cellsFrom, Bool.and_eq_true, decide_eq_true_eq] at h
    rw [Memory.lookup, if_neg (by omega)]
    exact Memory.lookup_below h.2 (by omega)

/-- A write leaves every other address alone. -/
theorem Memory.lookup_update_other {a b : Nat} (v : Word) (h : b ≠ a) : ∀ cs : List (Nat × Word),
    Memory.lookup (Memory.update a v cs) b = Memory.lookup cs b
  | [] => by unfold Memory.update; split <;> simp [Memory.lookup, h]
  | (c, w) :: rest => by
    unfold Memory.update
    have ih := Memory.lookup_update_other v h rest
    split
    · split <;> simp [Memory.lookup, h]
    · split
      · subst a; split <;> simp [Memory.lookup, h]
      · simp [Memory.lookup, ih]

/-- A read after a write to the same address gives the value written. -/
theorem Memory.lookup_update_same (a : Nat) (v : Word) : ∀ {lo : Nat} {cs : List (Nat × Word)},
    Memory.cellsFrom lo cs = true → Memory.lookup (Memory.update a v cs) a = v
  | _, [], _ => by
    unfold Memory.update; split
    · simp_all [Memory.lookup]
    · simp [Memory.lookup]
  | _, (b, w) :: rest, h => by
    simp only [Memory.cellsFrom, Bool.and_eq_true, decide_eq_true_eq] at h
    unfold Memory.update
    split
    · split
      · rw [Memory.lookup, if_neg (by omega), Memory.lookup_below h.2 (by omega)]; exact Eq.symm ‹_›
      · simp [Memory.lookup]
    · split
      · subst a; split
        · rw [Memory.lookup_below h.2 (by omega)]; exact Eq.symm ‹_›
        · simp [Memory.lookup]
      · rw [Memory.lookup, if_neg (by assumption)]; exact Memory.lookup_update_same a v h.2

theorem Memory.cellsFrom_mono {lo lo' : Nat} : ∀ {cs : List (Nat × Word)},
    Memory.cellsFrom lo cs = true → lo' ≤ lo → Memory.cellsFrom lo' cs = true
  | [], _, _ => rfl
  | (b, v) :: rest, h, hl => by
    simp only [Memory.cellsFrom, Bool.and_eq_true, decide_eq_true_eq] at h ⊢
    exact ⟨⟨by omega, h.1.2⟩, h.2⟩

/-- A write keeps the cells in rising order with none that says what an unlisted address says. -/
theorem Memory.cellsFrom_update (a : Nat) (v : Word) : ∀ {lo : Nat} {cs : List (Nat × Word)},
    Memory.cellsFrom lo cs = true → lo ≤ a → Memory.cellsFrom lo (Memory.update a v cs) = true
  | _, [], _, hl => by
    unfold Memory.update; split <;> simp_all [Memory.cellsFrom]
  | _, (b, w) :: rest, h, hl => by
    simp only [Memory.cellsFrom, Bool.and_eq_true, decide_eq_true_eq] at h
    unfold Memory.update
    split
    · split
      · simp [Memory.cellsFrom, h.1.1, h.1.2, h.2]
      · rename_i hab hv
        simp only [Memory.cellsFrom, Bool.and_eq_true, decide_eq_true_eq]
        exact ⟨⟨hl, hv⟩, ⟨by omega, h.1.2⟩, h.2⟩
    · split
      · subst a; split
        · exact Memory.cellsFrom_mono h.2 (by omega)
        · rename_i hv
          simp only [Memory.cellsFrom, Bool.and_eq_true, decide_eq_true_eq]
          exact ⟨⟨h.1.1, hv⟩, h.2⟩
      · simp only [Memory.cellsFrom, Bool.and_eq_true, decide_eq_true_eq]
        exact ⟨h.1, Memory.cellsFrom_update a v h.2 (by omega)⟩

/-- A cell listed after a write was listed before, or is the one written. -/
theorem Memory.mem_update {a : Nat} {v : Word} {c : Nat × Word} : ∀ {cs : List (Nat × Word)},
    c ∈ Memory.update a v cs → c = (a, v) ∨ c ∈ cs
  | [], h => by unfold Memory.update at h; split at h <;> simp_all
  | (b, w) :: rest, h => by
    unfold Memory.update at h
    split at h
    · split at h <;> simp_all
    · split at h
      · split at h
        · exact .inr (List.mem_cons_of_mem _ h)
        · rcases List.mem_cons.mp h with h | h
          · exact .inl h
          · exact .inr (List.mem_cons_of_mem _ h)
      · rcases List.mem_cons.mp h with h | h
        · exact .inr (by simp [h])
        · exact (Memory.mem_update h).imp id (List.mem_cons_of_mem _)

/-! ### Regions -/

theorem Memory.regionsFrom_mono {lo lo' : Nat} : ∀ {rs : List Region},
    Memory.regionsFrom lo rs = true → lo' ≤ lo → Memory.regionsFrom lo' rs = true
  | [], _, _ => rfl
  | r :: rest, h, hl => by
    simp only [Memory.regionsFrom, Bool.and_eq_true, decide_eq_true_eq] at h ⊢
    exact ⟨⟨⟨by omega, h.1.1.2⟩, h.1.2⟩, h.2⟩

/-- Adding an address keeps the regions canonical. -/
theorem Memory.regionsFrom_addAddress {a : Nat} (ha : a < 2 ^ 64) : ∀ {lo : Nat} {rs : List Region},
    Memory.regionsFrom lo rs = true → lo ≤ a → Memory.regionsFrom lo (Memory.addAddress a rs) = true
  | lo, [], _, hl => by
    simp only [Memory.addAddress, Memory.regionsFrom, Bool.and_eq_true, decide_eq_true_eq]
    exact ⟨⟨⟨hl, by omega⟩, by omega⟩, trivial⟩
  | lo, r :: rest, h, hl => by
    simp only [Memory.regionsFrom, Bool.and_eq_true, decide_eq_true_eq] at h
    obtain ⟨⟨⟨h1, h2⟩, h3⟩, h4⟩ := h
    unfold Memory.addAddress
    split
    · simp only [Memory.regionsFrom, Bool.and_eq_true, decide_eq_true_eq]
      exact ⟨⟨⟨hl, by omega⟩, by omega⟩, ⟨⟨by omega, h2⟩, h3⟩, h4⟩
    · split
      · simp only [Memory.regionsFrom, Bool.and_eq_true, decide_eq_true_eq]
        exact ⟨⟨⟨hl, by omega⟩, by omega⟩, Memory.regionsFrom_mono h4 (by omega)⟩
      · split
        · simp only [Memory.regionsFrom, Bool.and_eq_true, decide_eq_true_eq]
          exact ⟨⟨⟨h1, h2⟩, h3⟩, h4⟩
        · split
          · cases rest with
            | nil =>
              simp only [Memory.regionsFrom, Bool.and_eq_true, decide_eq_true_eq]
              exact ⟨⟨⟨h1, by omega⟩, by omega⟩, trivial⟩
            | cons q more =>
              simp only [Memory.regionsFrom, Bool.and_eq_true, decide_eq_true_eq] at h4
              obtain ⟨⟨⟨g1, g2⟩, g3⟩, g4⟩ := h4
              simp only
              split
              · simp only [Memory.regionsFrom, Bool.and_eq_true, decide_eq_true_eq]
                exact ⟨⟨⟨h1, by omega⟩, by omega⟩, Memory.regionsFrom_mono g4 (by omega)⟩
              · simp only [Memory.regionsFrom, Bool.and_eq_true, decide_eq_true_eq]
                exact ⟨⟨⟨h1, by omega⟩, by omega⟩, ⟨⟨by omega, g2⟩, g3⟩, g4⟩
          · simp only [Memory.regionsFrom, Bool.and_eq_true, decide_eq_true_eq]
            exact ⟨⟨⟨h1, h2⟩, h3⟩, Memory.regionsFrom_addAddress ha h4 (by omega)⟩

theorem Region.has_iff {r : Region} {a : Nat} : r.has a = true ↔ r.base ≤ a ∧ a < r.base + r.size := by
  simp [Region.has]

/-- After adding an address exactly it and the addresses of before exist. -/
theorem Memory.any_addAddress {a b : Nat} : ∀ rs : List Region,
    (Memory.addAddress a rs).any (·.has b) = (decide (b = a) || rs.any (·.has b))
  | [] => by
    simp only [Memory.addAddress, List.any_cons, List.any_nil, Region.has, Bool.or_false]
    rw [← Bool.decide_and]; exact decide_eq_decide.mpr (by omega)
  | r :: rest => by
    have ih := Memory.any_addAddress (a := a) (b := b) rest
    unfold Memory.addAddress
    rw [Bool.eq_iff_iff]
    split
    · simp only [List.any_cons, Region.has, Bool.or_eq_true, Bool.and_eq_true, decide_eq_true_eq]
      have : (a ≤ b ∧ b < a + 1) ↔ b = a := by omega
      rw [this]
    · split
      · simp only [List.any_cons, Region.has, Bool.or_eq_true, Bool.and_eq_true, decide_eq_true_eq]
        rw [← or_assoc]; exact or_congr (by omega) Iff.rfl
      · split
        · simp only [List.any_cons, Region.has, Bool.or_eq_true, Bool.and_eq_true, decide_eq_true_eq]
          rw [← or_assoc]; exact or_congr (by omega) Iff.rfl
        · split
          · cases rest with
            | nil =>
              simp only [List.any_cons, List.any_nil, Region.has, Bool.or_false, Bool.or_eq_true,
                Bool.and_eq_true, decide_eq_true_eq]
              omega
            | cons q more =>
              simp only
              split
              · simp only [List.any_cons, Region.has, Bool.or_eq_true, Bool.and_eq_true, decide_eq_true_eq]
                rw [← or_assoc, ← or_assoc]; exact or_congr (by omega) Iff.rfl
              · simp only [List.any_cons, Region.has, Bool.or_eq_true, Bool.and_eq_true, decide_eq_true_eq]
                have : (r.base ≤ b ∧ b < r.base + (r.size + 1)) ↔ b = a ∨ (r.base ≤ b ∧ b < r.base + r.size) := by
                  omega
                rw [this, or_assoc]
          · simp only [List.any_cons, ih, Bool.or_eq_true]
            tauto

/-- No address past the 64-bit space exists. -/
theorem Memory.mapped_lt {m : Memory} (h : m.wf = true) {a : Nat} (ha : m.mapped a = true) : a < 2 ^ 64 := by
  have key : ∀ (rs : List Region) (lo : Nat), Memory.regionsFrom lo rs = true →
      rs.any (·.has a) = true → a < 2 ^ 64 := by
    intro rs
    induction rs with
    | nil => intro _ _ h; simp at h
    | cons r rest ih =>
      intro lo hr hm
      simp only [Memory.regionsFrom, Bool.and_eq_true, decide_eq_true_eq] at hr
      simp only [List.any_cons, Bool.or_eq_true, Region.has_iff] at hm
      rcases hm with hm | hm
      · omega
      · exact ih _ hr.2 hm
  simp only [Memory.wf, Bool.and_eq_true] at h
  exact key m.regions 0 h.1.1.1.1 ha

/-! ### Whole memories -/

theorem Memory.wf_iff {m : Memory} : m.wf = true ↔
    Memory.regionsFrom 0 m.regions = true ∧ Memory.cellsFrom 0 m.cells = true ∧
      (∀ c ∈ m.cells, m.mapped c.1 = true) ∧ Memory.addressesFrom 0 m.silent = true ∧
      ∀ a ∈ m.silent, m.mapped a = false := by
  simp only [Memory.wf, Bool.and_eq_true, List.all_eq_true, Bool.not_eq_true', and_assoc]

theorem Memory.addressesFrom_mono {lo lo' : Nat} (h : lo' ≤ lo) : ∀ {l : List Nat},
    Memory.addressesFrom lo l = true → Memory.addressesFrom lo' l = true
  | [], _ => rfl
  | a :: rest, ha => by
    simp only [Memory.addressesFrom, Bool.and_eq_true, decide_eq_true_eq] at ha ⊢
    exact ⟨by omega, ha.2⟩

theorem Memory.addressesFrom_filter (p : Nat → Bool) : ∀ {lo : Nat} {l : List Nat},
    Memory.addressesFrom lo l = true → Memory.addressesFrom lo (l.filter p) = true
  | _, [], _ => rfl
  | lo, a :: rest, ha => by
    simp only [Memory.addressesFrom, Bool.and_eq_true, decide_eq_true_eq] at ha
    have ih := Memory.addressesFrom_filter p ha.2
    rw [List.filter_cons]
    split
    · simp only [Memory.addressesFrom, Bool.and_eq_true, decide_eq_true_eq]; exact ⟨ha.1, ih⟩
    · exact Memory.addressesFrom_mono (by omega) ih

/-- The host answers at every address that has a cell. -/
theorem Memory.not_blocks_of_mapped {m : Memory} (h : m.wf = true) {a : Nat} (ha : m.mapped a = true) :
    m.blocks a = false := by
  rw [Memory.blocks, ← Bool.not_eq_true, List.contains_iff_mem]
  intro hm
  have := (Memory.wf_iff.mp h).2.2.2.2 a hm
  rw [ha] at this
  cases this

/-- What a write that is answered Ok does. -/
theorem Memory.write_some {m m' : Memory} {a : Nat} {v : Word} (h : m.write a v = some m') :
    m.mapped a = true ∧ m' = { m with cells := Memory.update a v m.cells } := by
  unfold Memory.write at h
  split at h
  · exact ⟨‹_›, (Option.some.inj h).symm⟩
  · simp at h

/-- A write is answered Ok exactly where a read is. -/
theorem Memory.write_isSome (m : Memory) (a : Nat) (v : Word) :
    (m.write a v).isSome = (m.read a).isSome := by
  unfold Memory.write Memory.read; split <;> rfl

theorem Memory.write_of_read_none {m : Memory} {a : Nat} (v : Word) (h : m.read a = none) :
    m.write a v = none := by
  have := Memory.write_isSome m a v
  rw [h] at this
  simpa using this

theorem Memory.write_of_read_some {m : Memory} {a : Nat} {w : Word} (v : Word) (h : m.read a = some w) :
    ∃ m', m.write a v = some m' := by
  have := Memory.write_isSome m a v
  rw [h] at this
  exact Option.isSome_iff_exists.mp (by simpa using this)

theorem Memory.mapped_write {m m' : Memory} {a : Nat} {v : Word} (h : m.write a v = some m') (b : Nat) :
    m'.mapped b = m.mapped b := by
  obtain ⟨-, rfl⟩ := Memory.write_some h; rfl

/-- A read after a write to the same cell gives the value written (20_memory.md rule R79). -/
theorem Memory.read_write_same {m m' : Memory} {a : Nat} {v : Word} (hw : m.wf = true)
    (h : m.write a v = some m') : m'.read a = some v := by
  obtain ⟨hm, rfl⟩ := Memory.write_some h
  have hm' : ({ m with cells := Memory.update a v m.cells } : Memory).mapped a = true := hm
  rw [Memory.read, if_pos hm', Memory.lookup_update_same a v (Memory.wf_iff.mp hw).2.1]

/-- A write leaves every other cell alone. -/
theorem Memory.read_write_other {m m' : Memory} {a b : Nat} {v : Word} (h : m.write a v = some m')
    (hb : b ≠ a) : m'.read b = m.read b := by
  obtain ⟨-, rfl⟩ := Memory.write_some h
  show (if m.mapped b then some _ else none) = (if m.mapped b then some _ else none)
  rw [Memory.lookup_update_other v hb]

/-- Which cells exist is not changed by a write. -/
theorem Memory.isSome_read_write {m m' : Memory} {a : Nat} {v : Word} (h : m.write a v = some m') (b : Nat) :
    (m'.read b).isSome = (m.read b).isSome := by
  unfold Memory.read
  rw [Memory.mapped_write h]
  split <;> rfl

/-- Where the host does not answer is not changed by a write. -/
theorem Memory.blocks_write {m m' : Memory} {a : Nat} {v : Word} (h : m.write a v = some m') (b : Nat) :
    m'.blocks b = m.blocks b := by
  obtain ⟨-, rfl⟩ := Memory.write_some h; rfl

/-- A write keeps the canonical form. -/
theorem Memory.wf_write {m m' : Memory} {a : Nat} {v : Word} (hw : m.wf = true)
    (h : m.write a v = some m') : m'.wf = true := by
  obtain ⟨hm, rfl⟩ := Memory.write_some h
  obtain ⟨h1, h2, h3, h4⟩ := Memory.wf_iff.mp hw
  refine Memory.wf_iff.mpr ⟨h1, Memory.cellsFrom_update a v h2 (Nat.zero_le _), fun c hc => ?_, h4⟩
  rcases Memory.mem_update hc with rfl | hc
  · exact hm
  · exact h3 c hc

/-! ### A store, which changes nothing where there is no cell -/

theorem Memory.store_of_mapped {m : Memory} {a : Nat} (v : Word) (h : m.mapped a = true) :
    m.write a v = some (m.store a v) := by
  unfold Memory.store Memory.write; rw [if_pos h]; rfl

theorem Memory.store_of_not_mapped {m : Memory} {a : Nat} (v : Word) (h : m.mapped a = false) :
    m.store a v = m := by
  unfold Memory.store Memory.write; rw [if_neg (by simp [h])]; rfl

theorem Memory.mapped_of_read {m : Memory} {a : Nat} {w : Word} (h : m.read a = some w) : m.mapped a = true := by
  unfold Memory.read at h; split at h
  · assumption
  · cases h

/-- A read after a store to the same existing cell gives the value stored. -/
theorem Memory.read_store_same {m : Memory} {a : Nat} {v : Word} (hw : m.wf = true) (h : m.mapped a = true) :
    (m.store a v).read a = some v := Memory.read_write_same hw (Memory.store_of_mapped v h)

/-- A store leaves every other cell alone. -/
theorem Memory.read_store_other {m : Memory} {a b : Nat} (v : Word) (hb : b ≠ a) :
    (m.store a v).read b = m.read b := by
  cases h : m.mapped a
  · rw [Memory.store_of_not_mapped v h]
  · exact Memory.read_write_other (Memory.store_of_mapped v h) hb

/-- Which cells exist is not changed by a store. -/
@[simp] theorem Memory.isSome_read_store (m : Memory) (a b : Nat) (v : Word) :
    ((m.store a v).read b).isSome = (m.read b).isSome := by
  cases h : m.mapped a
  · rw [Memory.store_of_not_mapped v h]
  · exact Memory.isSome_read_write (Memory.store_of_mapped v h) b

/-- Where the host does not answer is not changed by a store. -/
@[simp] theorem Memory.blocks_store (m : Memory) (a b : Nat) (v : Word) : (m.store a v).blocks b = m.blocks b := by
  cases h : m.mapped a
  · rw [Memory.store_of_not_mapped v h]
  · exact Memory.blocks_write (Memory.store_of_mapped v h) b

/-- A store keeps the canonical form. -/
theorem Memory.wf_store {m : Memory} (a : Nat) (v : Word) (hw : m.wf = true) : (m.store a v).wf = true := by
  cases h : m.mapped a
  · rwa [Memory.store_of_not_mapped v h]
  · exact Memory.wf_write hw (Memory.store_of_mapped v h)

theorem Memory.mapped_place (m : Memory) (a b : Nat) (v : Word) :
    (m.place a v).mapped b = (decide (b = a) || m.mapped b) := Memory.any_addAddress m.regions

/-- The host's placing of a word keeps the canonical form. -/
theorem Memory.wf_place {m : Memory} {a : Nat} (v : Word) (ha : a < 2 ^ 64) (hw : m.wf = true) :
    (m.place a v).wf = true := by
  obtain ⟨h1, h2, h3, h4, h5⟩ := Memory.wf_iff.mp hw
  refine Memory.wf_iff.mpr ⟨Memory.regionsFrom_addAddress ha h1 (Nat.zero_le _),
    Memory.cellsFrom_update a v h2 (Nat.zero_le _), fun c hc => ?_, Memory.addressesFrom_filter _ h4, fun b hb => ?_⟩
  · rw [Memory.mapped_place]
    rcases Memory.mem_update hc with rfl | hc
    · simp
    · simp [h3 c hc]
  · obtain ⟨hb, hne⟩ := List.mem_filter.mp hb
    rw [Memory.mapped_place, h5 b hb]
    simpa using hne

/-- The placed word is what the cell reads as. -/
theorem Memory.read_place_same {m : Memory} {a : Nat} (v : Word) (hw : m.wf = true) :
    (m.place a v).read a = some v := by
  have hm : (m.place a v).mapped a = true := by simp [Memory.mapped_place]
  rw [Memory.read, if_pos hm]
  exact congrArg some (Memory.lookup_update_same a v (Memory.wf_iff.mp hw).2.1)

/-! ### Answers that follow the cells -/

theorem MemReadReply.answer_cell {m : Memory} {a : Nat} {w : Word} (h : m.read a = some w) :
    MemReadReply.asCells.answer m a = .word w := by unfold MemReadReply.answer; rw [h]

theorem MemReadReply.answer_missing {m : Memory} {a : Nat} (h : m.read a = none) (hb : m.blocks a = false) :
    MemReadReply.asCells.answer m a = .outOfBounds := by simp [MemReadReply.answer, h, hb]

theorem MemReadReply.answer_silent {m : Memory} {a : Nat} (h : m.read a = none) (hb : m.blocks a = true) :
    MemReadReply.asCells.answer m a = .never := by simp [MemReadReply.answer, h, hb]

theorem MemWriteReply.answer_cell {m : Memory} {a : Nat} (h : m.mapped a = true) :
    MemWriteReply.asCells.answer m a = .ok := by simp [MemWriteReply.answer, h]

/-! ### Devices -/

/-- Replacing a device keeps the device map canonical. -/
theorem bindingsFrom_setDevice (d : Word) (dev : Device) : ∀ {lo : Nat} {bs : List Binding},
    bindingsFrom lo bs = true → bindingsFrom lo (setDevice d dev bs) = true
  | _, [], _ => rfl
  | _, b :: rest, h => by
    simp only [bindingsFrom, Bool.and_eq_true, decide_eq_true_eq] at h
    unfold setDevice
    split
    · subst d; simpa [bindingsFrom] using h
    · simp only [bindingsFrom, Bool.and_eq_true, decide_eq_true_eq]
      exact ⟨h.1, bindingsFrom_setDevice d dev h.2⟩

theorem deviceAt_setDevice_same {d : Word} (dev : Device) : ∀ {bs : List Binding} {old : Device},
    deviceAt d bs = some old → deviceAt d (setDevice d dev bs) = some dev
  | [], _, h => by simp [deviceAt] at h
  | b :: rest, _, h => by
    unfold deviceAt at h
    unfold setDevice
    split at h
    · rename_i hb; simp [hb, deviceAt]
    · rename_i hb; simp [hb, deviceAt, deviceAt_setDevice_same dev h]

theorem deviceAt_setDevice_other {d e : Word} (dev : Device) (h : e ≠ d) : ∀ bs : List Binding,
    deviceAt e (setDevice d dev bs) = deviceAt e bs
  | [] => rfl
  | b :: rest => by
    unfold setDevice
    split
    · rename_i hb; simp [deviceAt, hb, h.symm]
    · simp [deviceAt, deviceAt_setDevice_other dev h rest]

@[simp] theorem Device.tag_answerRead (dev : Device) : dev.answerRead.2.tag = dev.tag := by
  rcases dev with ⟨_ | _, _⟩ | ⟨_, _⟩ | _ <;> rfl

@[simp] theorem Device.tag_answerWrite (dev : Device) : dev.answerWrite.2.tag = dev.tag := by
  rcases dev with ⟨_, _⟩ | ⟨_ | _, _⟩ | _ <;> rfl

end Sys2Proof.Machine
end

