-- ==== Sys2Proof/Laws/State.lean ====
section
/-! SUPPORT. One lemma per field per update of the state, so that no later proof unfolds a record update. -/

namespace Sys2Proof.Machine

open Sys2Proof

@[simp] theorem State.writeReg_flags (s : State) (i : Fin 16) (v : Word) : (s.writeReg i v).flags = s.flags := rfl
@[simp] theorem State.writeReg_stack (s : State) (i : Fin 16) (v : Word) : (s.writeReg i v).stack = s.stack := rfl
@[simp] theorem State.writeReg_cfg (s : State) (i : Fin 16) (v : Word) : (s.writeReg i v).cfg = s.cfg := rfl
@[simp] theorem State.writeReg_present (s : State) (i : Fin 16) (v : Word) : (s.writeReg i v).present = s.present := rfl
@[simp] theorem State.writeReg_fatal (s : State) (i : Fin 16) (v : Word) : (s.writeReg i v).fatal = s.fatal := rfl
@[simp] theorem State.writeReg_phase (s : State) (i : Fin 16) (v : Word) : (s.writeReg i v).phase = s.phase := rfl
@[simp] theorem State.writeReg_mem (s : State) (i : Fin 16) (v : Word) : (s.writeReg i v).mem = s.mem := rfl
@[simp] theorem State.writeReg_reads (s : State) (i : Fin 16) (v : Word) : (s.writeReg i v).reads = s.reads := rfl
@[simp] theorem State.writeReg_writes (s : State) (i : Fin 16) (v : Word) : (s.writeReg i v).writes = s.writes := rfl
@[simp] theorem State.writeReg_devices (s : State) (i : Fin 16) (v : Word) : (s.writeReg i v).devices = s.devices := rfl
@[simp] theorem State.writeReg_trace (s : State) (i : Fin 16) (v : Word) : (s.writeReg i v).trace = s.trace := rfl

@[simp] theorem State.setPc_flags (s : State) (v : Word) : (s.setPc v).flags = s.flags := rfl
@[simp] theorem State.setPc_stack (s : State) (v : Word) : (s.setPc v).stack = s.stack := rfl
@[simp] theorem State.setPc_cfg (s : State) (v : Word) : (s.setPc v).cfg = s.cfg := rfl
@[simp] theorem State.setPc_present (s : State) (v : Word) : (s.setPc v).present = s.present := rfl
@[simp] theorem State.setPc_fatal (s : State) (v : Word) : (s.setPc v).fatal = s.fatal := rfl
@[simp] theorem State.setPc_phase (s : State) (v : Word) : (s.setPc v).phase = s.phase := rfl
@[simp] theorem State.setPc_mem (s : State) (v : Word) : (s.setPc v).mem = s.mem := rfl
@[simp] theorem State.setPc_reads (s : State) (v : Word) : (s.setPc v).reads = s.reads := rfl
@[simp] theorem State.setPc_writes (s : State) (v : Word) : (s.setPc v).writes = s.writes := rfl
@[simp] theorem State.setPc_devices (s : State) (v : Word) : (s.setPc v).devices = s.devices := rfl
@[simp] theorem State.setPc_trace (s : State) (v : Word) : (s.setPc v).trace = s.trace := rfl

@[simp] theorem State.setPhase_flags (s : State) (p : Phase) : (s.setPhase p).flags = s.flags := rfl
@[simp] theorem State.setPhase_stack (s : State) (p : Phase) : (s.setPhase p).stack = s.stack := rfl
@[simp] theorem State.setPhase_cfg (s : State) (p : Phase) : (s.setPhase p).cfg = s.cfg := rfl
@[simp] theorem State.setPhase_present (s : State) (p : Phase) : (s.setPhase p).present = s.present := rfl
@[simp] theorem State.setPhase_fatal (s : State) (p : Phase) : (s.setPhase p).fatal = s.fatal := rfl
@[simp] theorem State.setPhase_phase (s : State) (p : Phase) : (s.setPhase p).phase = p := rfl
@[simp] theorem State.setPhase_mem (s : State) (p : Phase) : (s.setPhase p).mem = s.mem := rfl
@[simp] theorem State.setPhase_reads (s : State) (p : Phase) : (s.setPhase p).reads = s.reads := rfl
@[simp] theorem State.setPhase_writes (s : State) (p : Phase) : (s.setPhase p).writes = s.writes := rfl
@[simp] theorem State.setPhase_devices (s : State) (p : Phase) : (s.setPhase p).devices = s.devices := rfl
@[simp] theorem State.setPhase_trace (s : State) (p : Phase) : (s.setPhase p).trace = s.trace := rfl

@[simp] theorem State.emit_flags (s : State) (e : Event) : (s.emit e).flags = s.flags := rfl
@[simp] theorem State.emit_stack (s : State) (e : Event) : (s.emit e).stack = s.stack := rfl
@[simp] theorem State.emit_cfg (s : State) (e : Event) : (s.emit e).cfg = s.cfg := rfl
@[simp] theorem State.emit_present (s : State) (e : Event) : (s.emit e).present = s.present := rfl
@[simp] theorem State.emit_fatal (s : State) (e : Event) : (s.emit e).fatal = s.fatal := rfl
@[simp] theorem State.emit_phase (s : State) (e : Event) : (s.emit e).phase = s.phase := rfl
@[simp] theorem State.emit_mem (s : State) (e : Event) : (s.emit e).mem = s.mem := rfl
@[simp] theorem State.emit_reads (s : State) (e : Event) : (s.emit e).reads = s.reads.after (e.requestsOn .read) := rfl
@[simp] theorem State.emit_writes (s : State) (e : Event) : (s.emit e).writes = s.writes.after (e.requestsOn .write) := rfl
@[simp] theorem State.emit_devices (s : State) (e : Event) : (s.emit e).devices = s.devices := rfl
@[simp] theorem State.emit_trace (s : State) (e : Event) : (s.emit e).trace = e :: s.trace := rfl

@[simp] theorem State.stopWith_flags (s : State) (r : Report) : (s.stopWith r).flags = Flags.clearRunning s.flags := rfl
@[simp] theorem State.stopWith_stack (s : State) (r : Report) : (s.stopWith r).stack = s.stack := rfl
@[simp] theorem State.stopWith_cfg (s : State) (r : Report) : (s.stopWith r).cfg = s.cfg := rfl
@[simp] theorem State.stopWith_present (s : State) (r : Report) : (s.stopWith r).present = s.present := rfl
@[simp] theorem State.stopWith_fatal (s : State) (r : Report) : (s.stopWith r).fatal = s.fatal := rfl
@[simp] theorem State.stopWith_phase (s : State) (r : Report) : (s.stopWith r).phase = .fetch := rfl
@[simp] theorem State.stopWith_mem (s : State) (r : Report) : (s.stopWith r).mem = s.mem := rfl
@[simp] theorem State.stopWith_reads (s : State) (r : Report) : (s.stopWith r).reads = s.reads := rfl
@[simp] theorem State.stopWith_writes (s : State) (r : Report) : (s.stopWith r).writes = s.writes := rfl
@[simp] theorem State.stopWith_devices (s : State) (r : Report) : (s.stopWith r).devices = s.devices := rfl
@[simp] theorem State.stopWith_trace (s : State) (r : Report) : (s.stopWith r).trace = .report r :: s.trace := rfl

@[simp] theorem State.enterFatal_flags (s : State) (r : Report) : (s.enterFatal r).flags = s.flags := rfl
@[simp] theorem State.enterFatal_stack (s : State) (r : Report) : (s.enterFatal r).stack = s.stack := rfl
@[simp] theorem State.enterFatal_cfg (s : State) (r : Report) : (s.enterFatal r).cfg = s.cfg := rfl
@[simp] theorem State.enterFatal_present (s : State) (r : Report) : (s.enterFatal r).present = s.present := rfl
@[simp] theorem State.enterFatal_fatal (s : State) (r : Report) : (s.enterFatal r).fatal = true := rfl
@[simp] theorem State.enterFatal_phase (s : State) (r : Report) : (s.enterFatal r).phase = .fetch := rfl
@[simp] theorem State.enterFatal_mem (s : State) (r : Report) : (s.enterFatal r).mem = s.mem := rfl
@[simp] theorem State.enterFatal_reads (s : State) (r : Report) : (s.enterFatal r).reads = s.reads := rfl
@[simp] theorem State.enterFatal_writes (s : State) (r : Report) : (s.enterFatal r).writes = s.writes := rfl
@[simp] theorem State.enterFatal_devices (s : State) (r : Report) : (s.enterFatal r).devices = s.devices := rfl
@[simp] theorem State.enterFatal_trace (s : State) (r : Report) : (s.enterFatal r).trace = .report r :: s.trace := rfl

@[simp] theorem State.placeWord_flags (s : State) (w : Word) : (s.placeWord w).flags = Flags.setRunning s.flags := rfl
@[simp] theorem State.placeWord_stack (s : State) (w : Word) : (s.placeWord w).stack = s.stack := rfl
@[simp] theorem State.placeWord_cfg (s : State) (w : Word) : (s.placeWord w).cfg = s.cfg := rfl
@[simp] theorem State.placeWord_present (s : State) (w : Word) : (s.placeWord w).present = { s.present with memRead := true } := rfl
@[simp] theorem State.placeWord_fatal (s : State) (w : Word) : (s.placeWord w).fatal = false := rfl
@[simp] theorem State.placeWord_phase (s : State) (w : Word) : (s.placeWord w).phase = .fetch := rfl
@[simp] theorem State.placeWord_mem (s : State) (w : Word) : (s.placeWord w).mem = s.mem.place s.pc.toNat w := rfl
@[simp] theorem State.placeWord_reads (s : State) (w : Word) : (s.placeWord w).reads = { s.reads with script := .asCells :: s.reads.script } := rfl
@[simp] theorem State.placeWord_writes (s : State) (w : Word) : (s.placeWord w).writes = s.writes := rfl
@[simp] theorem State.placeWord_devices (s : State) (w : Word) : (s.placeWord w).devices = s.devices := rfl
@[simp] theorem State.placeWord_trace (s : State) (w : Word) : (s.placeWord w).trace = s.trace := rfl

@[simp] theorem State.storeCell_flags (s : State) (a : Nat) (v : Word) : (s.storeCell a v).flags = s.flags := rfl
@[simp] theorem State.storeCell_stack (s : State) (a : Nat) (v : Word) : (s.storeCell a v).stack = s.stack := rfl
@[simp] theorem State.storeCell_cfg (s : State) (a : Nat) (v : Word) : (s.storeCell a v).cfg = s.cfg := rfl
@[simp] theorem State.storeCell_present (s : State) (a : Nat) (v : Word) : (s.storeCell a v).present = s.present := rfl
@[simp] theorem State.storeCell_fatal (s : State) (a : Nat) (v : Word) : (s.storeCell a v).fatal = s.fatal := rfl
@[simp] theorem State.storeCell_phase (s : State) (a : Nat) (v : Word) : (s.storeCell a v).phase = s.phase := rfl
@[simp] theorem State.storeCell_mem (s : State) (a : Nat) (v : Word) : (s.storeCell a v).mem = s.mem.store a v := rfl
@[simp] theorem State.storeCell_reads (s : State) (a : Nat) (v : Word) : (s.storeCell a v).reads = s.reads := rfl
@[simp] theorem State.storeCell_writes (s : State) (a : Nat) (v : Word) : (s.storeCell a v).writes = s.writes := rfl
@[simp] theorem State.storeCell_devices (s : State) (a : Nat) (v : Word) : (s.storeCell a v).devices = s.devices := rfl
@[simp] theorem State.storeCell_trace (s : State) (a : Nat) (v : Word) : (s.storeCell a v).trace = s.trace := rfl

@[simp] theorem State.retire_flags (s : State) (u : PcUpdate) : (s.retire u).flags = s.flags := by cases u <;> rfl
@[simp] theorem State.retire_stack (s : State) (u : PcUpdate) : (s.retire u).stack = s.stack := by cases u <;> rfl
@[simp] theorem State.retire_cfg (s : State) (u : PcUpdate) : (s.retire u).cfg = s.cfg := by cases u <;> rfl
@[simp] theorem State.retire_present (s : State) (u : PcUpdate) : (s.retire u).present = s.present := by cases u <;> rfl
@[simp] theorem State.retire_fatal (s : State) (u : PcUpdate) : (s.retire u).fatal = s.fatal := by cases u <;> rfl
@[simp] theorem State.retire_phase (s : State) (u : PcUpdate) : (s.retire u).phase = s.phase := by cases u <;> rfl
@[simp] theorem State.retire_mem (s : State) (u : PcUpdate) : (s.retire u).mem = s.mem := by cases u <;> rfl
@[simp] theorem State.retire_reads (s : State) (u : PcUpdate) : (s.retire u).reads = s.reads := by cases u <;> rfl
@[simp] theorem State.retire_writes (s : State) (u : PcUpdate) : (s.retire u).writes = s.writes := by cases u <;> rfl
@[simp] theorem State.retire_devices (s : State) (u : PcUpdate) : (s.retire u).devices = s.devices := by cases u <;> rfl
@[simp] theorem State.retire_trace (s : State) (u : PcUpdate) : (s.retire u).trace = s.trace := by cases u <;> rfl

@[simp] theorem State.readReg_setPhase (s : State) (p : Phase) (q : Fin 16) : (s.setPhase p).readReg q = s.readReg q := rfl
@[simp] theorem State.pc_setPhase (s : State) (p : Phase) : (s.setPhase p).pc = s.pc := rfl
@[simp] theorem State.readReg_emit (s : State) (e : Event) (q : Fin 16) : (s.emit e).readReg q = s.readReg q := rfl
@[simp] theorem State.pc_emit (s : State) (e : Event) : (s.emit e).pc = s.pc := rfl
@[simp] theorem State.readReg_storeCell (s : State) (a : Nat) (v : Word) (q : Fin 16) : (s.storeCell a v).readReg q = s.readReg q := rfl
@[simp] theorem State.pc_storeCell (s : State) (a : Nat) (v : Word) : (s.storeCell a v).pc = s.pc := rfl
@[simp] theorem State.readReg_stopWith (s : State) (r : Report) (q : Fin 16) : (s.stopWith r).readReg q = s.readReg q := rfl
@[simp] theorem State.pc_stopWith (s : State) (r : Report) : (s.stopWith r).pc = s.pc := rfl
@[simp] theorem State.readReg_enterFatal (s : State) (r : Report) (q : Fin 16) : (s.enterFatal r).readReg q = s.readReg q := rfl
@[simp] theorem State.pc_enterFatal (s : State) (r : Report) : (s.enterFatal r).pc = s.pc := rfl
@[simp] theorem State.readReg_placeWord (s : State) (w : Word) (q : Fin 16) : (s.placeWord w).readReg q = s.readReg q := rfl
@[simp] theorem State.pc_placeWord (s : State) (w : Word) : (s.placeWord w).pc = s.pc := rfl

/-! ### The memory responders -/

@[simp] theorem Replies.after_zero {α : Type} (r : Replies α) : r.after 0 = r := rfl

@[simp] theorem Replies.after_after {α : Type} (r : Replies α) (m n : Nat) :
    (r.after m).after n = r.after (m + n) := by simp [Replies.after, List.drop_drop]

@[simp] theorem Event.requestsOn_memRead (p : MemPort) (a : Word) (w : Option Word) :
    (Event.memRead a w).requestsOn p = if p = .read then 1 else 0 := rfl
@[simp] theorem Event.requestsOn_memWrite (p : MemPort) (a v : Word) (ok : Bool) :
    (Event.memWrite a v ok).requestsOn p = if p = .write then 1 else 0 := rfl
@[simp] theorem Event.requestsOn_memReadUnanswered (p : MemPort) (a : Word) :
    (Event.memReadUnanswered a).requestsOn p = if p = .read then 1 else 0 := rfl
@[simp] theorem Event.requestsOn_memWriteUnanswered (p : MemPort) (a v : Word) :
    (Event.memWriteUnanswered a v).requestsOn p = if p = .write then 1 else 0 := rfl
@[simp] theorem Event.requestsOn_ioResolve (p : MemPort) (d : Word) (c : Option Capability) :
    (Event.ioResolve d c).requestsOn p = 0 := rfl
@[simp] theorem Event.requestsOn_ioUnanswered (p : MemPort) (d : Word) : (Event.ioUnanswered d).requestsOn p = 0 := rfl
@[simp] theorem Event.requestsOn_devRead (p : MemPort) (d : Word) (a : ReadAnswer) :
    (Event.devRead d a).requestsOn p = 0 := rfl
@[simp] theorem Event.requestsOn_devWrite (p : MemPort) (d : Word) (b : Byte) (a : WriteAnswer) :
    (Event.devWrite d b a).requestsOn p = 0 := rfl
@[simp] theorem Event.requestsOn_report (p : MemPort) (r : Report) : (Event.report r).requestsOn p = 0 := rfl

/-- What a responder answers depends on its replies and the cells alone. -/
theorem State.readAnswer_congr {s t : State} (hr : t.reads = s.reads) (hm : t.mem = s.mem) (a : Word) :
    t.readAnswer a = s.readAnswer a := by unfold State.readAnswer; rw [hr, hm]

theorem State.writeAnswer_congr {s t : State} (hw : t.writes = s.writes) (hm : t.mem = s.mem) (a : Word) :
    t.writeAnswer a = s.writeAnswer a := by unfold State.writeAnswer; rw [hw, hm]

/-- A request on another port leaves the memory read responder's next answer. -/
@[simp] theorem State.readAnswer_emit_ioResolve (s : State) (d a : Word) (c : Option Capability) :
    (s.emit (.ioResolve d c)).readAnswer a = s.readAnswer a := rfl
@[simp] theorem State.writeAnswer_emit_ioResolve (s : State) (d a : Word) (c : Option Capability) :
    (s.emit (.ioResolve d c)).writeAnswer a = s.writeAnswer a := rfl
@[simp] theorem State.readAnswer_writeReg (s : State) (i : Fin 16) (v a : Word) :
    (s.writeReg i v).readAnswer a = s.readAnswer a := rfl
@[simp] theorem State.writeAnswer_writeReg (s : State) (i : Fin 16) (v a : Word) :
    (s.writeReg i v).writeAnswer a = s.writeAnswer a := rfl
@[simp] theorem State.readAnswer_setPhase (s : State) (p : Phase) (a : Word) :
    (s.setPhase p).readAnswer a = s.readAnswer a := rfl
@[simp] theorem State.writeAnswer_setPhase (s : State) (p : Phase) (a : Word) :
    (s.setPhase p).writeAnswer a = s.writeAnswer a := rfl

/-! ### Registers -/

theorem State.readReg_writeReg (s : State) (i q : Fin 16) (v : Word) :
    (s.writeReg i v).readReg q = if q = i then v else s.readReg q := by
  simp only [State.readReg, State.writeReg, Fin.getElem_fin, Vector.getElem_set, Fin.ext_iff, eq_comm]

@[simp] theorem State.readReg_writeReg_self (s : State) (i : Fin 16) (v : Word) :
    (s.writeReg i v).readReg i = v := by simp [State.readReg_writeReg]

theorem State.readReg_writeReg_other (s : State) {i q : Fin 16} (v : Word) (h : q ≠ i) :
    (s.writeReg i v).readReg q = s.readReg q := by simp [State.readReg_writeReg, h]

theorem State.pc_writeReg (s : State) (i : Fin 16) (v : Word) :
    (s.writeReg i v).pc = if s.cfg.pcIndex = i then v else s.pc := s.readReg_writeReg i _ v

@[simp] theorem State.pc_setPc (s : State) (v : Word) : (s.setPc v).pc = v :=
  s.readReg_writeReg_self _ v

theorem State.readReg_setPc_other (s : State) {q : Fin 16} (v : Word) (h : q ≠ s.cfg.pcIndex) :
    (s.setPc v).readReg q = s.readReg q := s.readReg_writeReg_other v h

/-- The program counter after the update of a cycle (10_state.md rule R41). -/
@[simp] theorem State.pc_retire_next (s : State) : (s.retire .next).pc = s.pc + 1 := s.pc_setPc _

@[simp] theorem State.pc_retire_target (s : State) (t : Word) : (s.retire (.target t)).pc = t := s.pc_setPc t

@[simp] theorem State.retire_stay (s : State) : s.retire .stay = s := rfl

/-- The program-counter update writes no other register. -/
theorem State.readReg_retire_other (s : State) {q : Fin 16} (u : PcUpdate) (h : q ≠ s.cfg.pcIndex) :
    (s.retire u).readReg q = s.readReg q := by
  cases u
  · exact s.readReg_setPc_other _ h
  · exact s.readReg_setPc_other _ h
  · rfl

/-! ### Run states -/

theorem State.runState_running {s : State} :
    s.runState = .running ↔ s.fatal = false ∧ Flags.running s.flags = true := by
  unfold State.runState; cases s.fatal <;> cases Flags.running s.flags <;> simp

theorem State.runState_stopped {s : State} :
    s.runState = .stopped ↔ s.fatal = false ∧ Flags.running s.flags = false := by
  unfold State.runState; cases s.fatal <;> cases Flags.running s.flags <;> simp

theorem State.runState_fatal {s : State} : s.runState = .fatal ↔ s.fatal = true := by
  unfold State.runState; cases s.fatal <;> cases Flags.running s.flags <;> simp

/-- The run state depends on the fatal bit and the flag word alone. -/
theorem State.runState_congr {s t : State} (hf : t.fatal = s.fatal) (hg : t.flags = s.flags) :
    t.runState = s.runState := by unfold State.runState; rw [hf, hg]

@[simp] theorem State.runState_emit (s : State) (e : Event) : (s.emit e).runState = s.runState := rfl

@[simp] theorem State.runState_retire (s : State) (u : PcUpdate) : (s.retire u).runState = s.runState :=
  State.runState_congr (by simp) (by simp)

@[simp] theorem State.runState_setPhase (s : State) (p : Phase) : (s.setPhase p).runState = s.runState := rfl

@[simp] theorem State.runState_storeCell (s : State) (a : Nat) (v : Word) : (s.storeCell a v).runState = s.runState := rfl

@[simp] theorem State.runState_writeReg (s : State) (i : Fin 16) (v : Word) :
    (s.writeReg i v).runState = s.runState := rfl

/-! ### The flag word -/

@[simp] theorem Flags.running_clearRunning (f : FlagWord) : Flags.running (Flags.clearRunning f) = false := by
  simp [Flags.running, Flags.clearRunning]

@[simp] theorem Flags.running_setRunning (f : FlagWord) : Flags.running (Flags.setRunning f) = true := by
  simp [Flags.running, Flags.setRunning]

/-- Clearing Running keeps the other 15 bits (10_state.md rules R30 to R32). -/
theorem Flags.getLsbD_clearRunning (f : FlagWord) {k : Nat} (h : k ≠ 0) :
    (Flags.clearRunning f).getLsbD k = f.getLsbD k := by
  have bits : ∀ j : Fin 16, j.val ≠ 0 → (0xFFFE#16).getLsbD j.val = true := by decide
  unfold Flags.clearRunning
  rw [BitVec.getLsbD_and]
  by_cases hk : k < 16
  · rw [show (0xFFFE : FlagWord).getLsbD k = true from bits ⟨k, hk⟩ h, Bool.and_true]
  · rw [BitVec.getLsbD_of_ge f k (by omega)]; rfl

end Sys2Proof.Machine
end

