-- ==== Sys2Proof/Laws/Ops.lean ====
section
/-! SUPPORT. The shared operations. For each there is one lemma `…_cases` that says once everything it can answer, in the
form of a case analysis for any property of the answer, and equations for the single cases. -/

namespace Sys2Proof.Machine

open Sys2Proof

/-! ### The memory ports -/

theorem memRead_cases {Q : Out → Prop} {access : Access} {addr : Word} {s : State} {k : Word → State → Out}
    (absent : s.present.memRead = false → Q (raiseStop (.memoryCallbackAbsent .read access addr s.pc) s))
    (outOfBounds : s.present.memRead = true → s.readAnswer addr = .outOfBounds →
      Q (raiseStop (.memoryOutOfBounds access addr s.pc) (s.emit (.memRead addr none))))
    (never : s.present.memRead = true → s.readAnswer addr = .never →
      Q (.next ((s.emit (.memReadUnanswered addr)).setPhase .waiting)))
    (ok : ∀ w, s.present.memRead = true → s.readAnswer addr = .word w →
      Q (k w (s.emit (.memRead addr (some w))))) :
    Q (memRead access addr s k) := by
  unfold memRead
  split
  · split
    · exact ok _ ‹_› ‹_›
    · exact outOfBounds ‹_› ‹_›
    · exact never ‹_› ‹_›
  · rename_i h; exact absent (by simpa using h)

theorem memRead_ok {access : Access} {addr w : Word} {s : State} {k : Word → State → Out}
    (hp : s.present.memRead = true) (hr : s.readAnswer addr = .word w) :
    memRead access addr s k = k w (s.emit (.memRead addr (some w))) := by
  unfold memRead; rw [if_pos hp, hr]

theorem memRead_outOfBounds {access : Access} {addr : Word} {s : State} {k : Word → State → Out}
    (hp : s.present.memRead = true) (hr : s.readAnswer addr = .outOfBounds) :
    memRead access addr s k =
      raiseStop (.memoryOutOfBounds access addr s.pc) (s.emit (.memRead addr none)) := by
  unfold memRead; rw [if_pos hp, hr]

theorem memRead_never {access : Access} {addr : Word} {s : State} {k : Word → State → Out}
    (hp : s.present.memRead = true) (hr : s.readAnswer addr = .never) :
    memRead access addr s k = .next ((s.emit (.memReadUnanswered addr)).setPhase .waiting) := by
  unfold memRead; rw [if_pos hp, hr]; rfl

theorem memRead_absent {access : Access} {addr : Word} {s : State} {k : Word → State → Out}
    (hp : s.present.memRead = false) :
    memRead access addr s k = raiseStop (.memoryCallbackAbsent .read access addr s.pc) s := by
  unfold memRead; rw [if_neg (by simp [hp])]

theorem memWrite_cases {Q : Out → Prop} {access : Access} {addr v : Word} {s : State} {k : State → Out}
    (absent : s.present.memWrite = false → Q (raiseStop (.memoryCallbackAbsent .write access addr s.pc) s))
    (outOfBounds : s.present.memWrite = true → s.writeAnswer addr = .outOfBounds →
      Q (raiseStop (.memoryOutOfBounds access addr s.pc) (s.emit (.memWrite addr v false))))
    (never : s.present.memWrite = true → s.writeAnswer addr = .never →
      Q (.next ((s.emit (.memWriteUnanswered addr v)).setPhase .waiting)))
    (ok : s.present.memWrite = true → s.writeAnswer addr = .ok →
      Q (k ((s.storeCell addr.toNat v).emit (.memWrite addr v true)))) :
    Q (memWrite access addr v s k) := by
  unfold memWrite
  split
  · split
    · exact ok ‹_› ‹_›
    · exact outOfBounds ‹_› ‹_›
    · exact never ‹_› ‹_›
  · rename_i h; exact absent (by simpa using h)

theorem memWrite_ok {access : Access} {addr v : Word} {s : State} {k : State → Out}
    (hp : s.present.memWrite = true) (hw : s.writeAnswer addr = .ok) :
    memWrite access addr v s k = k ((s.storeCell addr.toNat v).emit (.memWrite addr v true)) := by
  unfold memWrite; rw [if_pos hp, hw]

theorem memWrite_outOfBounds {access : Access} {addr v : Word} {s : State} {k : State → Out}
    (hp : s.present.memWrite = true) (hw : s.writeAnswer addr = .outOfBounds) :
    memWrite access addr v s k =
      raiseStop (.memoryOutOfBounds access addr s.pc) (s.emit (.memWrite addr v false)) := by
  unfold memWrite; rw [if_pos hp, hw]

theorem memWrite_never {access : Access} {addr v : Word} {s : State} {k : State → Out}
    (hp : s.present.memWrite = true) (hw : s.writeAnswer addr = .never) :
    memWrite access addr v s k = .next ((s.emit (.memWriteUnanswered addr v)).setPhase .waiting) := by
  unfold memWrite; rw [if_pos hp, hw]; rfl

theorem memWrite_absent {access : Access} {addr v : Word} {s : State} {k : State → Out}
    (hp : s.present.memWrite = false) :
    memWrite access addr v s k = raiseStop (.memoryCallbackAbsent .write access addr s.pc) s := by
  unfold memWrite; rw [if_neg (by simp [hp])]

/-! ### The IO and device ports -/

theorem ioResolve_cases {Q : Out → Prop} {d : Word} {s : State} {k : Capability → State → Out}
    (unbound : deviceAt d s.devices = none →
      Q (raiseStop (.ioFunctionDoesntExist d s.pc) (s.emit (.ioResolve d none))))
    (silent : ∀ dev, deviceAt d s.devices = some dev → dev.tag = none →
      Q (.next ((s.emit (.ioUnanswered d)).setPhase .waiting)))
    (ok : ∀ dev tag, deviceAt d s.devices = some dev → dev.tag = some tag →
      Q (k tag (s.emit (.ioResolve d (some tag))))) :
    Q (ioResolve d s k) := by
  unfold ioResolve
  split
  · split
    · exact ok _ _ ‹_› ‹_›
    · exact silent _ ‹_› ‹_›
  · exact unbound ‹_›

theorem ioResolve_ok {d : Word} {s : State} {k : Capability → State → Out} {dev : Device} {tag : Capability}
    (h : deviceAt d s.devices = some dev) (ht : dev.tag = some tag) :
    ioResolve d s k = k tag (s.emit (.ioResolve d (some tag))) := by unfold ioResolve; simp only [h, ht]

theorem ioResolve_silent {d : Word} {s : State} {k : Capability → State → Out} {dev : Device}
    (h : deviceAt d s.devices = some dev) (ht : dev.tag = none) :
    ioResolve d s k = .next ((s.emit (.ioUnanswered d)).setPhase .waiting) := by
  unfold ioResolve; simp only [h, ht, waitForEver]

theorem ioResolve_unbound {d : Word} {s : State} {k : Capability → State → Out}
    (h : deviceAt d s.devices = none) :
    ioResolve d s k = raiseStop (.ioFunctionDoesntExist d s.pc) (s.emit (.ioResolve d none)) := by
  unfold ioResolve; rw [h]

/-- The state after a device has answered a read request. -/
def State.afterDevRead (d : Word) (dev : Device) (s : State) : State :=
  { s with devices := setDevice d dev.answerRead.2 s.devices
           trace := .devRead d dev.answerRead.1 :: s.trace }

/-- The state after a device has answered a write request. -/
def State.afterDevWrite (d : Word) (b : Byte) (dev : Device) (s : State) : State :=
  { s with devices := setDevice d dev.answerWrite.2 s.devices
           trace := .devWrite d b dev.answerWrite.1 :: s.trace }

@[simp] theorem State.afterDevRead_flags (s : State) (d : Word) (dev : Device) : (s.afterDevRead d dev).flags = s.flags := rfl
@[simp] theorem State.afterDevRead_stack (s : State) (d : Word) (dev : Device) : (s.afterDevRead d dev).stack = s.stack := rfl
@[simp] theorem State.afterDevRead_cfg (s : State) (d : Word) (dev : Device) : (s.afterDevRead d dev).cfg = s.cfg := rfl
@[simp] theorem State.afterDevRead_present (s : State) (d : Word) (dev : Device) : (s.afterDevRead d dev).present = s.present := rfl
@[simp] theorem State.afterDevRead_fatal (s : State) (d : Word) (dev : Device) : (s.afterDevRead d dev).fatal = s.fatal := rfl
@[simp] theorem State.afterDevRead_phase (s : State) (d : Word) (dev : Device) : (s.afterDevRead d dev).phase = s.phase := rfl
@[simp] theorem State.afterDevRead_mem (s : State) (d : Word) (dev : Device) : (s.afterDevRead d dev).mem = s.mem := rfl
@[simp] theorem State.afterDevRead_reads (s : State) (d : Word) (dev : Device) : (s.afterDevRead d dev).reads = s.reads := rfl
@[simp] theorem State.afterDevRead_writes (s : State) (d : Word) (dev : Device) : (s.afterDevRead d dev).writes = s.writes := rfl
@[simp] theorem State.readAnswer_afterDevRead (s : State) (d : Word) (dev : Device) (a : Word) :
    (s.afterDevRead d dev).readAnswer a = s.readAnswer a := rfl
@[simp] theorem State.writeAnswer_afterDevRead (s : State) (d : Word) (dev : Device) (a : Word) :
    (s.afterDevRead d dev).writeAnswer a = s.writeAnswer a := rfl
@[simp] theorem State.afterDevRead_devices (s : State) (d : Word) (dev : Device) :
    (s.afterDevRead d dev).devices = setDevice d dev.answerRead.2 s.devices := rfl
@[simp] theorem State.afterDevRead_trace (s : State) (d : Word) (dev : Device) : (s.afterDevRead d dev).trace = .devRead d dev.answerRead.1 :: s.trace := rfl
@[simp] theorem State.readReg_afterDevRead (s : State) (d : Word) (dev : Device) (q : Fin 16) :
    (s.afterDevRead d dev).readReg q = s.readReg q := rfl
@[simp] theorem State.pc_afterDevRead (s : State) (d : Word) (dev : Device) : (s.afterDevRead d dev).pc = s.pc := rfl
@[simp] theorem State.runState_afterDevRead (s : State) (d : Word) (dev : Device) :
    (s.afterDevRead d dev).runState = s.runState := rfl

@[simp] theorem State.afterDevWrite_flags (s : State) (d : Word) (b : Byte) (dev : Device) : (s.afterDevWrite d b dev).flags = s.flags := rfl
@[simp] theorem State.afterDevWrite_stack (s : State) (d : Word) (b : Byte) (dev : Device) : (s.afterDevWrite d b dev).stack = s.stack := rfl
@[simp] theorem State.afterDevWrite_cfg (s : State) (d : Word) (b : Byte) (dev : Device) : (s.afterDevWrite d b dev).cfg = s.cfg := rfl
@[simp] theorem State.afterDevWrite_present (s : State) (d : Word) (b : Byte) (dev : Device) : (s.afterDevWrite d b dev).present = s.present := rfl
@[simp] theorem State.afterDevWrite_fatal (s : State) (d : Word) (b : Byte) (dev : Device) : (s.afterDevWrite d b dev).fatal = s.fatal := rfl
@[simp] theorem State.afterDevWrite_phase (s : State) (d : Word) (b : Byte) (dev : Device) : (s.afterDevWrite d b dev).phase = s.phase := rfl
@[simp] theorem State.afterDevWrite_mem (s : State) (d : Word) (b : Byte) (dev : Device) : (s.afterDevWrite d b dev).mem = s.mem := rfl
@[simp] theorem State.afterDevWrite_reads (s : State) (d : Word) (b : Byte) (dev : Device) : (s.afterDevWrite d b dev).reads = s.reads := rfl
@[simp] theorem State.afterDevWrite_writes (s : State) (d : Word) (b : Byte) (dev : Device) : (s.afterDevWrite d b dev).writes = s.writes := rfl
@[simp] theorem State.readAnswer_afterDevWrite (s : State) (d : Word) (b : Byte) (dev : Device) (a : Word) :
    (s.afterDevWrite d b dev).readAnswer a = s.readAnswer a := rfl
@[simp] theorem State.writeAnswer_afterDevWrite (s : State) (d : Word) (b : Byte) (dev : Device) (a : Word) :
    (s.afterDevWrite d b dev).writeAnswer a = s.writeAnswer a := rfl
@[simp] theorem State.afterDevWrite_devices (s : State) (d : Word) (b : Byte) (dev : Device) :
    (s.afterDevWrite d b dev).devices = setDevice d dev.answerWrite.2 s.devices := rfl
@[simp] theorem State.afterDevWrite_trace (s : State) (d : Word) (b : Byte) (dev : Device) : (s.afterDevWrite d b dev).trace = .devWrite d b dev.answerWrite.1 :: s.trace := rfl
@[simp] theorem State.readReg_afterDevWrite (s : State) (d : Word) (b : Byte) (dev : Device) (q : Fin 16) :
    (s.afterDevWrite d b dev).readReg q = s.readReg q := rfl
@[simp] theorem State.pc_afterDevWrite (s : State) (d : Word) (b : Byte) (dev : Device) : (s.afterDevWrite d b dev).pc = s.pc := rfl
@[simp] theorem State.runState_afterDevWrite (s : State) (d : Word) (b : Byte) (dev : Device) :
    (s.afterDevWrite d b dev).runState = s.runState := rfl

theorem devRead_cases {Q : Out → Prop} {d : Word} {s : State} {k : Byte → State → Out}
    (unbound : deviceAt d s.devices = none →
      Q (raiseStop (.ioReadAccessError d s.pc) (s.emit (.devRead d .fails))))
    (fails : ∀ dev, deviceAt d s.devices = some dev → dev.answerRead.1 = .fails →
      Q (raiseStop (.ioReadAccessError d s.pc) (s.afterDevRead d dev)))
    (never : ∀ dev, deviceAt d s.devices = some dev → dev.answerRead.1 = .never →
      Q (.next ((s.afterDevRead d dev).setPhase .waiting)))
    (ok : ∀ dev b, deviceAt d s.devices = some dev → dev.answerRead.1 = .byte b →
      Q (k b (s.afterDevRead d dev))) :
    Q (devRead d s k) := by
  unfold devRead
  split
  · rename_i dev hd
    simp only
    split
    · exact ok dev _ hd ‹_›
    · exact fails dev hd ‹_›
    · exact never dev hd ‹_›
  · exact unbound ‹_›

theorem devRead_byte {d : Word} {s : State} {k : Byte → State → Out} {dev : Device} {b : Byte}
    (h : deviceAt d s.devices = some dev) (ha : dev.answerRead.1 = .byte b) :
    devRead d s k = k b (s.afterDevRead d dev) := by
  unfold devRead; rw [h]; simp only [ha, State.afterDevRead]

theorem devRead_fails {d : Word} {s : State} {k : Byte → State → Out} {dev : Device}
    (h : deviceAt d s.devices = some dev) (ha : dev.answerRead.1 = .fails) :
    devRead d s k = raiseStop (.ioReadAccessError d s.pc) (s.afterDevRead d dev) := by
  unfold devRead; rw [h]; simp only [ha, State.afterDevRead]

theorem devRead_never {d : Word} {s : State} {k : Byte → State → Out} {dev : Device}
    (h : deviceAt d s.devices = some dev) (ha : dev.answerRead.1 = .never) :
    devRead d s k = .next ((s.afterDevRead d dev).setPhase .waiting) := by
  unfold devRead; rw [h]; simp only [ha, State.afterDevRead, waitForEver]

theorem devWrite_cases {Q : Out → Prop} {d : Word} {b : Byte} {addr : Word} {s : State} {k : State → Out}
    (unbound : deviceAt d s.devices = none →
      Q (raiseStop (.ioWriteAccessError d b addr s.pc) (s.emit (.devWrite d b .fails))))
    (fails : ∀ dev, deviceAt d s.devices = some dev → dev.answerWrite.1 = .fails →
      Q (raiseStop (.ioWriteAccessError d b addr s.pc) (s.afterDevWrite d b dev)))
    (never : ∀ dev, deviceAt d s.devices = some dev → dev.answerWrite.1 = .never →
      Q (.next ((s.afterDevWrite d b dev).setPhase .waiting)))
    (ok : ∀ dev, deviceAt d s.devices = some dev → dev.answerWrite.1 = .accepts →
      Q (k (s.afterDevWrite d b dev))) :
    Q (devWrite d b addr s k) := by
  unfold devWrite
  split
  · rename_i dev hd
    simp only
    split
    · exact ok dev hd ‹_›
    · exact fails dev hd ‹_›
    · exact never dev hd ‹_›
  · exact unbound ‹_›

theorem devWrite_accepts {d : Word} {b : Byte} {addr : Word} {s : State} {k : State → Out} {dev : Device}
    (h : deviceAt d s.devices = some dev) (ha : dev.answerWrite.1 = .accepts) :
    devWrite d b addr s k = k (s.afterDevWrite d b dev) := by
  unfold devWrite; rw [h]; simp only [ha, State.afterDevWrite]

theorem devWrite_fails {d : Word} {b : Byte} {addr : Word} {s : State} {k : State → Out} {dev : Device}
    (h : deviceAt d s.devices = some dev) (ha : dev.answerWrite.1 = .fails) :
    devWrite d b addr s k = raiseStop (.ioWriteAccessError d b addr s.pc) (s.afterDevWrite d b dev) := by
  unfold devWrite; rw [h]; simp only [ha, State.afterDevWrite]

theorem devWrite_never {d : Word} {b : Byte} {addr : Word} {s : State} {k : State → Out} {dev : Device}
    (h : deviceAt d s.devices = some dev) (ha : dev.answerWrite.1 = .never) :
    devWrite d b addr s k = .next ((s.afterDevWrite d b dev).setPhase .waiting) := by
  unfold devWrite; rw [h]; simp only [ha, State.afterDevWrite, waitForEver]

/-! ### Operands -/

theorem withReg_cases {Q : Out → Prop} {slot : Fin 3} {v : Slot} {s : State} {k : Fin 16 → Out}
    (outOfRange : 16 ≤ v.toNat → Q (raiseFatal (.registerIndexOutOfRange slot v s.pc) s))
    (ok : ∀ r : Fin 16, v.toNat = r.val → Q (k r)) : Q (withReg slot v s k) := by
  unfold withReg
  split
  · exact ok _ rfl
  · exact outOfRange (by omega)

/-- A slot that holds a register's number names that register. -/
theorem withReg_ok {slot : Fin 3} {v : Slot} {s : State} {k : Fin 16 → Out} {r : Fin 16}
    (h : v.toNat = r.val) : withReg slot v s k = k r := by
  unfold withReg
  rw [dif_pos (by omega)]
  exact congrArg k (Fin.ext h)

theorem withReg_outOfRange {slot : Fin 3} {v : Slot} {s : State} {k : Fin 16 → Out} (h : 16 ≤ v.toNat) :
    withReg slot v s k = raiseFatal (.registerIndexOutOfRange slot v s.pc) s := by
  unfold withReg
  rw [dif_neg (by omega)]

theorem withRegs_ok {a0 a1 : Slot} {s : State} {k : Fin 16 → Fin 16 → Out} {d r : Fin 16}
    (h0 : a0.toNat = d.val) (h1 : a1.toNat = r.val) : withRegs a0 a1 s k = k d r := by
  unfold withRegs
  rw [withReg_ok h0, withReg_ok h1]

theorem zext64_eq (v : Slot) : zext64 v = BitVec.ofNat 64 v.toNat := by
  apply BitVec.eq_of_toNat_eq
  simp [zext64]

@[simp] theorem toNat_zext64 (v : Slot) : (zext64 v).toNat = v.toNat := by
  have := v.isLt
  rw [zext64, BitVec.toNat_setWidth, Nat.mod_eq_of_lt (by omega)]

theorem zextByte_eq (b : Byte) : zextByte b = BitVec.ofNat 64 b.toNat := by
  apply BitVec.eq_of_toNat_eq
  simp [zextByte]

theorem lowByte_eq (c : Word) : lowByte c = BitVec.ofNat 8 c.toNat := by
  apply BitVec.eq_of_toNat_eq
  simp [lowByte]

/-! ### The ends of the instructions -/

theorem finishArith_cases {Q : Out → Prop} {o : Opcode} {d : Fin 16} {e : Int} {s : State}
    (overflow : s.cfg.arithOverflow = .fatal → (e < 0 ∨ 2 ^ 64 ≤ e) →
      Q (raiseFatal (.arithmeticOverflow o s.pc) s))
    (ok : (s.cfg.arithOverflow = .wrap ∨ (0 ≤ e ∧ e < 2 ^ 64)) → Q (writeAndNext d (BitVec.ofInt 64 e) s)) :
    Q (finishArith o d e s) := by
  unfold finishArith
  split
  · rename_i h; exact overflow h.1 h.2
  · rename_i h
    refine ok ?_
    cases hc : s.cfg.arithOverflow
    · exact .inl rfl
    · rw [hc] at h; right
      simp only [true_and, not_or] at h
      omega

theorem finishArith_ok {o : Opcode} {d : Fin 16} {e : Int} {s : State}
    (h : s.cfg.arithOverflow = .wrap ∨ (0 ≤ e ∧ e < 2 ^ 64)) :
    finishArith o d e s = writeAndNext d (BitVec.ofInt 64 e) s := by
  unfold finishArith
  rw [if_neg]
  rintro ⟨h1, h2⟩
  rcases h with h | h
  · rw [h] at h1; cases h1
  · omega

theorem finishArith_overflow {o : Opcode} {d : Fin 16} {e : Int} {s : State}
    (h : s.cfg.arithOverflow = .fatal) (he : e < 0 ∨ 2 ^ 64 ≤ e) :
    finishArith o d e s = raiseFatal (.arithmeticOverflow o s.pc) s := by
  unfold finishArith
  rw [if_pos ⟨h, he⟩]

theorem finishDivide_cases {Q : Out → Prop} {o : Opcode} {d : Fin 16} {n m : Word} {s : State}
    (zeroFatal : m = 0 → s.cfg.div0Class = .fatal → Q (raiseFatal (.divideByZero o s.pc) s))
    (zeroStop : m = 0 → s.cfg.div0Class = .stop → Q (raiseStop (.divideByZero o s.pc) s))
    (ok : m ≠ 0 → Q (writeAndNext d (BitVec.ofNat 64 (n.toNat / m.toNat)) s)) :
    Q (finishDivide o d n m s) := by
  unfold finishDivide
  split
  · unfold raiseDivideByZero
    split
    · exact zeroFatal ‹_› ‹_›
    · exact zeroStop ‹_› ‹_›
  · exact ok ‹_›

/-! ### Syscall -/

@[simp] theorem sysDescReg_eq : Config.sysDescReg = 3 := rfl

@[simp] theorem sysPtrReg_eq : Config.sysPtrReg = 4 := rfl

theorem execSyscall_unbound {s : State} (h : s.present.io = true)
    (hd : deviceAt (s.readReg 3) s.devices = none) :
    execSyscall s = raiseStop (.ioFunctionDoesntExist (s.readReg 3) s.pc)
      (s.emit (.ioResolve (s.readReg 3) none)) := by
  unfold execSyscall; rw [if_pos h, sysDescReg_eq, ioResolve_unbound hd]

theorem execSyscall_reader {s : State} {dev : Device} (h : s.present.io = true)
    (hd : deviceAt (s.readReg 3) s.devices = some dev) (ht : dev.tag = some .read) :
    execSyscall s =
      landByte (s.readReg 3) (s.readReg 4) (s.emit (.ioResolve (s.readReg 3) (some .read))) := by
  unfold execSyscall; rw [if_pos h, sysDescReg_eq, ioResolve_ok hd ht]; rfl

theorem execSyscall_writer {s : State} {dev : Device} (h : s.present.io = true)
    (hd : deviceAt (s.readReg 3) s.devices = some dev) (ht : dev.tag = some .write) :
    execSyscall s =
      traverseCell (s.readReg 3) (s.readReg 4) (s.emit (.ioResolve (s.readReg 3) (some .write))) := by
  unfold execSyscall; rw [if_pos h, sysDescReg_eq, ioResolve_ok hd ht]; rfl

theorem execSyscall_silent {s : State} {dev : Device} (h : s.present.io = true)
    (hd : deviceAt (s.readReg 3) s.devices = some dev) (ht : dev.tag = none) :
    execSyscall s = .next ((s.emit (.ioUnanswered (s.readReg 3))).setPhase .waiting) := by
  unfold execSyscall; rw [if_pos h, sysDescReg_eq, ioResolve_silent hd ht]

theorem execSyscall_absent {s : State} (h : s.present.io = false) :
    execSyscall s = .next ((s.emit (.report (.ioCallbackAbsent s.pc))).retire .next) := by
  unfold execSyscall; rw [if_neg (by simp [h])]

theorem execSyscall_cases {Q : Out → Prop} {s : State}
    (absent : s.present.io = false →
      Q (.next ((s.emit (.report (.ioCallbackAbsent s.pc))).retire .next)))
    (unbound : s.present.io = true → deviceAt (s.readReg 3) s.devices = none →
      Q (raiseStop (.ioFunctionDoesntExist (s.readReg 3) s.pc) (s.emit (.ioResolve (s.readReg 3) none))))
    (silent : ∀ dev, s.present.io = true → deviceAt (s.readReg 3) s.devices = some dev → dev.tag = none →
      Q (.next ((s.emit (.ioUnanswered (s.readReg 3))).setPhase .waiting)))
    (reader : ∀ dev, s.present.io = true → deviceAt (s.readReg 3) s.devices = some dev → dev.tag = some .read →
      Q (landByte (s.readReg 3) (s.readReg 4) (s.emit (.ioResolve (s.readReg 3) (some .read)))))
    (writer : ∀ dev, s.present.io = true → deviceAt (s.readReg 3) s.devices = some dev → dev.tag = some .write →
      Q (traverseCell (s.readReg 3) (s.readReg 4) (s.emit (.ioResolve (s.readReg 3) (some .write))))) :
    Q (execSyscall s) := by
  cases h : s.present.io with
  | false => rw [execSyscall_absent h]; exact absent h
  | true =>
    cases hd : deviceAt (s.readReg 3) s.devices with
    | none => rw [execSyscall_unbound h hd]; exact unbound h hd
    | some dev =>
      cases ht : dev.tag with
      | none => rw [execSyscall_silent h hd ht]; exact silent dev h hd ht
      | some tag =>
        cases tag with
        | read => rw [execSyscall_reader h hd ht]; exact reader dev h hd ht
        | write => rw [execSyscall_writer h hd ht]; exact writer dev h hd ht

/-! ### The cycle -/

/-- What a step of a Running core before a fetch does, said once (10_state.md rule R41). -/
theorem cycleWith_cases {Q : Out → Prop} {run : Instr → State → Out} {s : State}
    (absent : s.present.memRead = false → Q (raiseStop (.memoryCallbackAbsent .read .fetch s.pc s.pc) s))
    (outOfBounds : s.present.memRead = true → s.readAnswer s.pc = .outOfBounds →
      Q (raiseStop (.memoryOutOfBounds .fetch s.pc s.pc) (s.emit (.memRead s.pc none))))
    (never : s.present.memRead = true → s.readAnswer s.pc = .never →
      Q (.next ((s.emit (.memReadUnanswered s.pc)).setPhase .waiting)))
    (unknown : ∀ w op, s.present.memRead = true → s.readAnswer s.pc = .word w → decode w = .unknownOpcode op →
      Q (raiseFatal (.unknownOpcode op s.pc) (s.emit (.memRead s.pc (some w)))))
    (ok : ∀ w i, s.present.memRead = true → s.readAnswer s.pc = .word w → decode w = .instr i →
      Q (run i (s.emit (.memRead s.pc (some w))))) :
    Q (cycleWith run s) := by
  refine memRead_cases absent outOfBounds never fun w hp hr => ?_
  split
  · exact ok w _ hp hr ‹_›
  · exact unknown w _ hp hr ‹_›

/-- What a step does, said once, by the run state and the phase (10_state.md rules R37 to R41). -/
theorem stepWith_cases {Q : Out → Prop} {run : Instr → State → Out} {s : State}
    (fatal : s.runState = .fatal → Q (.fault .coreIsFatal))
    (stopped : s.runState = .stopped → Q (.next s))
    (waiting : s.runState = .running → s.phase = .waiting → Q (.next s))
    (traverse : ∀ d a, s.runState = .running → s.phase = .traverse d a → Q (traverseCell d a s))
    (fetch : s.runState = .running → s.phase = .fetch → Q (cycleWith run s)) :
    Q (stepWith run s) := by
  unfold stepWith
  split
  · exact fatal ‹_›
  · exact stopped ‹_›
  · split
    · exact fetch ‹_› ‹_›
    · exact traverse _ _ ‹_› ‹_›
    · exact waiting ‹_› ‹_›

theorem stepWith_fetch {run : Instr → State → Out} {s : State} (h : s.runState = .running)
    (hp : s.phase = .fetch) : stepWith run s = cycleWith run s := by unfold stepWith; rw [h, hp]

theorem stepWith_traverse {run : Instr → State → Out} {s : State} {d a : Word} (h : s.runState = .running)
    (hp : s.phase = .traverse d a) : stepWith run s = traverseCell d a s := by unfold stepWith; rw [h, hp]

theorem stepWith_waiting {run : Instr → State → Out} {s : State} (h : s.runState = .running)
    (hp : s.phase = .waiting) : stepWith run s = .next s := by unfold stepWith; rw [h, hp]

theorem stepWith_stopped {run : Instr → State → Out} {s : State} (h : s.runState = .stopped) :
    stepWith run s = .next s := by unfold stepWith; rw [h]

theorem stepWith_fatal {run : Instr → State → Out} {s : State} (h : s.runState = .fatal) :
    stepWith run s = .fault .coreIsFatal := by unfold stepWith; rw [h]

end Sys2Proof.Machine
end

