-- ==== Sys2Proof/Laws/Frames.lean ====
section
/-! SUPPORT. The frames of the shared operations, in the terms of Safety.lean: what the end of an instruction changes and
what it leaves, and the same of the two kinds of fault. -/

namespace Sys2Proof.Machine

open Sys2Proof Sys2Proof.Safety

/-! ### What the ports alone can change -/

/-- The state with other devices and more events, newest first, the memory responders having answered the requests among
them. -/
def State.via (ds : List Binding) (es : List Event) (s : State) : State :=
  { s with devices := ds, trace := es ++ s.trace
           reads := s.reads.after (memRequests .read es)
           writes := s.writes.after (memRequests .write es) }

section
variable (s : State) (ds : List Binding) (es : List Event)
@[simp] theorem State.via_x : (s.via ds es).x = s.x := rfl
@[simp] theorem State.via_flags : (s.via ds es).flags = s.flags := rfl
@[simp] theorem State.via_stack : (s.via ds es).stack = s.stack := rfl
@[simp] theorem State.via_cfg : (s.via ds es).cfg = s.cfg := rfl
@[simp] theorem State.via_present : (s.via ds es).present = s.present := rfl
@[simp] theorem State.via_fatal : (s.via ds es).fatal = s.fatal := rfl
@[simp] theorem State.via_phase : (s.via ds es).phase = s.phase := rfl
@[simp] theorem State.via_mem : (s.via ds es).mem = s.mem := rfl
@[simp] theorem State.via_reads : (s.via ds es).reads = s.reads.after (memRequests .read es) := rfl
@[simp] theorem State.via_writes : (s.via ds es).writes = s.writes.after (memRequests .write es) := rfl
@[simp] theorem State.via_devices : (s.via ds es).devices = ds := rfl
@[simp] theorem State.via_trace : (s.via ds es).trace = es ++ s.trace := rfl
@[simp] theorem State.readReg_via (q : Fin 16) : (s.via ds es).readReg q = s.readReg q := rfl
@[simp] theorem State.pc_via : (s.via ds es).pc = s.pc := rfl
@[simp] theorem State.runState_via : (s.via ds es).runState = s.runState := rfl
end

@[simp] theorem memRequests_nil (p : MemPort) : memRequests p [] = 0 := rfl

@[simp] theorem memRequests_cons (p : MemPort) (e : Event) (es : List Event) :
    memRequests p (e :: es) = e.requestsOn p + memRequests p es := rfl

@[simp] theorem memRequests_append (p : MemPort) (a b : List Event) :
    memRequests p (a ++ b) = memRequests p a + memRequests p b := by
  induction a with
  | nil => simp
  | cons e a ih => rw [List.cons_append, memRequests_cons, memRequests_cons, ih]; omega

theorem State.via_nil (s : State) : s.via s.devices [] = s := rfl

theorem State.emit_eq_via (s : State) (e : Event) : s.emit e = s.via s.devices [e] := rfl

theorem State.via_via (s : State) (ds ds' : List Binding) (es es' : List Event) :
    (s.via ds es).via ds' es' = s.via ds' (es' ++ es) := by
  simp [State.via, Nat.add_comm]

end Sys2Proof.Machine

namespace Sys2Proof.Safety

open Sys2Proof Sys2Proof.Machine

/-- A Fatal-class fault ends as `EndsFatal` says. -/
theorem endsFatal_raiseFatal (r : Report) (s : State) : EndsFatal r s (raiseFatal r s) :=
  ⟨s.enterFatal r, rfl, rfl, rfl⟩

/-- A recoverable fault, raised in a state that differs from `s` by devices and events alone, stops as `StopsWith`
says. -/
theorem stopsWith_stopWith (r : Report) (s : State) (devices : List Binding) (events : List Event) :
    StopsWith r devices events s ((s.via devices events).stopWith r) :=
  { regs := fun _ => rfl, running := Flags.running_clearRunning s.flags,
          flags := fun _ hk => Flags.getLsbD_clearRunning s.flags hk, stack := rfl, cfg := rfl, present := rfl,
          fatal := rfl, phase := rfl, mem := fun _ => rfl, reads := rfl, writes := rfl, devices := rfl, trace := rfl }

/-- Writing a register and going on, from a state that differs from `s` by events alone. -/
theorem writesReg_writeAndNext (d : Fin 16) (v : Word) (events : List Event) (s : State) :
    ∃ t, writeAndNext d v (s.via s.devices events) = .next t ∧ WritesReg d v events s t := by
  refine ⟨_, rfl, ?_, ?_, ?_⟩
  · intro hd
    refine ⟨?_, ?_⟩
    · rw [State.readReg_retire_other _ _ (by exact hd), State.readReg_writeReg_self]
    · rw [State.pc_retire_next, State.pc_writeReg, State.via_cfg, if_neg (Ne.symm hd), State.pc_via]
  · rintro rfl
    rw [State.pc_retire_next, State.pc_writeReg, State.via_cfg, if_pos rfl]
  · exact { regs := fun r hr => by
              simp only [List.mem_cons, List.not_mem_nil, or_false, not_or] at hr
              rw [State.readReg_retire_other _ _ (by exact hr.2), State.readReg_writeReg_other _ _ (by exact hr.1)]; rfl
            flags := by simp, stack := by simp, cfg := by simp, present := by simp, fatal := by simp,
            phase := by simp, mem := fun _ _ => by simp, reads := by simp, writes := by simp, devices := by simp, trace := by simp }

/-- The program-counter update alone. -/
theorem writesPc_retire (u : PcUpdate) (s : State) : WritesPc (s.retire u).pc s (s.retire u) :=
  ⟨rfl,
    { regs := fun r hr => State.readReg_retire_other _ _ (by simpa using hr)
      flags := by simp, stack := by simp, cfg := by simp, present := by simp, fatal := by simp,
      phase := by simp, mem := fun _ _ => by simp, reads := by simp, writes := by simp, devices := by simp, trace := by simp }⟩

/-- An instruction that reads two register slots first makes the index checks of `ChecksSlots01`. -/
theorem checksSlots01_of_withRegs {mk : Slot → Slot → Instr}
    (h : ∀ a0 a1 s, ∃ k, exec (mk a0 a1) s = withRegs a0 a1 s k) : ChecksSlots01 mk := by
  intro a0 a1 s
  obtain ⟨k, h⟩ := h a0 a1 s
  rw [h, withRegs]
  refine ⟨fun h0 => ?_, fun h0 h1 => ?_⟩
  · rw [withReg_outOfRange h0]; exact endsFatal_raiseFatal _ _
  · rw [withReg_ok (r := ⟨a0.toNat, h0⟩) rfl, withReg_outOfRange h1]; exact endsFatal_raiseFatal _ _

/-- An instruction that reads one register slot first makes the index check of `ChecksSlot0`. -/
theorem checksSlot0_of_withReg {mk : Slot → Instr}
    (h : ∀ a0 s, ∃ k, exec (mk a0) s = withReg 0 a0 s k) : ChecksSlot0 mk := by
  intro a0 s h0
  obtain ⟨k, h⟩ := h a0 s
  rw [h, withReg_outOfRange h0]; exact endsFatal_raiseFatal _ _

/-! ### Runs -/

/-- A run of one step more begins with the step. -/
theorem core_run_next {s t : State} (n : Nat) (h : step s = .next t) :
    Host.Core.run Sys2Proof.core (n + 1) s = Host.Core.run Sys2Proof.core n t := by
  have h' : Sys2Proof.core.step s = .next t := h
  simp only [Host.Core.run, h']

@[simp] theorem core_run_zero (s : State) : Host.Core.run Sys2Proof.core 0 s = .next s := rfl

end Sys2Proof.Safety
end

