-- ==== Sys2Proof/Laws/Exec.lean ====
section
/-! SUPPORT. Everything an instruction, a cell of a traversal and a step can answer, each said once, in the form of a case
analysis for any property of the answer. The rules about the whole machine are proved from these. -/

namespace Sys2Proof.Machine

open Sys2Proof Sys2Proof.Safety

/-- The device map after at most one request: the same, or with one bound device replaced by one of the same tag. -/
def DevicesAdvance (old new : List Binding) : Prop :=
  new = old ∨ ∃ d dev dev', deviceAt d old = some dev ∧ dev'.tag = dev.tag ∧ new = setDevice d dev' old

theorem DevicesAdvance.refl (old : List Binding) : DevicesAdvance old old := .inl rfl

theorem devicesAdvance_answerRead {d : Word} {old : List Binding} {dev : Device} (h : deviceAt d old = some dev) :
    DevicesAdvance old (setDevice d dev.answerRead.2 old) :=
  .inr ⟨d, dev, _, h, dev.tag_answerRead, rfl⟩

theorem devicesAdvance_answerWrite {d : Word} {old : List Binding} {dev : Device} (h : deviceAt d old = some dev) :
    DevicesAdvance old (setDevice d dev.answerWrite.2 old) :=
  .inr ⟨d, dev, _, h, dev.tag_answerWrite, rfl⟩

theorem DevicesAdvance.bindingsFrom {old new : List Binding} (h : DevicesAdvance old new) {lo : Nat}
    (hb : bindingsFrom lo old = true) : bindingsFrom lo new = true := by
  obtain rfl | ⟨d, dev, dev', -, -, rfl⟩ := h
  · exact hb
  · exact bindingsFrom_setDevice d dev' hb

/-- No descriptor changes its binding or the tag it resolves to. -/
theorem DevicesAdvance.tag {old new : List Binding} (h : DevicesAdvance old new) (e : Word) :
    (deviceAt e new).map Device.tag = (deviceAt e old).map Device.tag := by
  obtain rfl | ⟨d, dev, dev', hd, ht, rfl⟩ := h
  · rfl
  · by_cases he : e = d
    · subst he; rw [deviceAt_setDevice_same dev' hd, hd]; simp [ht]
    · rw [deviceAt_setDevice_other dev' he]

/-- One cell of a Write traversal. -/
theorem traverseCell_cases {Q : Out → Prop} {d a : Word} {s : State}
    (stop : ∀ r ds es, recoverable s.cfg r = true → DevicesAdvance s.devices ds → es.length ≤ 2 →
      Q (.next ((s.via ds es).stopWith r)))
    (finish : ∀ es, es.length ≤ 1 → Q (.next (((s.via s.devices es).setPhase .fetch).retire .next)))
    (waiting : ∀ ds es, DevicesAdvance s.devices ds → es.length ≤ 2 →
      Q (.next ((s.via ds es).setPhase .waiting)))
    (more : ∀ ds es, DevicesAdvance s.devices ds → es.length ≤ 2 →
      Q (.next ((s.via ds es).setPhase (.traverse d (a + 1))))) :
    Q (traverseCell d a s) := by
  unfold traverseCell
  refine memRead_cases (fun _ => stop _ s.devices [] rfl (.refl _) (by simp))
    (fun _ _ => stop _ s.devices [.memRead a none] rfl (.refl _) (by simp))
    (fun _ _ => waiting s.devices [.memReadUnanswered a] (.refl _) (by simp)) fun c _ _ => ?_
  split
  · exact finish [.memRead a (some c)] (by simp)
  · refine devWrite_cases
      (fun _ => stop _ s.devices [.devWrite d (lowByte c) .fails, .memRead a (some c)] rfl (.refl _) (by simp))
      (fun dev hd _ => stop _ _ [.devWrite d (lowByte c) dev.answerWrite.1, .memRead a (some c)] rfl
        (devicesAdvance_answerWrite hd) (by simp))
      (fun dev hd _ => waiting _ [.devWrite d (lowByte c) dev.answerWrite.1, .memRead a (some c)]
        (devicesAdvance_answerWrite hd) (by simp))
      (fun dev hd _ => more _ [.devWrite d (lowByte c) dev.answerWrite.1, .memRead a (some c)]
        (devicesAdvance_answerWrite hd) (by simp))

/-- Everything an instruction can answer. -/
theorem exec_cases {Q : Out → Prop} {i : Instr} {s : State}
    (fatal : ∀ r, fatalClass s.cfg r = true → Q (raiseFatal r s))
    (stop : ∀ r ds es, recoverable s.cfg r = true → DevicesAdvance s.devices ds → es.length ≤ 3 →
      Q (.next ((s.via ds es).stopWith r)))
    (write : ∀ d v es, destReg i = some d → es.length ≤ 1 → Q (writeAndNext d v (s.via s.devices es)))
    (pc : ∀ u es, i ≠ .halt → es.length ≤ 1 → Q (.next ((s.via s.devices es).retire u)))
    (store : ∀ a0 addr v es, i = .store a0 addr → es.length ≤ 1 →
      Q (.next (((s.via s.devices es).storeCell addr.toNat v).retire .next)))
    (halt : i = .halt → Q (.next { s with flags := Flags.clearRunning s.flags }))
    (land : ∀ dev v ds es, i = .syscall → s.present.io = true → deviceAt (s.readReg 3) s.devices = some dev →
      dev.tag = some .read → DevicesAdvance s.devices ds → es.length ≤ 3 →
      Q (.next ((((s.via ds es).storeCell (s.readReg 4).toNat v).setPhase .fetch).retire .next)))
    (finish : ∀ es, i = .syscall → es.length ≤ 2 →
      Q (.next (((s.via s.devices es).setPhase .fetch).retire .next)))
    (waiting : ∀ ds es, i ≠ .halt → DevicesAdvance s.devices ds → es.length ≤ 3 →
      Q (.next ((s.via ds es).setPhase .waiting)))
    (more : ∀ d a ds es, i = .syscall → DevicesAdvance s.devices ds → es.length ≤ 3 →
      Q (.next ((s.via ds es).setPhase (.traverse d a)))) :
    Q (exec i s) := by
  have reg : ∀ {slot : Fin 3} {v : Slot} {k : Fin 16 → Out}, (∀ r : Fin 16, v.toNat = r.val → Q (k r)) →
      Q (withReg slot v s k) := fun hk => withReg_cases (fun _ => fatal _ rfl) hk
  have regs : ∀ {a0 a1 : Slot} {k : Fin 16 → Fin 16 → Out},
      (∀ d r : Fin 16, a0.toNat = d.val → a1.toNat = r.val → Q (k d r)) → Q (withRegs a0 a1 s k) :=
    fun hk => reg fun d hd => reg fun r hr => hk d r hd hr
  have dest : ∀ {a0 : Slot} {d : Fin 16}, a0.toNat = d.val → slotReg a0 = some d := by
    intro a0 d h
    unfold slotReg
    rw [dif_pos (by omega)]
    exact congrArg some (Fin.ext h)
  have arith : ∀ {o : Opcode} {d : Fin 16} {e : Int}, destReg i = some d → Q (finishArith o d e s) :=
    fun hd => finishArith_cases (fun hc _ => fatal _ (by simp [fatalClass, hc])) fun _ => write _ _ [] hd (by simp)
  have divide : ∀ {o : Opcode} {d : Fin 16} {n m : Word}, destReg i = some d → Q (finishDivide o d n m s) :=
    fun hd => finishDivide_cases (fun _ hc => fatal _ (by simp [fatalClass, hc]))
      (fun _ hc => stop _ s.devices [] (by simp [recoverable, hc]) (.refl _) (by simp)) fun _ => write _ _ [] hd (by simp)
  cases i with
  | nop => exact pc .next [] (by simp) (by simp)
  | add a0 a1 => unfold exec execAdd; exact regs fun d r h0 _ => arith (dest h0)
  | sub a0 a1 => unfold exec execSub; exact regs fun d r h0 _ => arith (dest h0)
  | mul a0 a1 => unfold exec execMul; exact regs fun d r h0 _ => arith (dest h0)
  | div a0 a1 => unfold exec execDiv; exact regs fun d r h0 _ => divide (dest h0)
  | addi a0 imm => unfold exec execAddi; exact reg fun d h0 => arith (dest h0)
  | subi a0 imm => unfold exec execSubi; exact reg fun d h0 => arith (dest h0)
  | muli a0 imm => unfold exec execMuli; exact reg fun d h0 => arith (dest h0)
  | divi a0 imm => unfold exec execDivi; exact reg fun d h0 => divide (dest h0)
  | mov a0 a1 => unfold exec execMov; exact regs fun d r h0 _ => write d _ [] (dest h0) (by simp)
  | movi a0 imm => unfold exec execMovi; exact reg fun d h0 => write d _ [] (dest h0) (by simp)
  | load a0 addr =>
    unfold exec execLoad
    exact reg fun d h0 => memRead_cases (fun _ => stop _ s.devices [] rfl (.refl _) (by simp))
      (fun _ _ => stop _ s.devices [.memRead (zext64 addr) none] rfl (.refl _) (by simp))
      (fun _ _ => waiting s.devices [.memReadUnanswered (zext64 addr)] (by simp) (.refl _) (by simp))
      fun v _ _ => write d v [.memRead (zext64 addr) (some v)] (dest h0) (by simp)
  | store a0 addr =>
    unfold exec execStore
    exact reg fun r _ => memWrite_cases (fun _ => stop _ s.devices [] rfl (.refl _) (by simp))
      (fun _ _ => stop _ s.devices [.memWrite (zext64 addr) (s.readReg r) false] rfl (.refl _) (by simp))
      (fun _ _ => waiting s.devices [.memWriteUnanswered (zext64 addr) (s.readReg r)] (by simp) (.refl _) (by simp))
      fun _ _ => by
        have := store a0 addr (s.readReg r) [.memWrite (zext64 addr) (s.readReg r) true] rfl (by simp)
        rw [← toNat_zext64 addr] at this
        exact this
  | beq a0 a1 addr => unfold exec execBeq; exact regs fun _ _ _ _ => pc _ [] (by simp) (by simp)
  | bne a0 a1 addr => unfold exec execBne; exact regs fun _ _ _ _ => pc _ [] (by simp) (by simp)
  | blt a0 a1 addr => unfold exec execBlt; exact regs fun _ _ _ _ => pc _ [] (by simp) (by simp)
  | bgt a0 a1 addr => unfold exec execBgt; exact regs fun _ _ _ _ => pc _ [] (by simp) (by simp)
  | jmp addr => exact pc (.target (zext64 addr)) [] (by simp) (by simp)
  | jmpR a0 => unfold exec execJmpR; exact reg fun t _ => pc (.target (s.readReg t)) [] (by simp) (by simp)
  | halt => exact halt rfl
  | syscall =>
    refine execSyscall_cases (fun _ => pc .next [.report (.ioCallbackAbsent s.pc)] (by simp) (by simp))
      (fun _ _ => stop _ s.devices [.ioResolve (s.readReg 3) none] rfl (.refl _) (by simp))
      (fun _ _ _ _ => waiting s.devices [.ioUnanswered (s.readReg 3)] (by simp) (.refl _) (by simp))
      (fun dev hio hd ht => ?_) fun dev hio hd ht => ?_
    · let r : Event := .ioResolve (s.readReg 3) (some .read)
      refine devRead_cases (fun _ => stop _ s.devices [.devRead (s.readReg 3) .fails, r] rfl (.refl _) (by simp))
        (fun dev' hd' _ => stop _ _ [.devRead (s.readReg 3) dev'.answerRead.1, r] rfl (devicesAdvance_answerRead hd')
          (by simp))
        (fun dev' hd' _ => waiting _ [.devRead (s.readReg 3) dev'.answerRead.1, r] (by simp)
          (devicesAdvance_answerRead hd') (by simp)) fun dev' b hd' _ => ?_
      have hds := devicesAdvance_answerRead hd'
      let es : List Event := [.devRead (s.readReg 3) dev'.answerRead.1, r]
      exact memWrite_cases (fun _ => stop _ _ es rfl hds (by simp [es]))
        (fun _ _ => stop _ _ (.memWrite (s.readReg 4) (zextByte b) false :: es) rfl hds (by simp [es]))
        (fun _ _ => waiting _ (.memWriteUnanswered (s.readReg 4) (zextByte b) :: es) (by simp) hds (by simp [es]))
        fun _ _ => land dev _ _ (.memWrite (s.readReg 4) (zextByte b) true :: es) rfl hio hd ht hds (by simp [es])
    · refine traverseCell_cases (fun r ds es hr hds hes => ?_) (fun es hes => ?_) (fun ds es hds hes => ?_)
        fun ds es hds hes => ?_
      all_goals
        have happ : ∀ ds es, State.via ds es (State.emit (.ioResolve (s.readReg 3) (some .write)) s) =
            s.via ds (es ++ [.ioResolve (s.readReg 3) (some .write)]) := by
          intro ds es; rw [State.emit_eq_via, State.via_via]
        rw [happ]
      · exact stop r ds _ hr hds (by simp; omega)
      · exact finish _ rfl (by simp; omega)
      · exact waiting ds _ (by simp) hds (by simp; omega)
      · exact more _ _ ds _ rfl hds (by simp; omega)

theorem State.fatal_of_runState {s : State} (h : s.runState = .running) : s.fatal = false := by
  unfold State.runState at h
  split at h
  · cases h
  · simp_all

/-- Everything a step can answer; what an instruction does is `exec_cases`, and a cell `traverseCell_cases`. -/
theorem step_cases {Q : Out → Prop} {s : State}
    (fatal : s.runState = .fatal → Q (.fault .coreIsFatal))
    (idle : s.fatal = false → (s.runState = .running → s.phase = .waiting) → Q (.next s))
    (traverse : ∀ d a, s.runState = .running → s.phase = .traverse d a → Q (traverseCell d a s))
    (fetchStop : ∀ r es, s.runState = .running → s.phase = .fetch → recoverable s.cfg r = true →
      fetchedInstr s = none → es.length ≤ 1 → Q (.next ((s.via s.devices es).stopWith r)))
    (fetchWait : ∀ es, s.runState = .running → s.phase = .fetch → fetchedInstr s = none → es.length ≤ 1 →
      Q (.next ((s.via s.devices es).setPhase .waiting)))
    (unknown : ∀ op es, s.runState = .running → s.phase = .fetch →
      Q (raiseFatal (.unknownOpcode op s.pc) (s.via s.devices es)))
    (run : ∀ w i, s.runState = .running → s.phase = .fetch → fetchedInstr s = some i →
      Q (exec i (s.via s.devices [.memRead s.pc (some w)]))) :
    Q (step s) := by
  refine stepWith_cases fatal (fun h => idle ?_ (by rw [h]; nofun))
    (fun h hp => idle (State.fatal_of_runState h) fun _ => hp) traverse fun h hp => ?_
  · unfold State.runState at h
    split at h
    · cases h
    · simp_all
  · refine cycleWith_cases (fun ha => fetchStop _ [] h hp rfl ?_ (by simp))
      (fun ha hm => fetchStop _ [.memRead s.pc none] h hp rfl ?_ (by simp))
      (fun ha hm => fetchWait [.memReadUnanswered s.pc] h hp ?_ (by simp))
      (fun w op _ _ _ => unknown op [.memRead s.pc (some w)] h hp) fun w i ha hm hd => run w i h hp ?_
    all_goals simp [fetchedInstr, fetched, *]

end Sys2Proof.Machine
end

