-- ==== Sys2Proof/Laws/PerInstr.lean ====
section
/-! SUPPORT. Statements about every instruction as syntax, one lemma for each constructor of Instr. -/

namespace Sys2Proof.Laws.OpcodeField

open Sys2Proof

/-- The word of an instruction selects it by bits 15:0 alone (30_encoding.md rule R94), and its raw fields are the
instruction's (rule R91). -/
def Statement (i : Instr) : Prop :=
  (encode i).extractLsb' 0 16 = i.opcode.code ∧ (encode i).extractLsb' 16 16 = i.fields.a0

/-- Bits 15:0 and 31:16 of any word that is put together from four fields. -/
theorem of_fields (f : Fields) :
    (encodeFields f).extractLsb' 0 16 = f.op ∧ (encodeFields f).extractLsb' 16 16 = f.a0 := by
  have shift : ∀ (v : Slot) (k n : Nat), k + n < 64 → (v.setWidth 64 <<< k).getLsbD (n + k) = v.getLsbD n := by
    intro v k n h
    rw [BitVec.getLsbD_shiftLeft, BitVec.getLsbD_setWidth]
    simp [show n + k < 64 by omega, show n < 64 by omega]
  have below : ∀ (v : Slot) (k n : Nat), n < k → (v.setWidth 64 <<< k).getLsbD n = false := by
    intro v k n h
    rw [BitVec.getLsbD_shiftLeft]
    simp [h]
  refine ⟨BitVec.eq_of_getLsbD_eq fun k hk => ?_, BitVec.eq_of_getLsbD_eq fun k hk => ?_⟩
  · rw [BitVec.getLsbD_extractLsb']
    simp only [encodeFields, Config.opLsb, Config.a0Lsb, Config.a1Lsb, Config.a2Lsb, BitVec.getLsbD_or]
    rw [below f.a0 16 _ (by omega), below f.a1 32 _ (by omega), below f.a2 48 _ (by omega), Nat.add_comm 0 k,
      shift f.op 0 k (by omega)]
    simp [hk]
  · rw [BitVec.getLsbD_extractLsb']
    simp only [encodeFields, Config.opLsb, Config.a0Lsb, Config.a1Lsb, Config.a2Lsb, BitVec.getLsbD_or]
    rw [below f.a1 32 _ (by omega), below f.a2 48 _ (by omega), Nat.add_comm 16 k, shift f.a0 16 k (by omega)]
    have : (f.op.setWidth 64 <<< 0).getLsbD (k + 16) = false := by
      simp [BitVec.getLsbD_setWidth]
    rw [this]
    simp [hk]

theorem of_instr {i : Instr} (h : i.fields.op = i.opcode.code) : Statement i := by
  have := of_fields i.fields
  rwa [h] at this

theorem nop : Statement .nop := of_instr rfl
theorem add (a0 a1 : Slot) : Statement (.add a0 a1) := of_instr rfl
theorem sub (a0 a1 : Slot) : Statement (.sub a0 a1) := of_instr rfl
theorem mul (a0 a1 : Slot) : Statement (.mul a0 a1) := of_instr rfl
theorem div (a0 a1 : Slot) : Statement (.div a0 a1) := of_instr rfl
theorem addi (a0 imm : Slot) : Statement (.addi a0 imm) := of_instr rfl
theorem subi (a0 imm : Slot) : Statement (.subi a0 imm) := of_instr rfl
theorem muli (a0 imm : Slot) : Statement (.muli a0 imm) := of_instr rfl
theorem divi (a0 imm : Slot) : Statement (.divi a0 imm) := of_instr rfl
theorem mov (a0 a1 : Slot) : Statement (.mov a0 a1) := of_instr rfl
theorem movi (a0 imm : Slot) : Statement (.movi a0 imm) := of_instr rfl
theorem load (a0 addr : Slot) : Statement (.load a0 addr) := of_instr rfl
theorem store (a0 addr : Slot) : Statement (.store a0 addr) := of_instr rfl
theorem beq (a0 a1 addr : Slot) : Statement (.beq a0 a1 addr) := of_instr rfl
theorem bne (a0 a1 addr : Slot) : Statement (.bne a0 a1 addr) := of_instr rfl
theorem blt (a0 a1 addr : Slot) : Statement (.blt a0 a1 addr) := of_instr rfl
theorem bgt (a0 a1 addr : Slot) : Statement (.bgt a0 a1 addr) := of_instr rfl
theorem jmp (addr : Slot) : Statement (.jmp addr) := of_instr rfl
theorem jmpR (a0 : Slot) : Statement (.jmpR a0) := of_instr rfl
theorem halt : Statement .halt := of_instr rfl
theorem syscall : Statement .syscall := of_instr rfl

end Sys2Proof.Laws.OpcodeField
end

