-- ==== Sys2Proof/Tests/Slice0.lean ====
section
/-! SUPPORT. Tests with results from 95_test_vectors.md (the vector's name stands in the test's comment), smoke tests of
the well-formedness checks, and for every statement with hypotheses a state and operands that meet them. -/

namespace Sys2Proof.Tests

open Sys2Proof Sys2Proof.Machine Sys2Proof.Safety

/-! ### Helpers -/

/-- The spec's common setup for vectors, without its program: 64 cells, descriptor 0 a Read device with one byte `0x41`
to give, descriptor 1 a Write device, all responders, Running, program counter 10. -/
def setup : State :=
  { State.reset with
      x := (Vector.replicate 16 0).set 0 10
      flags := 0x0001
      present := { memRead := true, memWrite := true, io := true }
      mem := { regions := [{ base := 0, size := 64 }], cells := [], silent := [] }
      devices := [{ desc := 0, dev := .reader [.byte 0x41] .fails }, { desc := 1, dev := .writer [] .accepts }] }

/-- The setup with registers and cells written. -/
def withData (regs : List (Fin 16 × Word)) (cells : List (Nat × Word)) : State :=
  { setup with
      x := regs.foldl (fun x r => x.set r.1 r.2) setup.x
      mem := { setup.mem with cells := cells.foldl (fun l c => Memory.update c.1 c.2 l) [] } }

/-- The setup with registers written and the word `w` at cell 10. -/
def at10 (w : Word) (regs : List (Fin 16 × Word)) : State := withData regs [(10, w)]

def nextOf : Out → Option State
  | .next t => some t
  | .fault _ => none
  | .refused _ => none

def fatalOf : Out → Option Report
  | .next _ => none
  | .fault (.fatal r _) => some r
  | .fault .coreIsFatal => none
  | .refused _ => none

/-- One register of the next state. -/
def reg (r : Fin 16) (o : Out) : Option Word := (nextOf o).map (·.readReg r)

/-- One cell of the next state. -/
def cell (a : Nat) (o : Out) : Option Word := (nextOf o).bind (·.mem.read a)

/-- The newest event of the next state. -/
def newest (o : Out) : Option Event := (nextOf o).bind (·.trace.head?)

/-- The flag word of the next state. -/
def flagsOf (o : Out) : Option FlagWord := (nextOf o).map (·.flags)

/-- A run of some steps from a state. -/
def runOf (n : Nat) (s : State) : Out := Host.Core.run Sys2Proof.core n s

/-! ### Well-formedness: an ill-formed term for each check -/

theorem test_wf_add : WellFormed.check (.add 16 5) = false ∧ WellFormed.check (.add 5 16) = false ∧
    WellFormed.check (.add 15 15) = true := by decide
theorem test_wf_sub : WellFormed.check (.sub 16 5) = false ∧ WellFormed.check (.sub 5 16) = false := by decide
theorem test_wf_mul : WellFormed.check (.mul 16 5) = false ∧ WellFormed.check (.mul 5 16) = false := by decide
theorem test_wf_div : WellFormed.check (.div 16 5) = false ∧ WellFormed.check (.div 5 65535) = false := by decide
theorem test_wf_immediates : WellFormed.check (.addi 16 5) = false ∧ WellFormed.check (.subi 16 5) = false ∧
    WellFormed.check (.muli 16 5) = false ∧ WellFormed.check (.divi 16 5) = false ∧
    WellFormed.check (.addi 15 65535) = true := by decide
theorem test_wf_moves : WellFormed.check (.mov 16 5) = false ∧ WellFormed.check (.mov 5 16) = false ∧
    WellFormed.check (.movi 16 5) = false ∧ WellFormed.check (.movi 5 16) = true := by decide
theorem test_wf_memory : WellFormed.check (.load 16 5) = false ∧ WellFormed.check (.store 16 5) = false ∧
    WellFormed.check (.load 15 65535) = true := by decide
theorem test_wf_beq : WellFormed.check (.beq 16 5 3) = false ∧ WellFormed.check (.beq 5 16 3) = false ∧
    WellFormed.check (.beq 15 15 65535) = true := by decide
theorem test_wf_bne : WellFormed.check (.bne 16 5 3) = false ∧ WellFormed.check (.bne 5 16 3) = false := by decide
theorem test_wf_blt : WellFormed.check (.blt 16 5 3) = false ∧ WellFormed.check (.blt 5 16 3) = false := by decide
theorem test_wf_bgt : WellFormed.check (.bgt 16 5 3) = false ∧ WellFormed.check (.bgt 5 16 3) = false := by decide
theorem test_wf_jumps : WellFormed.check (.jmpR 16) = false ∧ WellFormed.check (.jmp 65535) = true := by decide

/-- An unused slot that is not zero, an undefined opcode and a register slot of 16 break the duties of rule R280. -/
theorem test_wf_words : wellFormedWord 0x0003000200010000 = false ∧ wellFormedWord 0x0000000000000015 = false ∧
    wellFormedWord 0x000000010010000A = false ∧ wellFormedWord 0x000000010005000A = true := by decide

/-! ### Decoding: one word for each constructor, from the vectors of 95_test_vectors.md Part 2 -/

theorem test_word_nop : decode 0x0000000000000000 = .instr .nop ∧ encode .nop = 0 := by decide
/-- Bit by bit: a2 = 0, a1 = 6, a0 = 5, op = 1. -/
theorem test_word_add :
    decode 0b0000000000000000000000000000011000000000000001010000000000000001 = .instr (.add 5 6) ∧
    encode (.add 5 6) = 0x0000000600050001 := by decide
theorem test_word_sub : decode 0x0000000600050002 = .instr (.sub 5 6) ∧
    encode (.sub 5 6) = 0x0000000600050002 := by decide
theorem test_word_mul : decode 0x0000000600050003 = .instr (.mul 5 6) ∧
    encode (.mul 5 6) = 0x0000000600050003 := by decide
theorem test_word_div : decode 0x0000000500140004 = .instr (.div 20 5) ∧
    encode (.div 20 5) = 0x0000000500140004 := by decide
theorem test_word_addi : decode 0x0000FFFF00050005 = .instr (.addi 5 65535) ∧
    encode (.addi 5 65535) = 0x0000FFFF00050005 := by decide
theorem test_word_subi : decode 0x0000000100050006 = .instr (.subi 5 1) ∧
    encode (.subi 5 1) = 0x0000000100050006 := by decide
theorem test_word_muli : decode 0x0000FFFF00050007 = .instr (.muli 5 65535) ∧
    encode (.muli 5 65535) = 0x0000FFFF00050007 := by decide
theorem test_word_divi : decode 0x0000000A00050008 = .instr (.divi 5 10) ∧
    encode (.divi 5 10) = 0x0000000A00050008 := by decide
theorem test_word_mov : decode 0x0000000600000009 = .instr (.mov 0 6) ∧
    encode (.mov 0 6) = 0x0000000600000009 := by decide
theorem test_word_movi : decode 0x000000010010000A = .instr (.movi 16 1) ∧
    encode (.movi 16 1) = 0x000000010010000A := by decide
/-- Bit by bit: a2 = 0, a1 = 63, a0 = 5, op = 11. -/
theorem test_word_load :
    decode 0b0000000000000000000000000011111100000000000001010000000000001011 = .instr (.load 5 63) ∧
    encode (.load 5 63) = 0x0000003F0005000B := by decide
theorem test_word_store : decode 0x0000003F0005000C = .instr (.store 5 63) ∧
    encode (.store 5 63) = 0x0000003F0005000C := by decide
/-- Bit by bit: a2 = 40, a1 = 6, a0 = 5, op = 13. -/
theorem test_word_beq :
    decode 0b0000000000101000000000000000011000000000000001010000000000001101 = .instr (.beq 5 6 40) ∧
    encode (.beq 5 6 40) = 0x002800060005000D := by decide
theorem test_word_bne : decode 0x000300060005000E = .instr (.bne 5 6 3) ∧
    encode (.bne 5 6 3) = 0x000300060005000E := by decide
theorem test_word_blt : decode 0x000300060005000F = .instr (.blt 5 6 3) ∧
    encode (.blt 5 6 3) = 0x000300060005000F := by decide
theorem test_word_bgt : decode 0x0003000600050010 = .instr (.bgt 5 6 3) ∧
    encode (.bgt 5 6 3) = 0x0003000600050010 := by decide
theorem test_word_jmp : decode 0x00000000FFFF0011 = .instr (.jmp 65535) ∧
    encode (.jmp 65535) = 0x00000000FFFF0011 := by decide
theorem test_word_jmpR : decode 0x0000000000070012 = .instr (.jmpR 7) ∧
    encode (.jmpR 7) = 0x0000000000070012 := by decide
/-- Bit by bit: op = 19. -/
theorem test_word_halt :
    decode 0b0000000000000000000000000000000000000000000000000000000000010011 = .instr .halt ∧
    encode .halt = 0x0000000000000013 := by decide
theorem test_word_syscall : decode 0x0000000000000014 = .instr .syscall ∧ encode .syscall = 0x14 := by decide
/-- The opcode values next to the last defined one, and the highest. -/
theorem test_word_unknown : decode 0x0003000200010015 = .unknownOpcode 21 ∧
    decode 0xFFFFFFFFFFFFFFFF = .unknownOpcode 65535 := by decide
/-- Part 1.1: the raw codec on the operands `0x1234`, `0xABCD`, `0x0F0F`. -/
theorem test_raw_fields : decodeFields 0x0F0FABCD12340001 = ⟨1, 0x1234, 0xABCD, 0x0F0F⟩ ∧
    encodeFields ⟨1, 0x1234, 0xABCD, 0x0F0F⟩ = 0x0F0FABCD12340001 := by decide
theorem test_table_word : decodeTableWord 64 0x0000000600050001 = some (.add 5 6) ∧
    decodeTableWord 64 21 = none := by decide

/-! ### Arithmetic -/

/-- A33 and A34: unused slots are ignored. -/
theorem test_nop : reg 0 (step (at10 0 [])) = some 11 ∧ reg 0 (step (at10 0x0003000200010000 [])) = some 11 := by
  decide
/-- A1. -/
theorem test_add_wraps : reg 5 (step (at10 0x0000000600050001 [(5, 0xFFFFFFFFFFFFFFFF), (6, 1)])) = some 0 ∧
    flagsOf (step (at10 0x0000000600050001 [(5, 0xFFFFFFFFFFFFFFFF), (6, 1)])) = some 1 := by decide
/-- A2 and A3: the same register twice, and the program counter as the destination. -/
theorem test_add_same_and_pc : reg 5 (step (at10 0x0000000500050001 [(5, 3)])) = some 6 ∧
    reg 0 (step (at10 0x0000000600000001 [(6, 5)])) = some 16 := by decide
/-- A4. -/
theorem test_sub_negative :
    reg 5 (step (at10 0x0000000600050002 [(5, 3), (6, 5)])) = some 0xFFFFFFFFFFFFFFFE := by decide
/-- A8. -/
theorem test_mul_low_bits :
    reg 5 (step (at10 0x0000000600050003 [(5, 0xFFFFFFFFFFFFFFFF), (6, 0xFFFFFFFFFFFFFFFF)])) = some 1 := by decide
/-- A1 with the other model switch: ArithmeticOverflow. -/
theorem test_mul_overflow_fatal :
    fatalOf (exec (.mul 5 6) { withData [(5, 0x100000000), (6, 0x100000000)] [] with
      cfg := { Config.default with arithOverflow := .fatal } }) = some (.arithmeticOverflow .mul 10) := by decide
/-- A11. -/
theorem test_div_truncates : reg 5 (step (at10 0x0000000600050004 [(5, 7), (6, 2)])) = some 3 := by decide
/-- A15, and A16: the index is checked before the divisor. -/
theorem test_div_faults :
    fatalOf (step (at10 0x0000000600050004 [])) = some (.divideByZero .div 10) ∧
    fatalOf (step (at10 0x0000000500140004 [])) = some (.registerIndexOutOfRange 0 20 10) := by decide
/-- A17 and A18. -/
theorem test_addi : reg 5 (step (at10 0x0000000100050005 [(5, 0xFFFFFFFFFFFFFFFF)])) = some 0 ∧
    reg 5 (step (at10 0x0000FFFF00050005 [(5, 1)])) = some 0x10000 := by decide
/-- A20: the immediate is not sign-extended. -/
theorem test_subi : reg 5 (step (at10 0x0000FFFF00050006 [(5, 5)])) = some 0xFFFFFFFFFFFF0006 := by decide
/-- A21. -/
theorem test_muli :
    reg 5 (step (at10 0x0000FFFF00050007 [(5, 0xFFFFFFFFFFFFFFFF)])) = some 0xFFFFFFFFFFFF0001 := by decide
/-- A24. -/
theorem test_divi :
    reg 5 (step (at10 0x0000FFFF00050008 [(5, 0xFFFFFFFFFFFFFFFF)])) = some 0x0001000100010001 := by decide
/-- A26, and A26 with `DIV0_CLASS = stop`: Stopped at the instruction. -/
theorem test_divi_by_zero : fatalOf (step (at10 0x0000000000050008 [(5, 9)])) = some (.divideByZero .divi 10) ∧
    flagsOf (step { at10 0x0000000000050008 [(5, 9)] with cfg := { Config.default with div0Class := .stop } })
      = some 0 := by decide
/-- A28 and A29. -/
theorem test_mov : reg 5 (step (at10 0x0000000000050009 [])) = some 10 ∧
    reg 0 (step (at10 0x0000000600000009 [(6, 100)])) = some 101 := by decide
/-- A30 and A31. -/
theorem test_movi : reg 5 (step (at10 0x0000FFFF0005000A [(5, 0xFFFFFFFFFFFFFFFF)])) = some 0xFFFF ∧
    reg 0 (step (at10 0x0000000A0000000A [])) = some 11 := by decide

/-! ### Load and Store -/

/-- L1. -/
theorem test_load :
    reg 5 (step (withData [] [(10, 0x0000003F0005000B), (63, 0x00000000DEADBEEF)])) = some 0xDEADBEEF := by decide
/-- L3. -/
theorem test_load_missing :
    reg 5 (step (at10 0x000000400005000B [(5, 0x55)])) = some 0x55 ∧
    newest (step (at10 0x000000400005000B [(5, 0x55)])) = some (.report (.memoryOutOfBounds .load 64 10)) := by decide
/-- L2. -/
theorem test_store : cell 63 (step (at10 0x0000003F0005000C [(5, 42)])) = some 42 := by decide
/-- L8: the stored Halt is what the next step runs. -/
theorem test_store_next_cell :
    reg 0 (runOf 2 (at10 0x0000000B0005000C [(5, 0x13)])) = some 11 ∧
    flagsOf (runOf 2 (at10 0x0000000B0005000C [(5, 0x13)])) = some 0 := by decide

/-! ### Branches and jumps -/

/-- B1, and the branch not taken of Part 1.3. -/
theorem test_beq : reg 0 (step (at10 0x000300060005000D [(5, 8), (6, 8)])) = some 3 ∧
    reg 0 (step (at10 0x002800060005000D [(5, 3), (6, 4)])) = some 11 := by decide
/-- B9. -/
theorem test_beq_index :
    fatalOf (step (at10 0x000300110005000D [])) = some (.registerIndexOutOfRange 1 17 10) := by decide
/-- B3 and B4. -/
theorem test_bne : reg 0 (step (at10 0x000300050005000E [(5, 8)])) = some 11 ∧
    reg 0 (step (at10 0x000300060005000E [(5, 1), (6, 2)])) = some 3 := by decide
/-- B5 and B6: unsigned. -/
theorem test_blt : reg 0 (step (at10 0x000300060005000F [(5, 0xFFFFFFFFFFFFFFFF), (6, 0)])) = some 11 ∧
    reg 0 (step (at10 0x000300060005000F [(5, 0), (6, 0xFFFFFFFFFFFFFFFF)])) = some 3 := by decide
/-- B7 and B8. -/
theorem test_bgt : reg 0 (step (at10 0x0003000600050010 [(5, 0xFFFFFFFFFFFFFFFF), (6, 0)])) = some 3 ∧
    reg 0 (step (at10 0x0003000600050010 [(5, 4), (6, 4)])) = some 11 := by decide
/-- B10: the fetch after the jump stops. -/
theorem test_jmp : reg 0 (step (at10 0x00000000FFFF0011 [])) = some 0xFFFF ∧
    newest (runOf 2 (at10 0x00000000FFFF0011 [])) = some (.report (.memoryOutOfBounds .fetch 0xFFFF 0xFFFF)) := by
  decide
/-- B11 and B12. -/
theorem test_jmpR : reg 0 (step (at10 0x0000000000070012 [(7, 0x10000000000)])) = some 0x10000000000 ∧
    reg 0 (step (at10 0x0000000000000012 [])) = some 10 := by decide

/-! ### Halt and Syscall -/

/-- T2: only Running is cleared, and the program counter stays. -/
theorem test_halt : flagsOf (step { at10 0x13 [] with flags := 0xFFFF }) = some 0xFFFE ∧
    reg 0 (step (at10 0x13 [])) = some 10 := by decide
/-- S3: bits 7:0 of a cell are its byte, and bits 63:8 do not matter. -/
theorem test_syscall_write :
    let s := withData [(3, 1), (4, 50)] [(10, 0x14), (50, 0x141), (51, 0x100), (52, 0x42)]
    (nextOf (runOf 2 s)).map (fun t => accepted 1 t.trace) = some [0x41] ∧ reg 0 (runOf 2 s) = some 11 := by decide
/-- S7 and S8: the byte lands, and the byte is lost. -/
theorem test_syscall_read : cell 50 (step (at10 0x14 [(4, 50)])) = some 0x41 ∧
    newest (step (at10 0x14 [(4, 70)])) = some (.report (.memoryOutOfBounds .syscallRead 70 10)) ∧
    (nextOf (step (at10 0x14 [(4, 70)]))).map (fun t => deviceAt 0 t.devices) = some (some (.reader [] .fails)) := by
  decide

/-! ### Faults and the run -/

/-- E1 and E2. -/
theorem test_unknown_opcode : fatalOf (step (at10 0x15 [])) = some (.unknownOpcode 21 10) ∧
    fatalOf (step (at10 0xFFFFFFFFFFFFFFFF [])) = some (.unknownOpcode 65535 10) := by decide
/-- L6. -/
theorem test_fetch_without_responder :
    newest (step { at10 0 [] with present := { memRead := false, memWrite := true, io := true } })
      = some (.report (.memoryCallbackAbsent .read .fetch 10 10)) := by decide
/-- T4. -/
theorem test_run_when_stopped :
    let h : Session := ⟨⟨{ at10 0 [] with flags := 0 }, []⟩, false⟩
    hostRun 1 h = some (.stopped h) := by decide
/-- E5: a run of an Add that reads a register nothing has written ends so, and with the register written it does not. -/
theorem test_undefined_register_read :
    hostRun 1 ⟨⟨at10 0x0000000600050001 [(5, 1)], [0, 5]⟩, false⟩ = some (.undefinedRegisterRead 6) ∧
    (match hostRun 1 ⟨⟨at10 0x0000000600050001 [(5, 1)], [0, 5, 6]⟩, false⟩ with
      | some (.notYet h) => h.t.s.readReg 0
      | _ => 0) = 11 := by decide
/-- The boot of rule R273 in the source's order (Running first), from construction to the end of a run: Halt at cell 9
stops the core there. Without the register write the run ends in UndefinedRegisterRead. -/
theorem test_boot_in_any_order :
    let boot (acts : List HostAction) :=
      ((hostConstruct 0 1 4 .wrap .fatal setup.mem []).bind (hostActs acts)).bind (hostRun 2)
    (match boot [.writeFlags 1, .installMemRead ⟨[], .asCells⟩, .writeReg 0 9, .writeCell 9 0x13] with
      | some (.stopped h) => (h.t.s.pc, h.t.written, h.inRun)
      | _ => (0, [], true)) = (9, [0], false) ∧
    boot [.writeFlags 1, .installMemRead ⟨[], .asCells⟩, .writeCell 0 0x13] = some (.undefinedRegisterRead 0) := by
  decide
/-- Rule R81 and U13, U28: the host may answer a read with any word, and a write of a readable cell MemoryOutOfBounds. -/
theorem test_general_responders :
    reg 5 (step { at10 0x0000003F0005000B [] with reads := ⟨[.asCells, .word 7], .asCells⟩ }) = some 7 ∧
    newest (step { at10 0x0000003F0005000C [(5, 42)] with writes := ⟨[], .outOfBounds⟩ })
      = some (.report (.memoryOutOfBounds .store 63 10)) := by decide
/-- The report codes of rules R231 and R247. -/
theorem test_report_codes : (Report.ioWriteAccessError 1 0x48 50 10).code = 0x04 ∧
    (Report.arithmeticOverflow .add 10).code = 0x13 ∧ (Report.ioCallbackAbsent 10).code = 0x20 := by decide
theorem test_reset_memory_wf : State.reset.mem.wf = true := by decide
/-- The host's placing of the first word runs it as the first instruction after reset. -/
theorem test_withFetchWord : reg 5 (step (State.reset.withFetchWord 64 0x0000FFFF0005000A)) = some 0xFFFF := by decide

/-! ### Witnesses: a state and operands that meet the hypotheses of each statement, clause by clause -/

/-- The setup with data and `ARITH_OVERFLOW = fatal`. -/
def checked (regs : List (Fin 16 × Word)) : State :=
  { withData regs [] with cfg := { Config.default with arithOverflow := .fatal } }

/-- The setup with data and `DIV0_CLASS = stop`. -/
def stopping (regs : List (Fin 16 × Word)) : State :=
  { withData regs [] with cfg := { Config.default with div0Class := .stop } }

/-- The setup without one or more responders. -/
def lacking (p : Presence) (regs : List (Fin 16 × Word)) : State := { withData regs [] with present := p }

theorem next_of_isSome {o : Out} (h : (nextOf o).isSome = true) : ∃ t, o = .next t := by
  cases o with
  | next t => exact ⟨t, rfl⟩
  | fault f => cases h
  | refused r => cases h

theorem witness_StepRunsTheDecodedInstruction :
    let s := at10 0x0000000600050001 []
    s.runState = .running ∧ s.phase = .fetch ∧ s.present.memRead = true ∧
      s.readAnswer s.pc = .word 0x0000000600050001 ∧ decode 0x0000000600050001 = .instr (.add 5 6) := by decide
theorem witness_StepRunsThePlacedWord : State.reset.mem.wf = true ∧ setup.mem.wf = true ∧
    decodeTableWord 64 0x0000000600050001 = some (.add 5 6) ∧ decodeTableWord 16 20 = some .syscall := by decide
theorem witness_UnknownOpcodeIsFatal :
    (at10 0x15 []).runState = .running ∧ (at10 0x15 []).phase = .fetch ∧ fetched (at10 0x15 []) = some 0x15 ∧
      21 ≤ (0x15 : Word).toNat % 2 ^ 16 ∧ fetched (at10 0xFFFFFFFFFFFFFFFF []) = some 0xFFFFFFFFFFFFFFFF ∧
      21 ≤ (0xFFFFFFFFFFFFFFFF : Word).toNat % 2 ^ 16 := by decide
theorem witness_FetchFaultsStopTheCore :
    let s := lacking ⟨false, true, true⟩ []
    let u := withData [(0, 64)] []
    (s.runState = .running ∧ s.phase = .fetch ∧ s.present.memRead = false) ∧
      (u.runState = .running ∧ u.phase = .fetch ∧ u.present.memRead = true ∧ u.readAnswer u.pc = .outOfBounds) := by
  decide
theorem witness_StoppedCoreDoesNothing : State.reset.runState = .stopped := by decide
theorem witness_FatalIsTerminal : ({ setup with fatal := true } : State).fatal = true ∧
    ∃ t, step setup = .next t := ⟨rfl, next_of_isSome (by decide)⟩
theorem witness_WaitingCoreStaysRunning :
    (setup.setPhase .waiting).runState = .running ∧ (setup.setPhase .waiting).phase = .waiting := by decide

/-- The index checks of every statement that has them: the first value refused, the last one, and the last
accepted. -/
theorem witness_ChecksSlots : 16 ≤ (16 : Slot).toNat ∧ 16 ≤ (65535 : Slot).toNat ∧ (15 : Slot).toNat < 16 := by decide
/-- The register operands of every statement that has them: the first register and the last. -/
theorem witness_slots : (0 : Slot).toNat = (0 : Fin 16).val ∧ (15 : Slot).toNat = (15 : Fin 16).val := by decide

theorem witness_AddStoresTheSumModulo :
    (withData [(15, 0xFFFFFFFFFFFFFFFF), (5, 1)] []).cfg.arithOverflow = .wrap ∧
    (let s := checked [(15, 0xFFFFFFFFFFFFFFFE), (5, 1)];
      (s.readReg 15).toNat + (s.readReg 5).toNat < 2 ^ 64 ∧ s.cfg.arithOverflow = .fatal) ∧
    (let s := checked [(15, 0xFFFFFFFFFFFFFFFF), (5, 1)];
      s.cfg.arithOverflow = .fatal ∧ 2 ^ 64 ≤ (s.readReg 15).toNat + (s.readReg 5).toNat) := by decide
theorem witness_SubStoresTheDifferenceModulo :
    (let s := checked [(15, 7), (5, 7)];
      (s.readReg 5).toNat ≤ (s.readReg 15).toNat ∧ s.cfg.arithOverflow = .fatal) ∧
    (let s := withData [(15, 7), (5, 8)] [];
      s.cfg.arithOverflow = .wrap ∧ (s.readReg 15).toNat < (s.readReg 5).toNat) ∧
    (let s := checked [(15, 7), (5, 8)];
      s.cfg.arithOverflow = .fatal ∧ (s.readReg 15).toNat < (s.readReg 5).toNat) := by decide
theorem witness_MulStoresTheProductModulo :
    (withData [(15, 0x100000000), (5, 0x100000000)] []).cfg.arithOverflow = .wrap ∧
    (let s := checked [(15, 0xFFFFFFFF), (5, 0x100000001)];
      (s.readReg 15).toNat * (s.readReg 5).toNat < 2 ^ 64 ∧ s.cfg.arithOverflow = .fatal) ∧
    (let s := checked [(15, 0x100000000), (5, 0x100000000)];
      s.cfg.arithOverflow = .fatal ∧ 2 ^ 64 ≤ (s.readReg 15).toNat * (s.readReg 5).toNat) := by decide
theorem witness_DivStoresTheQuotient :
    (withData [(15, 7), (5, 1)] []).readReg 5 ≠ 0 ∧
    (let s := withData [(15, 7)] [];
      s.readReg 5 = 0 ∧ s.cfg.div0Class = .fatal) ∧
    (let s := stopping [(15, 7)];
      s.readReg 5 = 0 ∧ s.cfg.div0Class = .stop) := by decide
theorem witness_AddiStoresTheSumModulo :
    (withData [(15, 0xFFFFFFFFFFFFFFFF)] []).cfg.arithOverflow = .wrap ∧
    (let s := checked [(15, 0xFFFFFFFFFFFFFFFF)];
      (s.readReg 15).toNat + (0 : Slot).toNat < 2 ^ 64 ∧ s.cfg.arithOverflow = .fatal ∧
        2 ^ 64 ≤ (s.readReg 15).toNat + (1 : Slot).toNat) := by decide
theorem witness_SubiStoresTheDifferenceModulo :
    (let s := checked [(15, 65534)];
      (65534 : Slot).toNat ≤ (s.readReg 15).toNat ∧ s.cfg.arithOverflow = .fatal ∧
        (s.readReg 15).toNat < (65535 : Slot).toNat) ∧
    (let s := withData [(15, 65534)] [];
      s.cfg.arithOverflow = .wrap ∧ (s.readReg 15).toNat < (65535 : Slot).toNat) := by decide
theorem witness_MuliStoresTheProductModulo :
    (withData [(15, 0xFFFFFFFFFFFFFFFF)] []).cfg.arithOverflow = .wrap ∧
    (let s := checked [(15, 0x8000000000000000)];
      (s.readReg 15).toNat * (1 : Slot).toNat < 2 ^ 64 ∧ s.cfg.arithOverflow = .fatal ∧
        2 ^ 64 ≤ (s.readReg 15).toNat * (2 : Slot).toNat) := by decide
theorem witness_DiviStoresTheQuotient : (1 : Slot) ≠ 0 ∧ setup.cfg.div0Class = .fatal ∧
    (stopping []).cfg.div0Class = .stop := by decide
theorem witness_LoadReadsOneCell :
    ((63 : Word).toNat = (63 : Slot).toNat ∧ setup.present.memRead = true ∧ setup.readAnswer 63 = .word 0 ∧
      setup.reads.head = .asCells ∧ setup.mem.read (63 : Slot).toNat = some 0) ∧
    (lacking ⟨false, true, true⟩ []).present.memRead = false ∧
    ((64 : Word).toNat = (64 : Slot).toNat ∧ setup.present.memRead = true ∧ setup.readAnswer 64 = .outOfBounds ∧
      setup.mem.read (64 : Slot).toNat = none ∧ setup.mem.blocks (64 : Slot).toNat = false) := by decide
theorem witness_StoreWritesOneCell :
    (setup.mem.wf = true ∧ setup.present.memWrite = true ∧ (63 : Word).toNat = (63 : Slot).toNat ∧
      setup.writeAnswer 63 = .ok ∧ setup.writes.head = .asCells ∧ setup.mem.read (63 : Slot).toNat = some 0) ∧
    ({ setup with writes := ⟨[], .accepts⟩ }.writeAnswer 64 = .ok ∧ setup.mem.read (64 : Slot).toNat = none) ∧
    (lacking ⟨true, false, true⟩ []).present.memWrite = false ∧
    ((64 : Word).toNat = (64 : Slot).toNat ∧ setup.present.memWrite = true ∧ setup.writeAnswer 64 = .outOfBounds ∧
      setup.mem.read (64 : Slot).toNat = none ∧ setup.mem.blocks (64 : Slot).toNat = false) := by decide
theorem witness_StoredWordIsFetchedNext :
    let s := at10 0x0000000B0005000C [(5, 0x13)]
    s.mem.wf = true ∧ s.runState = .running ∧ s.phase = .fetch ∧ fetchedInstr s = some (.store 5 11) ∧
      (5 : Slot).toNat = (5 : Fin 16).val ∧ s.present.memWrite = true ∧ (∃ v, s.mem.read (11 : Slot).toNat = some v) ∧
      s.writes.head = .asCells ∧ (s.reads.after 1).head = .asCells ∧ s.pc + 1 = BitVec.ofNat 64 (11 : Slot).toNat :=
  ⟨by decide, by decide, by decide, by decide, by decide, by decide, ⟨0, by decide⟩, by decide, by decide, by decide⟩
/-- Both sides of the condition of each branch, at equal values and at the ends of the unsigned range. -/
theorem witness_branches :
    (let s := withData [(5, 8), (15, 8)] [];
      s.readReg 5 = s.readReg 15 ∧ (s.readReg 15).toNat ≤ (s.readReg 5).toNat ∧
        (s.readReg 5).toNat ≤ (s.readReg 15).toNat) ∧
    (let s := withData [(5, 0), (15, 0xFFFFFFFFFFFFFFFF)] [];
      s.readReg 5 ≠ s.readReg 15 ∧ (s.readReg 5).toNat < (s.readReg 15).toNat ∧
        (s.readReg 5).toNat ≤ (s.readReg 15).toNat) ∧
    (let s := withData [(5, 0xFFFFFFFFFFFFFFFF), (15, 0)] [];
      (s.readReg 15).toNat < (s.readReg 5).toNat ∧ (s.readReg 15).toNat ≤ (s.readReg 5).toNat) := by decide

theorem witness_SyscallWithoutIoOnlyReports : (lacking ⟨true, true, false⟩ []).present.io = false := by decide
theorem witness_SyscallOnUnboundDescriptorStops :
    let s := withData [(3, 7)] []
    s.present.io = true ∧ deviceAt (s.readReg 3) s.devices = none := by decide
theorem witness_SyscallReadLandsOneByte :
    let s := withData [(4, 63)] []
    let dev := Device.reader [.byte 0x41] .fails
    s.present.io = true ∧ deviceAt (s.readReg 3) s.devices = some dev ∧ dev.tag = some .read ∧
      dev.answerRead.1 = .byte 0x41 ∧ s.mem.wf = true ∧ s.present.memWrite = true ∧ s.phase = .fetch ∧
      s.writeAnswer (s.readReg 4) = .ok ∧ s.mem.read (s.readReg 4).toNat = some 0 ∧
      (let u := { withData [(4, 64)] [] with writes := ⟨[], .accepts⟩ };
        u.writeAnswer (u.readReg 4) = .ok ∧ u.mem.read (u.readReg 4).toNat = none) := by decide
theorem witness_SyscallReadFaultsStop :
    let fails := Device.reader [] .fails
    let gives := Device.reader [.byte 0x41] .fails
    (let s := { setup with devices := [{ desc := 0, dev := fails }] };
      s.present.io = true ∧ deviceAt (s.readReg 3) s.devices = some fails ∧ fails.tag = some .read ∧
        fails.answerRead.1 = .fails) ∧
    (let s := lacking ⟨true, false, true⟩ [];
      s.present.io = true ∧ deviceAt (s.readReg 3) s.devices = some gives ∧ gives.tag = some .read ∧
        gives.answerRead.1 = .byte 0x41 ∧ s.present.memWrite = false) ∧
    (let s := withData [(4, 64)] [];
      s.present.io = true ∧ deviceAt (s.readReg 3) s.devices = some gives ∧
        gives.answerRead.1 = .byte 0x41 ∧ s.present.memWrite = true ∧ s.writeAnswer (s.readReg 4) = .outOfBounds) := by
  decide
/-- S1, and S2: the empty string. -/
theorem witness_SyscallWriteEmitsExactlyTheString :
    let s := withData [(3, 1), (4, 50)] [(50, 0x48), (51, 0x69)]
    let dev := Device.writer [] .accepts
    s.runState = .running ∧ s.present.io = true ∧ s.present.memRead = true ∧ s.phase = .fetch ∧
      deviceAt (s.readReg 3) s.devices = some dev ∧ AcceptsNext 2 dev ∧ AcceptsNext 0 dev ∧
      AnswersString s.reads s.mem 0 (s.readReg 4) [0x48, 0x69] ∧ AnswersString s.reads s.mem 0 52 [] :=
  ⟨by decide, by decide, by decide, by decide, by decide, ⟨rfl, rfl, rfl⟩, rfl,
    ⟨by decide, by decide, by decide, by decide, by decide, by decide⟩, by decide, by decide⟩
/-- Inside a traversal, and S11 and its like: at the first cell, in the Syscall's own step. -/
theorem witness_TraversalFaultsStop :
    let fails : Device := .writer [] .fails
    let failing (s : State) : State := { s with devices := [{ desc := 1, dev := fails }] }
    let there (s : State) : State := s.setPhase (.traverse 1 50)
    (let s := lacking ⟨false, true, true⟩ [(3, 1), (4, 50)];
      s.runState = .running ∧ (there s).phase = .traverse 1 50 ∧ s.present.memRead = false ∧ s.present.io = true ∧
        deviceAt (s.readReg 3) s.devices = some (.writer [] .accepts)) ∧
    (let s := { withData [(3, 1), (4, 50)] [] with reads := ⟨[], .outOfBounds⟩ };
      s.runState = .running ∧ s.present.memRead = true ∧ s.readAnswer 50 = .outOfBounds ∧
        s.readReg 4 = 50 ∧ s.present.io = true ∧ deviceAt (s.readReg 3) s.devices = some (.writer [] .accepts)) ∧
    (let s := failing (withData [(3, 1), (4, 50)] [(50, 0x48)]);
      s.runState = .running ∧ s.present.memRead = true ∧ s.readAnswer 50 = .word 0x48 ∧
        (0x48 : Word).toNat % 256 ≠ 0 ∧ deviceAt 1 s.devices = some fails ∧ fails.answerWrite.1 = .fails ∧
        fails.tag = some .write ∧ s.readReg 3 = 1 ∧ s.readReg 4 = 50 ∧ s.present.io = true) := by decide

/-- A device that accepts for ever after a script of its own. -/
theorem witness_EndlessTraversalNeverCompletes :
    let dev : Device := .writer [.accepts, .accepts] .accepts
    let s := { setup.setPhase (.traverse 1 50) with reads := ⟨[.word 0x141], .word 1⟩, devices := [⟨1, dev⟩] }
    s.runState = .running ∧ s.phase = .traverse 1 50 ∧ s.present.memRead = true ∧
      (∀ k, ∃ c, (s.reads.after k).head.answer s.mem (50 + BitVec.ofNat 64 k).toNat = .word c ∧ c.toNat % 256 ≠ 0) ∧
      deviceAt 1 s.devices = some dev ∧ ∀ k, AcceptsNext k dev := by
  have rest : ∀ k, AcceptsNext k (.writer [] .accepts) := fun k => by
    induction k with
    | zero => rfl
    | succ k ih => exact ⟨rfl, ih⟩
  refine ⟨by decide, rfl, rfl, fun k => ?_, by decide, fun k => ?_⟩
  · match k with
    | 0 => exact ⟨0x141, rfl, by decide⟩
    | k + 1 => exact ⟨1, by simp [Replies.after, Replies.head, MemReadReply.answer], by decide⟩
  · match k with
    | 0 => exact rfl
    | 1 => exact ⟨rfl, rfl⟩
    | k + 2 => exact ⟨rfl, rfl, rest k⟩

theorem witness_SyscallOnSilentDeviceNeverCompletes :
    let s := { setup with devices := [{ desc := 0, dev := .reader [] .never }] }
    s.runState = .running ∧ s.present.io = true ∧
      deviceAt (s.readReg 3) s.devices = some (.reader [] .never) ∧
      (Device.reader [] .never).tag = some .read ∧ (Device.reader [] .never).answerRead.1 = .never := by decide
/-- The setup with a memory that never answers at addresses 64 and 65535. -/
def mute (regs : List (Fin 16 × Word)) : State :=
  { withData regs [] with mem := { setup.mem with silent := [64, 65535] } }

theorem witness_UnansweredRequestsLeaveTheCoreWaiting :
    let mutes : Device := .writer [] .never
    let gives : Device := .reader [.byte 0x41] .fails
    (let s := mute [(0, 64)];
      s.mem.wf = true ∧ s.runState = .running ∧ s.phase = .fetch ∧ s.present.memRead = true ∧
        s.readAnswer s.pc = .never) ∧
    (let s := mute [];
      s.present.memRead = true ∧ s.present.memWrite = true ∧ (65535 : Word).toNat = (65535 : Slot).toNat ∧
        s.readAnswer 65535 = .never ∧ s.writeAnswer 65535 = .never) ∧
    (let s := mute [(3, 1), (4, 64)];
      s.runState = .running ∧ (s.setPhase (.traverse 1 64)).phase = .traverse 1 64 ∧ s.present.memRead = true ∧
        s.readAnswer 64 = .never ∧ s.present.io = true ∧ s.readReg 4 = 64 ∧
        deviceAt (s.readReg 3) s.devices = some (.writer [] .accepts)) ∧
    (let s := { withData [(3, 1), (4, 50)] [(50, 0x48)] with devices := [⟨1, mutes⟩] };
      s.runState = .running ∧ s.present.memRead = true ∧ s.readAnswer 50 = .word 0x48 ∧ s.present.io = true ∧
        (0x48 : Word).toNat % 256 ≠ 0 ∧ deviceAt (s.readReg 3) s.devices = some mutes ∧
        mutes.answerWrite.1 = .never ∧ mutes.tag = some .write ∧ s.readReg 3 = 1 ∧ s.readReg 4 = 50) ∧
    (let s := { setup with devices := [⟨0, .silent⟩] };
      s.present.io = true ∧ deviceAt (s.readReg 3) s.devices = some .silent ∧ Device.silent.tag = none) ∧
    (let s := { setup with devices := [⟨0, .reader [] .never⟩] };
      deviceAt (s.readReg 3) s.devices = some (.reader [] .never) ∧
        (Device.reader [] .never).answerRead.1 = .never) ∧
    (let s := mute [(4, 64)];
      s.present.io = true ∧ deviceAt (s.readReg 3) s.devices = some gives ∧ gives.answerRead.1 = .byte 0x41 ∧
        s.present.memWrite = true ∧ s.writeAnswer (s.readReg 4) = .never) := by decide
/-- A Store whose write is never answered: the request stands in the trace with its word (rule R246). -/
theorem test_store_unanswered :
    newest (exec (.store 5 64) (mute [(5, 42)])) = some (.memWriteUnanswered 64 42) := by decide
/-- The core that waits for the answer to its fetch is Running (rule R248). -/
theorem test_fetch_unanswered : newest (step (mute [(0, 64)])) = some (.memReadUnanswered 64) ∧
    flagsOf (runOf 3 (mute [(0, 64)])) = some 1 := by decide
theorem witness_OnlyValidConfigurationsAreConstructed :
    ¬ (16 < 16 ∧ 1 < 16 ∧ 16 ≠ 1) ∧ ¬ (0 < 16 ∧ 16 < 16 ∧ 0 ≠ 16) ∧ ¬ (5 < 16 ∧ 5 < 16 ∧ 5 ≠ 5) ∧
    (15 < 16 ∧ 0 < 16 ∧ 15 ≠ 0) ∧ setup.mem.wf = true ∧ bindingsFrom 0 setup.devices = true := by decide
theorem witness_StepKeepsTheInvariant : Inv setup ∧ ∃ t, step setup = .next t :=
  ⟨{ mem := by decide, devices := by decide, stack := by decide, cfg := by decide, phase := by decide },
    next_of_isSome (by decide)⟩
theorem witness_StepKeepsTheFixedState : ∃ t, step (at10 0x0000003F0005000C [(5, 42)]) = .next t :=
  next_of_isSome (by decide)
theorem witness_ReservedFlagsAreNeitherReadNorWritten : (0xFFFE : FlagWord).getLsbD 0 = false ∧ (15 : Nat) ≠ 0 ∧
    ∃ t, step setup = .next t := ⟨by decide, by decide, next_of_isSome (by decide)⟩
/-- A Halt, and a recoverable fault, from a Running core. -/
theorem witness_OnlyHaltAndRecoverableFaultsStop :
    (at10 0x13 []).runState = .running ∧ flagsOf (step (at10 0x13 [])) = some 0 ∧
    (at10 0x000000400005000B []).runState = .running ∧ flagsOf (step (at10 0x000000400005000B [])) = some 0 := by decide
theorem witness_FaultOutcomesAreOfTheFatalClass :
    fatalOf (step (at10 0x0000000000050008 [])) = some (.divideByZero .divi 10) := by decide
theorem witness_OnlyNamedRegistersAreReadOrWritten :
    (15 : Fin 16) ≠ setup.cfg.pcIndex ∧ destReg (.add 5 6) ≠ some 15 ∧ (∃ t, exec (.add 5 6) setup = .next t) ∧
      15 ∉ sourceRegs (.add 5 6) setup := ⟨by decide, by decide, next_of_isSome (by decide), by decide⟩
/-- A Store, and a Syscall on a Read device, that change a cell. -/
theorem witness_OnlyStoresChangeMemory :
    (let s := at10 0x0000003F0005000C [(5, 42)];
      cell 63 (step s) = some 42 ∧ s.mem.read 63 = some 0) ∧
    (let s := at10 0x14 [(4, 50)];
      cell 50 (step s) = some 0x41 ∧ s.mem.read 50 = some 0) := by decide
theorem witness_TraceOnlyGrows : ∃ t, step (at10 0x14 [(4, 50)]) = .next t := next_of_isSome (by decide)
theorem witness_RestartRunsTheStoppedInstructionAgain :
    (at10 0x13 []).runState = .running ∧ (at10 0x13 []).reads = ⟨[], .asCells⟩ ∧
    (nextOf (step (at10 0x13 []))).map (·.runState) = some .stopped := by decide
theorem witness_HostActsOnlyOutsideARun :
    (⟨⟨setup, []⟩, true⟩ : Session).inRun = true ∧ ({ setup with fatal := true } : State).fatal = true ∧
    setup.fatal = false ∧ setup.mem.wf = true ∧ setup.mem.read (63 : Word).toNat = some 0 ∧
    setup.mem.read (64 : Word).toNat = none := by decide
theorem witness_BootStepsMayComeInAnyOrder :
    (HostAction.writeFlags 1).part ≠ (HostAction.installMemRead ⟨[], .asCells⟩).part ∧ (0 : Fin 16) ≠ 15 ∧
    (let h : Session := ⟨⟨State.reset, []⟩, false⟩;
      h.inRun = false ∧ h.t.s.fatal = false ∧ (0x0001 : FlagWord).getLsbD 0 = true) := by decide
/-- A run that returns by Halt, one that has not ended, one that ends Fatal, one that reads a register nothing has
written, one whose program counter nothing has written, and one with every register written. -/
theorem witness_RunsEndAsTheSpecSays :
    (let t : Tracked := ⟨at10 0x13 [], [0]⟩;
      t.s.runState = .running ∧ t.s.phase = .fetch ∧ t.s.cfg.pcIndex ∈ t.written ∧ fetchedInstr t.s = some .halt ∧
        (match hostRun 1 ⟨t, false⟩ with
          | some (.stopped _) => true
          | _ => false) = true ∧ (trackedRun 1 t).isSome = true) ∧
    (match hostRun 1 ⟨⟨at10 0 [], [0]⟩, false⟩ with
      | some (.notYet _) => true
      | _ => false) = true ∧
    hostRun 1 ⟨⟨at10 0x15 [], [0]⟩, false⟩ = some (.fatal (.unknownOpcode 21 10)) ∧
    hostRun 1 ⟨⟨at10 0x0000000600050001 [], [0, 5]⟩, false⟩ = some (.undefinedRegisterRead 6) ∧
    (setup.runState = .running ∧ setup.cfg.pcIndex ∉ ([] : List (Fin 16))) ∧
    (∀ r : Fin 16, r ∈ List.finRange 16) ∧ (nextOf (runOf 1 (at10 0x13 []))).isSome = true := by decide
theorem witness_MemoriesThatReadAlikeAreEqual :
    let m := Memory.place { regions := [{ base := 0, size := 5 }], cells := [], silent := [5, 9] } 5 0
    let n : Memory := { regions := [{ base := 0, size := 6 }], cells := [], silent := [9] }
    m.wf = true ∧ n.wf = true ∧ ∀ a, m.read a = n.read a ∧ m.blocks a = n.blocks a :=
  ⟨by decide, by decide, fun _ => ⟨rfl, rfl⟩⟩
theorem witness_TrackedRunIgnoresUnwrittenRegisters :
    let t : Tracked := { s := at10 0x0000000600050001 [(5, 1)], written := [0, 5, 6] }
    15 ∉ t.written ∧ (match trackedStep t with
      | .next _ => true
      | .fault _ => false
      | .refused _ => false
      | .undefinedRegisterRead _ => false) = true := by decide

end Sys2Proof.Tests
end

section
/-! Proofs of the statements about 20_memory.md: a Syscall without an IO responder. -/

namespace Sys2Proof.Safety

open Sys2Proof Sys2Proof.Machine

/-- An instruction that ends with the program-counter update, and until then has changed devices and events alone,
leaves everything but the program counter. -/
theorem frame_retire_via (u : PcUpdate) (ds : List Binding) (es : List Event) (s : State) :
    Frame [s.cfg.pcIndex] [] ds es s ((s.via ds es).retire u) :=
  { regs := fun r hr => by
      have hpc : r ≠ s.cfg.pcIndex := by simpa using hr
      rw [State.readReg_retire_other _ _ (by exact hpc), State.readReg_via]
    flags := by simp, stack := by simp, cfg := by simp, present := by simp, fatal := by simp,
    phase := by simp, mem := fun _ _ => by simp, reads := by simp, writes := by simp, devices := by simp,
    trace := by simp }

theorem exec_syscall (s : State) : exec .syscall s = execSyscall s := rfl

/-- Settles O34: without an IO responder the Syscall is one report, then the program-counter update. -/
theorem syscallWithoutIoOnlyReports : Obligations.SyscallWithoutIoOnlyReports := by
  intro s hio
  refine ⟨(s.via s.devices [.report (.ioCallbackAbsent s.pc)]).retire .next, ?_, ?_, frame_retire_via _ _ _ _⟩
  · rw [exec_syscall, execSyscall_absent hio, State.emit_eq_via]
  · rw [State.pc_retire_next, State.pc_via]

end Sys2Proof.Safety
end

section
/-! Proofs of the statements about 42_control.md: Jmp. -/

namespace Sys2Proof.Safety

open Sys2Proof Sys2Proof.Machine

theorem exec_jmp (addr : Slot) (s : State) : exec (.jmp addr) s = .next (s.retire (.target (zext64 addr))) := rfl

/-- Settles O31: the retirement with the zero-extended slot as target writes the program counter and nothing else. -/
theorem jmpGoesToTheLiteral : Obligations.JmpGoesToTheLiteral := by
  intro addr s
  refine ⟨s.retire (.target (zext64 addr)), exec_jmp addr s, ?_⟩
  have hpc : (s.retire (.target (zext64 addr))).pc = BitVec.ofNat 64 addr.toNat := by
    rw [State.pc_retire_target, zext64_eq]
  exact hpc ▸ writesPc_retire _ s

end Sys2Proof.Safety
end

section
/-! Proofs of the statements about 43_system.md: Halt. -/

namespace Sys2Proof.Safety

open Sys2Proof Sys2Proof.Machine

theorem exec_halt (s : State) : exec .halt s = .next { s with flags := Flags.clearRunning s.flags } := rfl

theorem runState_clearRunning_ne_running (s : State) :
    State.runState { s with flags := Flags.clearRunning s.flags } ≠ .running := by
  intro hrun
  have hflag : Flags.running (Flags.clearRunning s.flags) = true := (State.runState_running.mp hrun).2
  rw [Flags.running_clearRunning] at hflag
  exact Bool.false_ne_true hflag

/-- Settles O33: Halt's answer is the state with Running cleared, a write that reaches bit 0 of the flag word alone. -/
theorem haltClearsRunningOnly : Obligations.HaltClearsRunningOnly := by
  intro s
  refine ⟨{ s with flags := Flags.clearRunning s.flags }, exec_halt s, ?running, ?otherFlags, rfl, ?notRunning⟩
  case running => exact Flags.running_clearRunning s.flags
  case otherFlags => exact fun _ hk => Flags.getLsbD_clearRunning s.flags hk
  case notRunning => exact runState_clearRunning_ne_running s

end Sys2Proof.Safety
end

section
/-! Proofs of the statements about 30_encoding.md: the codec, through the numbers that words and fields stand for. -/

namespace Sys2Proof

/-- A slot shifted above a smaller number adds its value there. -/
theorem or_shiftLeft_eq_add {x k : Nat} (v : Nat) (hx : x < 2 ^ k) : x ||| v <<< k = x + v * 2 ^ k := by
  rw [Nat.or_comm, ← Nat.shiftLeft_add_eq_or_of_lt hx, Nat.shiftLeft_eq, Nat.add_comm]

/-- The place value of a slot in a word. -/
theorem toNat_slotAt (v : Slot) {k : Nat} (hk : k ≤ 48) : (v.setWidth 64 <<< k).toNat = v.toNat <<< k := by
  have hv : v.toNat * 2 ^ k < 2 ^ 64 :=
    calc v.toNat * 2 ^ k < 2 ^ 16 * 2 ^ k := Nat.mul_lt_mul_of_pos_right v.isLt (Nat.two_pow_pos k)
      _ ≤ 2 ^ 16 * 2 ^ 48 := Nat.mul_le_mul_left _ (Nat.pow_le_pow_right (by omega) hk)
      _ = 2 ^ 64 := by norm_num
  have hv16 : v.toNat < 2 ^ 64 := Nat.lt_trans v.isLt (by norm_num)
  rw [BitVec.toNat_shiftLeft, BitVec.toNat_setWidth, Nat.mod_eq_of_lt hv16, Nat.shiftLeft_eq, Nat.mod_eq_of_lt hv]

/-- The value of an encoded word (30_encoding.md rule R91). -/
theorem toNat_encodeFields (f : Fields) : (encodeFields f).toNat =
    f.op.toNat + f.a0.toNat * 2 ^ 16 + f.a1.toNat * 2 ^ 32 + f.a2.toNat * 2 ^ 48 := by
  have hop := f.op.isLt
  have h0 := f.a0.isLt
  have h1 := f.a1.isLt
  simp only [encodeFields, Config.opLsb, Config.a0Lsb, Config.a1Lsb, Config.a2Lsb, BitVec.toNat_or]
  rw [toNat_slotAt _ (by omega), toNat_slotAt _ (by omega), toNat_slotAt _ (by omega), toNat_slotAt _ (by omega),
    Nat.shiftLeft_zero, or_shiftLeft_eq_add f.a0.toNat hop, or_shiftLeft_eq_add f.a1.toNat (by omega),
    or_shiftLeft_eq_add f.a2.toNat (by omega)]

/-- The value of a field of a word. -/
theorem toNat_field (w : Word) (k : Nat) : (w.extractLsb' k 16).toNat = w.toNat / 2 ^ k % 2 ^ 16 := by
  rw [BitVec.extractLsb'_toNat, Nat.shiftRight_eq_div_pow]

theorem decodeFields_encodeFields (f : Fields) : decodeFields (encodeFields f) = f := by
  have hop := f.op.isLt
  have h0 := f.a0.isLt
  have h1 := f.a1.isLt
  have h2 := f.a2.isLt
  have field : ∀ (k : Nat) (v : Slot), (encodeFields f).toNat / 2 ^ k % 2 ^ 16 = v.toNat →
      (encodeFields f).extractLsb' k 16 = v := fun k v h =>
    BitVec.eq_of_toNat_eq (by rw [toNat_field, h])
  refine (Fields.mk.injEq ..).mpr ⟨field Config.opLsb f.op ?_, field Config.a0Lsb f.a0 ?_, field Config.a1Lsb f.a1 ?_,
    field Config.a2Lsb f.a2 ?_⟩
  all_goals
    rw [toNat_encodeFields]
    simp only [Config.opLsb, Config.a0Lsb, Config.a1Lsb, Config.a2Lsb, Nat.pow_zero, Nat.div_one]
    omega

theorem encodeFields_decodeFields (w : Word) : encodeFields (decodeFields w) = w := by
  have hw := w.isLt
  apply BitVec.eq_of_toNat_eq
  rw [toNat_encodeFields]
  simp only [decodeFields, Config.opLsb, Config.a0Lsb, Config.a1Lsb, Config.a2Lsb, toNat_field]
  omega

@[simp] theorem Opcode.ofCode_code (o : Opcode) : Opcode.ofCode o.code = some o := by cases o <;> rfl

@[simp] theorem Instr.op_fields (i : Instr) : i.fields.op = i.opcode.code := by cases i <;> rfl

@[simp] theorem Instr.ofFields_fields (i : Instr) : Instr.ofFields i.opcode i.fields = i := by cases i <;> rfl

/-- A word whose opcode field holds an opcode's number decodes to that opcode's instruction over its slots. -/
theorem decode_encodeFields {f : Fields} {o : Opcode} (h : f.op = o.code) :
    decode (encodeFields f) = .instr (Instr.ofFields o f) := by
  rw [decode, decodeFields_encodeFields, h, Opcode.ofCode_code]

/-- An opcode field of 21 or more names no opcode. -/
theorem Opcode.ofCode_of_ge {op : Slot} (h : 21 ≤ op.toNat) : Opcode.ofCode op = none := by
  unfold Opcode.ofCode
  split
  case h_22 => rfl
  all_goals omega

/-- A word whose opcode field is 21 or more decodes to no instruction (30_encoding.md rule R95). -/
theorem decode_unknown {w : Word} (h : 21 ≤ w.toNat % 2 ^ 16) :
    decode w = .unknownOpcode (BitVec.ofNat 16 w.toNat) := by
  have hop : (decodeFields w).op = BitVec.ofNat 16 w.toNat := by
    apply BitVec.eq_of_toNat_eq
    rw [decodeFields, toNat_field, BitVec.toNat_ofNat, Config.opLsb, Nat.pow_zero, Nat.div_one]
  have hcode : Opcode.ofCode (decodeFields w).op = none :=
    Opcode.ofCode_of_ge (by rw [hop, BitVec.toNat_ofNat]; exact h)
  rw [decode, hcode, hop]

/-- Settles O1: each slot lies above the ones before it, so the disjunction of the shifted slots is their sum. -/
theorem encodedWordIsTheSumOfItsFields : Obligations.EncodedWordIsTheSumOfItsFields := toNat_encodeFields

/-- Settles O2: both directions are arithmetic on the value of the word. -/
theorem rawDecodeAndEncodeAreInverse : Obligations.RawDecodeAndEncodeAreInverse :=
  ⟨decodeFields_encodeFields, encodeFields_decodeFields⟩

/-- Settles O3: the raw codec gives the fields back, the opcode's number its opcode, and the fields the instruction. -/
theorem decodeOfEncodeIsTheInstruction : Obligations.DecodeOfEncodeIsTheInstruction := by
  intro i
  rw [encode, decode_encodeFields i.op_fields, Instr.ofFields_fields]

/-- Settles O4: in each row the number names the row's opcode, and its instruction takes the slots of the row. -/
theorem decodeReadsTheOpcodeMap : Obligations.DecodeReadsTheOpcodeMap := by
  intro a b c
  have row : ∀ o : Opcode, decode (encodeFields ⟨o.code, a, b, c⟩) = .instr (Instr.ofFields o ⟨o.code, a, b, c⟩) :=
    fun o => decode_encodeFields rfl
  exact ⟨row .nop, row .add, row .sub, row .mul, row .div, row .addi, row .subi, row .muli, row .divi, row .mov,
    row .movi, row .load, row .store, row .beq, row .bne, row .blt, row .bgt, row .jmp, row .jmpR, row .halt,
    row .syscall⟩

/-- Settles O5: the decoder evaluated on the words. -/
theorem wordsOfTheSpecDecode : Obligations.WordsOfTheSpecDecode := by
  unfold Obligations.WordsOfTheSpecDecode
  decide

end Sys2Proof
end

section
/-! Proofs of the statements about 40_alu.md and 42_control.md: each end of an instruction is described once, in the
terms of the statements, and every instruction is its operands and one of these ends. -/

namespace Sys2Proof.Safety

open Sys2Proof Sys2Proof.Machine

/-! ### What each instruction is: its operands, then its end -/

section
variable (a0 a1 imm addr : Slot) (s : State)

theorem exec_nop : exec .nop s = .next (s.retire .next) := rfl

theorem exec_add : exec (.add a0 a1) s = withRegs a0 a1 s fun d r =>
    finishArith .add d ((s.readReg d).toNat + (s.readReg r).toNat : Nat) s := rfl

theorem exec_sub : exec (.sub a0 a1) s = withRegs a0 a1 s fun d r =>
    finishArith .sub d ((s.readReg d).toNat - (s.readReg r).toNat : Int) s := rfl

theorem exec_mul : exec (.mul a0 a1) s = withRegs a0 a1 s fun d r =>
    finishArith .mul d ((s.readReg d).toNat * (s.readReg r).toNat : Nat) s := rfl

theorem exec_div : exec (.div a0 a1) s = withRegs a0 a1 s fun d r =>
    finishDivide .div d (s.readReg d) (s.readReg r) s := rfl

theorem exec_addi : exec (.addi a0 imm) s = withReg 0 a0 s fun d =>
    finishArith .addi d ((s.readReg d).toNat + imm.toNat : Nat) s := by
  rw [← toNat_zext64 imm]; rfl

theorem exec_subi : exec (.subi a0 imm) s = withReg 0 a0 s fun d =>
    finishArith .subi d ((s.readReg d).toNat - imm.toNat : Int) s := by
  rw [← toNat_zext64 imm]; rfl

theorem exec_muli : exec (.muli a0 imm) s = withReg 0 a0 s fun d =>
    finishArith .muli d ((s.readReg d).toNat * imm.toNat : Nat) s := by
  rw [← toNat_zext64 imm]; rfl

theorem exec_divi : exec (.divi a0 imm) s = withReg 0 a0 s fun d =>
    finishDivide .divi d (s.readReg d) (zext64 imm) s := rfl

theorem exec_mov : exec (.mov a0 a1) s = withRegs a0 a1 s fun d r => writeAndNext d (s.readReg r) s := rfl

theorem exec_movi : exec (.movi a0 imm) s = withReg 0 a0 s fun d => writeAndNext d (zext64 imm) s := rfl

theorem exec_load : exec (.load a0 addr) s = withReg 0 a0 s fun d =>
    memRead .load (zext64 addr) s fun v s' => writeAndNext d v s' := rfl

theorem exec_store : exec (.store a0 addr) s = withReg 0 a0 s fun r =>
    memWrite .store (zext64 addr) (s.readReg r) s fun s' => .next (s'.retire .next) := rfl

theorem exec_beq : exec (.beq a0 a1 addr) s = withRegs a0 a1 s fun l r =>
    finishBranch (decide (s.readReg l = s.readReg r)) addr s := rfl

theorem exec_bne : exec (.bne a0 a1 addr) s = withRegs a0 a1 s fun l r =>
    finishBranch (decide (s.readReg l ≠ s.readReg r)) addr s := rfl

theorem exec_blt : exec (.blt a0 a1 addr) s = withRegs a0 a1 s fun l r =>
    finishBranch (decide ((s.readReg l).toNat < (s.readReg r).toNat)) addr s := rfl

theorem exec_bgt : exec (.bgt a0 a1 addr) s = withRegs a0 a1 s fun l r =>
    finishBranch (decide ((s.readReg r).toNat < (s.readReg l).toNat)) addr s := rfl

theorem exec_jmpR : exec (.jmpR a0) s = withReg 0 a0 s fun t => .next (s.retire (.target (s.readReg t))) := rfl

end

/-! ### The ends of an instruction -/

theorem writeAndNext_writesReg (d : Fin 16) (v : Word) (s : State) :
    ∃ t, writeAndNext d v s = .next t ∧ WritesReg d v [] s t := writesReg_writeAndNext d v [] s

theorem raiseStop_stopsWith (r : Report) (s : State) (ds : List Binding) (es : List Event) :
    ∃ t, raiseStop r (s.via ds es) = .next t ∧ StopsWith r ds es s t := ⟨_, rfl, stopsWith_stopWith r s ds es⟩

theorem ofNat_mod_two_pow (n : Nat) : BitVec.ofNat 64 (n % 2 ^ 64) = BitVec.ofNat 64 n :=
  BitVec.eq_of_toNat_eq (by simp)

/-- An exact result that is not negative (40_alu.md rule R120). -/
theorem finishArith_natCast (o : Opcode) (d : Fin 16) (n : Nat) (s : State) :
    (s.cfg.arithOverflow = .wrap ∨ n < 2 ^ 64 →
      ∃ t, finishArith o d n s = .next t ∧ WritesReg d (BitVec.ofNat 64 (n % 2 ^ 64)) [] s t) ∧
    (s.cfg.arithOverflow = .fatal → 2 ^ 64 ≤ n → EndsFatal (.arithmeticOverflow o s.pc) s (finishArith o d n s)) := by
  refine ⟨fun h => ?_, fun hc hn => ?_⟩
  · have hfits : s.cfg.arithOverflow = .wrap ∨ (0 ≤ (n : Int) ∧ (n : Int) < 2 ^ 64) := h.imp id fun hn => by omega
    rw [finishArith_ok hfits, BitVec.ofInt_natCast, ofNat_mod_two_pow]
    exact writeAndNext_writesReg d _ s
  · rw [finishArith_overflow hc (.inr (by omega))]
    exact endsFatal_raiseFatal _ s

/-- An exact difference (40_alu.md rules R120 and R125). -/
theorem finishArith_sub (o : Opcode) (d : Fin 16) (m n : Nat) (s : State) (hm : m < 2 ^ 64) (hn : n < 2 ^ 64) :
    (n ≤ m → ∃ t, finishArith o d (m - n : Int) s = .next t ∧ WritesReg d (BitVec.ofNat 64 (m - n)) [] s t) ∧
    (s.cfg.arithOverflow = .wrap → m < n →
      ∃ t, finishArith o d (m - n : Int) s = .next t ∧ WritesReg d (BitVec.ofNat 64 (2 ^ 64 + m - n)) [] s t) ∧
    (s.cfg.arithOverflow = .fatal → m < n →
      EndsFatal (.arithmeticOverflow o s.pc) s (finishArith o d (m - n : Int) s)) := by
  refine ⟨fun hle => ?_, fun hc hlt => ?_, fun hc hlt => ?_⟩
  · have hv : BitVec.ofInt 64 (m - n : Int) = BitVec.ofNat 64 (m - n) := by
      rw [← Int.ofNat_sub hle, BitVec.ofInt_natCast]
    rw [finishArith_ok (.inr (by omega)), hv]
    exact writeAndNext_writesReg d _ s
  · have hv : BitVec.ofInt 64 (m - n : Int) = BitVec.ofNat 64 (2 ^ 64 + m - n) := by
      apply BitVec.eq_of_toNat_eq
      rw [BitVec.toNat_ofInt, BitVec.toNat_ofNat]
      omega
    rw [finishArith_ok (.inl hc), hv]
    exact writeAndNext_writesReg d _ s
  · rw [finishArith_overflow hc (.inl (by omega))]
    exact endsFatal_raiseFatal _ s

theorem finishDivide_ok {o : Opcode} {d : Fin 16} {n m : Word} {s : State} (hm : m ≠ 0) :
    finishDivide o d n m s = writeAndNext d (BitVec.ofNat 64 (n.toNat / m.toNat)) s := if_neg hm

theorem finishDivide_zero_fatal {o : Opcode} {d : Fin 16} {n m : Word} {s : State} (hm : m = 0)
    (hc : s.cfg.div0Class = .fatal) : finishDivide o d n m s = raiseFatal (.divideByZero o s.pc) s := by
  rw [finishDivide, if_pos hm, raiseDivideByZero, hc]

theorem finishDivide_zero_stop {o : Opcode} {d : Fin 16} {n m : Word} {s : State} (hm : m = 0)
    (hc : s.cfg.div0Class = .stop) : finishDivide o d n m s = raiseStop (.divideByZero o s.pc) s := by
  rw [finishDivide, if_pos hm, raiseDivideByZero, hc]

/-- A division (40_alu.md rules R120 and R127). -/
theorem finishDivide_ends (o : Opcode) (d : Fin 16) (n m : Word) (s : State) :
    (m ≠ 0 → ∃ t, finishDivide o d n m s = .next t ∧ WritesReg d (BitVec.ofNat 64 (n.toNat / m.toNat)) [] s t) ∧
    (m = 0 → s.cfg.div0Class = .fatal → EndsFatal (.divideByZero o s.pc) s (finishDivide o d n m s)) ∧
    (m = 0 → s.cfg.div0Class = .stop →
      ∃ t, finishDivide o d n m s = .next t ∧ StopsWith (.divideByZero o s.pc) s.devices [] s t) := by
  refine ⟨fun hm => ?_, fun hm hc => ?_, fun hm hc => ?_⟩
  · rw [finishDivide_ok hm]
    exact writeAndNext_writesReg d _ s
  · rw [finishDivide_zero_fatal hm hc]
    exact endsFatal_raiseFatal _ s
  · rw [finishDivide_zero_stop hm hc]
    exact raiseStop_stopsWith _ s s.devices []

/-- The program-counter update to a target. -/
theorem writesPc_target (v : Word) (s : State) : WritesPc v s (s.retire (.target v)) :=
  ⟨s.pc_retire_target v, (writesPc_retire _ s).2⟩

/-- The program-counter update to the next cell. -/
theorem writesPc_next (s : State) : WritesPc (s.pc + 1) s (s.retire .next) :=
  ⟨s.pc_retire_next, (writesPc_retire _ s).2⟩

/-- A conditional branch (42_control.md rules R180 and R187); `q` is the condition under which it falls through. -/
theorem finishBranch_ends (p q : Prop) [Decidable p] (hpq : q → ¬ p) (addr : Slot) (s : State) :
    ∃ t, finishBranch (decide p) addr s = .next t ∧
      (p → WritesPc (BitVec.ofNat 64 addr.toNat) s t) ∧ (q → WritesPc (s.pc + 1) s t) := by
  refine ⟨_, rfl, fun hp => ?_, fun hq => ?_⟩
  · rw [decide_eq_true hp, if_pos rfl, zext64_eq]
    exact writesPc_target _ s
  · rw [decide_eq_false (hpq hq), if_neg Bool.false_ne_true]
    exact writesPc_next s

/-! ### Arithmetic -/

/-- Settles O14: the exact sum is not negative. -/
theorem addStoresTheSumModulo : Obligations.AddStoresTheSumModulo := by
  refine ⟨checksSlots01_of_withRegs fun a0 a1 s => ⟨_, exec_add ..⟩, fun a0 a1 d r s h0 h1 => ?_⟩
  rw [exec_add, withRegs_ok h0 h1]
  exact finishArith_natCast ..

/-- Settles O15: the exact difference, in its three cases. -/
theorem subStoresTheDifferenceModulo : Obligations.SubStoresTheDifferenceModulo := by
  refine ⟨checksSlots01_of_withRegs fun a0 a1 s => ⟨_, exec_sub ..⟩, fun a0 a1 d r s h0 h1 => ?_⟩
  rw [exec_sub, withRegs_ok h0 h1]
  exact finishArith_sub _ _ _ _ _ (s.readReg d).isLt (s.readReg r).isLt

/-- Settles O16: the exact product is not negative. -/
theorem mulStoresTheProductModulo : Obligations.MulStoresTheProductModulo := by
  refine ⟨checksSlots01_of_withRegs fun a0 a1 s => ⟨_, exec_mul ..⟩, fun a0 a1 d r s h0 h1 => ?_⟩
  rw [exec_mul, withRegs_ok h0 h1]
  exact finishArith_natCast ..

/-- Settles O17: the divisor is a register. -/
theorem divStoresTheQuotient : Obligations.DivStoresTheQuotient := by
  refine ⟨checksSlots01_of_withRegs fun a0 a1 s => ⟨_, exec_div ..⟩, fun a0 a1 d r s h0 h1 => ?_⟩
  rw [exec_div, withRegs_ok h0 h1]
  exact finishDivide_ends ..

/-- Settles O18: as Add, with the zero-extended immediate. -/
theorem addiStoresTheSumModulo : Obligations.AddiStoresTheSumModulo := by
  refine ⟨fun imm => checksSlot0_of_withReg fun a0 s => ⟨_, exec_addi ..⟩, fun a0 imm d s h0 => ?_⟩
  rw [exec_addi, withReg_ok h0]
  exact finishArith_natCast ..

/-- Settles O19: as Sub, with the zero-extended immediate. -/
theorem subiStoresTheDifferenceModulo : Obligations.SubiStoresTheDifferenceModulo := by
  refine ⟨fun imm => checksSlot0_of_withReg fun a0 s => ⟨_, exec_subi ..⟩, fun a0 imm d s h0 => ?_⟩
  rw [exec_subi, withReg_ok h0]
  exact finishArith_sub _ _ _ _ _ (s.readReg d).isLt (Nat.lt_trans imm.isLt (by norm_num))

/-- Settles O20: as Mul, with the zero-extended immediate. -/
theorem muliStoresTheProductModulo : Obligations.MuliStoresTheProductModulo := by
  refine ⟨fun imm => checksSlot0_of_withReg fun a0 s => ⟨_, exec_muli ..⟩, fun a0 imm d s h0 => ?_⟩
  rw [exec_muli, withReg_ok h0]
  exact finishArith_natCast ..

/-- The zero immediate is the zero divisor. -/
theorem zext64_eq_zero {v : Slot} : zext64 v = 0 ↔ v = 0 := by
  rw [← BitVec.toNat_inj, ← BitVec.toNat_inj, toNat_zext64]; rfl

/-- Settles O21: as Div, with the zero-extended immediate as the divisor. -/
theorem diviStoresTheQuotient : Obligations.DiviStoresTheQuotient := by
  refine ⟨fun imm => checksSlot0_of_withReg fun a0 s => ⟨_, exec_divi ..⟩, fun a0 imm d s h0 => ?_⟩
  rw [exec_divi, withReg_ok h0, ← toNat_zext64 imm, Ne, ← zext64_eq_zero]
  exact finishDivide_ends ..

/-! ### Moves -/

/-- Settles O22: the source is read before the destination is written. -/
theorem movCopiesARegister : Obligations.MovCopiesARegister := by
  refine ⟨checksSlots01_of_withRegs fun a0 a1 s => ⟨_, exec_mov ..⟩, fun a0 a1 d r s h0 h1 => ?_⟩
  rw [exec_mov, withRegs_ok h0 h1]
  exact writeAndNext_writesReg ..

/-- Settles O23: the value written is the zero-extended immediate. -/
theorem moviStoresTheImmediate : Obligations.MoviStoresTheImmediate := by
  refine ⟨fun imm => checksSlot0_of_withReg fun a0 s => ⟨_, exec_movi ..⟩, fun a0 imm d s h0 => ?_⟩
  rw [exec_movi, withReg_ok h0, zext64_eq]
  exact writeAndNext_writesReg ..

/-- Settles O13: Nop is the program-counter update alone. -/
theorem nopOnlyAdvancesThePc : Obligations.NopOnlyAdvancesThePc := by
  refine ⟨fun a b c => (decodeReadsTheOpcodeMap a b c).1, fun s => ⟨s.retire .next, exec_nop s, writesPc_next s⟩⟩

/-! ### Branches and the jump to a register -/

/-- Settles O27: a branch on equality. -/
theorem beqBranchesOnEqual : Obligations.BeqBranchesOnEqual := by
  refine ⟨fun addr => checksSlots01_of_withRegs fun a0 a1 s => ⟨_, exec_beq ..⟩, fun a0 a1 addr l r s h0 h1 => ?_⟩
  rw [exec_beq, withRegs_ok h0 h1]
  exact finishBranch_ends _ _ id addr s

/-- Settles O28: a branch on difference. -/
theorem bneBranchesOnDifferent : Obligations.BneBranchesOnDifferent := by
  refine ⟨fun addr => checksSlots01_of_withRegs fun a0 a1 s => ⟨_, exec_bne ..⟩, fun a0 a1 addr l r s h0 h1 => ?_⟩
  rw [exec_bne, withRegs_ok h0 h1]
  exact finishBranch_ends _ _ not_not_intro addr s

/-- Settles O29: a branch on the unsigned order. -/
theorem bltBranchesOnLess : Obligations.BltBranchesOnLess := by
  refine ⟨fun addr => checksSlots01_of_withRegs fun a0 a1 s => ⟨_, exec_blt ..⟩, fun a0 a1 addr l r s h0 h1 => ?_⟩
  rw [exec_blt, withRegs_ok h0 h1]
  exact finishBranch_ends _ _ Nat.not_lt.mpr addr s

/-- Settles O30: a branch on the unsigned order the other way. -/
theorem bgtBranchesOnGreater : Obligations.BgtBranchesOnGreater := by
  refine ⟨fun addr => checksSlots01_of_withRegs fun a0 a1 s => ⟨_, exec_bgt ..⟩, fun a0 a1 addr l r s h0 h1 => ?_⟩
  rw [exec_bgt, withRegs_ok h0 h1]
  exact finishBranch_ends _ _ Nat.not_lt.mpr addr s

/-- Settles O32: the program-counter update to the value of the register. -/
theorem jmpRGoesToTheRegister : Obligations.JmpRGoesToTheRegister := by
  refine ⟨checksSlot0_of_withReg fun a0 s => ⟨_, exec_jmpR ..⟩, fun a0 r s h0 => ?_⟩
  rw [exec_jmpR, withReg_ok h0]
  exact ⟨_, rfl, writesPc_target _ s⟩

end Sys2Proof.Safety
end

section
/-! Proofs of the statements about 10_state.md section 9 and 41_load_store.md: the fetch, and the one access of Load and
Store. -/

namespace Sys2Proof.Safety

open Sys2Proof Sys2Proof.Machine

/-! ### What a step is -/

theorem step_of_fetch {s : State} (hr : s.runState = .running) (hp : s.phase = .fetch) :
    step s = cycleWith exec s := stepWith_fetch hr hp

theorem step_of_traverse {s : State} {d a : Word} (hr : s.runState = .running) (hp : s.phase = .traverse d a) :
    step s = traverseCell d a s := stepWith_traverse hr hp

theorem step_of_stopped {s : State} (hr : s.runState = .stopped) : step s = .next s := stepWith_stopped hr

theorem step_of_fatal {s : State} (hr : s.runState = .fatal) : step s = .fault .coreIsFatal := stepWith_fatal hr

theorem cycleWith_instr {run : Instr → State → Out} {s : State} {w : Word} {i : Instr}
    (hm : s.present.memRead = true) (ha : s.readAnswer s.pc = .word w) (hd : decode w = .instr i) :
    cycleWith run s = run i (s.emit (.memRead s.pc (some w))) := by
  rw [cycleWith, memRead_ok hm ha, hd]

theorem cycleWith_unknown {run : Instr → State → Out} {s : State} {w : Word} {op : Slot}
    (hm : s.present.memRead = true) (ha : s.readAnswer s.pc = .word w) (hd : decode w = .unknownOpcode op) :
    cycleWith run s = raiseFatal (.unknownOpcode op s.pc) (s.emit (.memRead s.pc (some w))) := by
  rw [cycleWith, memRead_ok hm ha, hd, State.pc_emit]

theorem fetched_eq_some {s : State} {w : Word} :
    fetched s = some w ↔ s.present.memRead = true ∧ s.readAnswer s.pc = .word w := by
  unfold fetched
  cases s.present.memRead <;> cases s.readAnswer s.pc <;> simp

theorem fetchedInstr_eq_some {s : State} {i : Instr} :
    fetchedInstr s = some i ↔ ∃ w, fetched s = some w ∧ decode w = .instr i := by
  unfold fetchedInstr
  cases hf : fetched s with
  | none => simp
  | some w => cases hd : decode w <;> simp [hd]

/-- A Running core before a fetch runs the instruction that it fetches. -/
theorem step_of_fetchedInstr {s : State} {i : Instr} (hr : s.runState = .running) (hp : s.phase = .fetch)
    (hi : fetchedInstr s = some i) : ∃ w, step s = exec i (s.emit (.memRead s.pc (some w))) := by
  obtain ⟨w, hw, hd⟩ := fetchedInstr_eq_some.mp hi
  obtain ⟨hm, ha⟩ := fetched_eq_some.mp hw
  exact ⟨w, by rw [step_of_fetch hr hp, cycleWith_instr hm ha hd]⟩

/-- Settles O6: the fetch is answered, the word decodes, and what is left of the cycle is exec. -/
theorem stepRunsTheDecodedInstruction : Obligations.StepRunsTheDecodedInstruction := by
  intro s w i hr hp hm ha hd
  rw [step_of_fetch hr hp, cycleWith_instr hm ha hd]

/-- The read responder answers the fetch of a placed word with that word. -/
theorem readAnswer_placeWord {s : State} (w : Word) (hw : s.mem.wf = true) :
    (s.placeWord w).readAnswer s.pc = .word w :=
  MemReadReply.answer_cell (Memory.read_place_same w hw)

theorem runState_placeWord (s : State) (w : Word) : (s.placeWord w).runState = .running :=
  State.runState_running.mpr ⟨rfl, Flags.running_setRunning s.flags⟩

theorem decode_of_decodeTableWord {n w : Nat} {i : Instr} (h : decodeTableWord n w = some i) :
    decode (tableWord n w) = .instr i := by
  unfold decodeTableWord at h
  cases hd : decode (tableWord n w) <;> simp_all

/-- Settles O7: the placed word stands in its cell and the read responder answers as the cells say. -/
theorem stepRunsThePlacedWord : Obligations.StepRunsThePlacedWord := by
  intro s n w i hwf hi
  have hpc : (s.withFetchWord n w).pc = s.pc := s.pc_placeWord _
  have hword : (s.withFetchWord n w).readAnswer (s.withFetchWord n w).pc = .word (tableWord n w) := by
    rw [hpc]; exact readAnswer_placeWord _ hwf
  have hrun : (s.withFetchWord n w).runState = .running := runState_placeWord s _
  refine ⟨hpc, ?_⟩
  rw [step_of_fetch hrun rfl, cycleWith_instr rfl hword (decode_of_decodeTableWord hi), hpc]

/-- Settles O8: the opcode field names no opcode, so the cycle ends after the decoding. -/
theorem unknownOpcodeIsFatal : Obligations.UnknownOpcodeIsFatal := by
  intro s w hr hp hf hop
  obtain ⟨hm, ha⟩ := fetched_eq_some.mp hf
  rw [step_of_fetch hr hp, cycleWith_unknown hm ha (decode_unknown hop)]
  exact endsFatal_raiseFatal _ _

/-- Settles O9: both are recoverable faults of the one read request. -/
theorem fetchFaultsStopTheCore : Obligations.FetchFaultsStopTheCore := by
  intro s hr hp
  rw [step_of_fetch hr hp]
  refine ⟨fun hm => ?_, fun hm ha => ?_⟩
  · rw [cycleWith, memRead_absent hm]
    exact raiseStop_stopsWith _ s s.devices []
  · rw [cycleWith, memRead_outOfBounds hm ha]
    exact raiseStop_stopsWith _ s s.devices [.memRead s.pc none]

theorem runFor_stopped {t : Tracked} (n : Nat) (h : t.s.runState = .stopped) :
    runFor n t = some (.stopped { t := t, inRun := false }) := by
  cases n <;> rw [runFor, h]

/-- Settles O10: by the run state, before any step of the run. -/
theorem stoppedCoreDoesNothing : Obligations.StoppedCoreDoesNothing := by
  intro s written n h
  exact ⟨step_of_stopped h, runFor_stopped n h⟩

/-- Settles O12: the step of a waiting core. -/
theorem waitingCoreStaysRunning : Obligations.WaitingCoreStaysRunning := by
  intro s hr hp
  exact stepWith_waiting hr hp

/-! ### Load -/

theorem zext64_of_toNat_eq {p : Word} {addr : Slot} (h : p.toNat = addr.toNat) : zext64 addr = p :=
  BitVec.eq_of_toNat_eq (by rw [toNat_zext64, h])

/-- Settles O24: the index check, then the outcomes of one read request. -/
theorem loadReadsOneCell : Obligations.LoadReadsOneCell := by
  refine ⟨fun addr => checksSlot0_of_withReg fun a0 s => ⟨_, exec_load ..⟩, fun a0 addr p d s h0 hp => ?_⟩
  rw [exec_load, withReg_ok h0, zext64_of_toNat_eq hp, ← hp]
  refine ⟨fun v hm ha => ?word, fun hm => ?absent, fun hm ha => ?outOfBounds, fun v hr hc => ?cell,
    fun hr hc hb => ?noCell⟩
  case word =>
    rw [memRead_ok hm ha]
    exact writesReg_writeAndNext d v [.memRead p (some v)] s
  case absent =>
    rw [memRead_absent hm]
    exact raiseStop_stopsWith _ s s.devices []
  case outOfBounds =>
    rw [memRead_outOfBounds hm ha]
    exact raiseStop_stopsWith _ s s.devices [.memRead p none]
  case cell => rw [State.readAnswer, hr]; exact MemReadReply.answer_cell hc
  case noCell => rw [State.readAnswer, hr]; exact MemReadReply.answer_missing hc hb

/-! ### Store -/

theorem read_store_of_none {m : Memory} {a : Nat} (v : Word) (h : m.read a = none) :
    (m.store a v).read a = none := by
  have hnone : ((m.store a v).read a).isSome = false := by rw [Memory.isSome_read_store, h]; rfl
  exact Option.isSome_eq_false_iff.mp hnone |> Option.isNone_iff_eq_none.mp

/-- An instruction that has stored a word and goes on in the phase it began in (41_load_store.md rule R162,
43_system.md rule R204). -/
theorem storeCell_ends {a : Nat} {v : Word} {ds : List Binding} {es : List Event} {s t : State}
    (ht : t = (((s.via ds es).storeCell a v).setPhase s.phase).retire .next) :
    t.pc = s.pc + 1 ∧
      (∀ w, s.mem.wf = true → s.mem.read a = some w → t.mem.read a = some v) ∧
      (s.mem.read a = none → t.mem.read a = none) ∧ Frame [s.cfg.pcIndex] [a] ds es s t := by
  subst ht
  refine ⟨State.pc_retire_next _, fun w hwf hw => ?_, fun hn => ?_, ?_⟩
  · simpa using Memory.read_store_same hwf (Memory.mapped_of_read hw)
  · simpa using read_store_of_none v hn
  · exact
      { regs := fun r hr => State.readReg_retire_other _ _ (by simpa using hr)
        mem := fun b hb => by
          have hne : b ≠ a := by simpa using hb
          simpa using Memory.read_store_other v hne
        flags := by simp, stack := by simp, cfg := by simp, present := by simp, fatal := by simp, phase := by simp
        reads := by simp, writes := by simp, devices := by simp, trace := by simp }

/-- Settles O25: the index check, then the outcomes of one write request. -/
theorem storeWritesOneCell : Obligations.StoreWritesOneCell := by
  refine ⟨fun addr => checksSlot0_of_withReg fun a0 s => ⟨_, exec_store ..⟩, fun a0 addr p r s h0 hp => ?_⟩
  rw [exec_store, withReg_ok h0, zext64_of_toNat_eq hp, ← hp]
  refine ⟨fun hm ha => ?ok, fun hm => ?absent, fun hm ha => ?outOfBounds, fun v hr hc => ?cell,
    fun hr hc hb => ?noCell⟩
  case ok =>
    rw [memWrite_ok hm ha]
    exact ⟨_, rfl, storeCell_ends (es := [.memWrite p (s.readReg r) true]) rfl⟩
  case absent =>
    rw [memWrite_absent hm]
    exact raiseStop_stopsWith _ s s.devices []
  case outOfBounds =>
    rw [memWrite_outOfBounds hm ha]
    exact raiseStop_stopsWith _ s s.devices [.memWrite p (s.readReg r) false]
  case cell => rw [State.writeAnswer, hr]; exact MemWriteReply.answer_cell (Memory.mapped_of_read hc)
  case noCell =>
    have hmapped : s.mem.mapped p.toNat = false := by
      cases hmap : s.mem.mapped p.toNat
      · rfl
      · rw [Memory.read, if_pos hmap] at hc; cases hc
    rw [State.writeAnswer, hr, MemWriteReply.answer, hmapped, hb]; rfl

/-- Settles O26: the Store's step ends at the cell that holds the word, and the read responder answers as the cells
say. -/
theorem storedWordIsFetchedNext : Obligations.StoredWordIsFetchedNext := by
  intro s a0 addr r hwf hr hp hi h0 hm ⟨v, hv⟩ hwrites hreads hpc
  obtain ⟨w, hw, hd⟩ := fetchedInstr_eq_some.mp hi
  obtain ⟨hmr, ha⟩ := fetched_eq_some.mp hw
  have hok : (s.emit (.memRead s.pc (some w))).writeAnswer (zext64 addr) = .ok := by
    show s.writes.head.answer s.mem (zext64 addr).toNat = .ok
    rw [hwrites, toNat_zext64]
    exact MemWriteReply.answer_cell (Memory.mapped_of_read hv)
  have hm' : (s.emit (.memRead s.pc (some w))).present.memWrite = true := hm
  have hstep := stepRunsTheDecodedInstruction s w _ hr hp hmr ha hd
  rw [exec_store, withReg_ok h0, memWrite_ok hm' hok, toNat_zext64] at hstep
  refine ⟨_, hstep, by simpa using hr, by simpa using hp, fetched_eq_some.mpr ⟨by simpa using hmr, ?_⟩⟩
  have hcell : (s.mem.store addr.toNat (s.readReg r)).read addr.toNat = some (s.readReg r) :=
    Memory.read_store_same hwf (Memory.mapped_of_read hv)
  rw [State.pc_retire_next]
  show (s.reads.after 1).head.answer (s.mem.store addr.toNat (s.readReg r)) (s.pc + 1).toNat = .word (s.readReg r)
  rw [hreads, hpc, ← zext64_eq, toNat_zext64]
  exact MemReadReply.answer_cell hcell

end Sys2Proof.Safety
end

section
/-! Proofs of the statements about 43_system.md: the Read path of a Syscall, and the faults and the missing answers of a
Write traversal's cell. -/

namespace Sys2Proof.Safety

open Sys2Proof Sys2Proof.Machine

/-! ### The Read path -/

/-- Settles O35: the fault of the resolve request. -/
theorem syscallOnUnboundDescriptorStops : Obligations.SyscallOnUnboundDescriptorStops := by
  intro s hio hd
  rw [exec_syscall, execSyscall_unbound hio hd]
  exact raiseStop_stopsWith _ s s.devices [.ioResolve (s.readReg 3) none]

/-- A Syscall on a Read device that gives a byte goes on to the memory write of that byte (43_system.md rule R204). -/
theorem exec_syscall_byte {s : State} {dev : Device} {b : Byte} (hio : s.present.io = true)
    (hd : deviceAt (s.readReg 3) s.devices = some dev) (ht : dev.tag = some .read) (hb : dev.answerRead.1 = .byte b) :
    exec .syscall s = memWrite .syscallRead (s.readReg 4) (BitVec.ofNat 64 b.toNat)
      (s.via (setDevice (s.readReg 3) dev.answerRead.2 s.devices)
        [.devRead (s.readReg 3) (.byte b), .ioResolve (s.readReg 3) (some .read)]) finishSyscall := by
  have hd' : deviceAt (s.readReg 3) (s.emit (.ioResolve (s.readReg 3) (some .read))).devices = some dev := hd
  rw [exec_syscall, execSyscall_reader hio hd ht, landByte, devRead_byte hd' hb, zextByte_eq, State.afterDevRead, hb]
  rfl

/-- Settles O36: resolve, device read and memory write, in that order, each answered. -/
theorem syscallReadLandsOneByte : Obligations.SyscallReadLandsOneByte := by
  intro s dev b hio hd ht hb hm hp ha
  rw [exec_syscall_byte hio hd ht hb, memWrite_ok (by exact hm) (by exact ha)]
  refine ⟨_, rfl, storeCell_ends ?_⟩
  rw [hp]
  rfl

/-- Settles O37: the faults of the device read and of the memory write after it. -/
theorem syscallReadFaultsStop : Obligations.SyscallReadFaultsStop := by
  intro s dev hio hd ht
  refine ⟨fun hf => ?fails, fun b hb hm => ?absent, fun b hb hm ha => ?outOfBounds⟩
  case fails =>
    have hd' : deviceAt (s.readReg 3) (s.emit (.ioResolve (s.readReg 3) (some .read))).devices = some dev := hd
    rw [exec_syscall, execSyscall_reader hio hd ht, landByte, devRead_fails hd' hf, State.afterDevRead, hf]
    exact raiseStop_stopsWith _ s _ [.devRead (s.readReg 3) .fails, .ioResolve (s.readReg 3) (some .read)]
  case absent =>
    rw [exec_syscall_byte hio hd ht hb, memWrite_absent (by exact hm)]
    exact raiseStop_stopsWith ..
  case outOfBounds =>
    rw [exec_syscall_byte hio hd ht hb, memWrite_outOfBounds (by exact hm) (by exact ha)]
    exact raiseStop_stopsWith _ s _ [.memWrite (s.readReg 4) (BitVec.ofNat 64 b.toNat) false,
      .devRead (s.readReg 3) (.byte b), .ioResolve (s.readReg 3) (some .read)]

/-- A core whose step answers the same state stays there, however many steps are taken. -/
theorem core_run_fixed {s : State} (h : step s = .next s) (n : Nat) : Host.Core.run Sys2Proof.core n s = .next s := by
  induction n with
  | zero => exact core_run_zero s
  | succ n ih => rw [core_run_next n h, ih]

/-- Settles O41: the device read leaves the core waiting, and a waiting core stays as it is. -/
theorem syscallOnSilentDeviceNeverCompletes : Obligations.SyscallOnSilentDeviceNeverCompletes := by
  intro s dev n hr hio hd ht ha
  have hd' : deviceAt (s.readReg 3) (s.emit (.ioResolve (s.readReg 3) (some .read))).devices = some dev := hd
  rw [exec_syscall, execSyscall_reader hio hd ht, landByte, devRead_never hd' ha]
  exact ⟨_, rfl, rfl, hr, rfl, rfl, core_run_fixed (waitingCoreStaysRunning _ (by exact hr) rfl) n⟩

/-! ### One cell of a Write traversal -/

theorem lowByte_eq_zero {c : Word} : lowByte c = 0 ↔ c.toNat % 256 = 0 := by
  rw [lowByte_eq, ← BitVec.toNat_inj, BitVec.toNat_ofNat]
  rfl

/-- A cell whose word has no zero byte goes on to the device write of its byte (43_system.md rule R205). -/
theorem traverseCell_byte {d a c : Word} {s : State} (hm : s.present.memRead = true) (ha : s.readAnswer a = .word c)
    (hc : c.toNat % 256 ≠ 0) :
    traverseCell d a s = devWrite d (BitVec.ofNat 8 c.toNat) a (s.emit (.memRead a (some c)))
      fun t => .next (t.setPhase (.traverse d (a + 1))) := by
  rw [traverseCell, memRead_ok hm ha, if_neg (mt lowByte_eq_zero.mp hc), lowByte_eq]

/-- A cell whose word has the zero byte ends the Syscall. -/
theorem traverseCell_zero {d a c : Word} {s : State} (hm : s.present.memRead = true) (ha : s.readAnswer a = .word c)
    (hc : lowByte c = 0) : traverseCell d a s = finishSyscall (s.emit (.memRead a (some c))) := by
  rw [traverseCell, memRead_ok hm ha, if_pos hc]

/-- Events that are no requests to the memory read port leave its next answer. -/
theorem readAnswer_via {ds : List Binding} {es : List Event} (h : ∀ p, memRequests p es = 0) (s : State) (a : Word) :
    (s.via ds es).readAnswer a = s.readAnswer a :=
  State.readAnswer_congr (s := s) (t := s.via ds es) (by rw [State.via_reads, h, Replies.after_zero]) rfl a

/-- What one event more does, after events of the same step. -/
theorem emit_via (s : State) (ds : List Binding) (es : List Event) (e : Event) :
    (s.via ds es).emit e = s.via ds (e :: es) := by
  rw [State.emit_eq_via, State.via_via]; rfl

theorem afterDevWrite_via (s : State) (ds : List Binding) (es : List Event) (d : Word) (b : Byte) (dev : Device) :
    (s.via ds es).afterDevWrite d b dev =
      s.via (setDevice d dev.answerWrite.2 ds) (.devWrite d b dev.answerWrite.1 :: es) := by
  have h : (s.via ds es).afterDevWrite d b dev =
      (s.via ds es).via (setDevice d dev.answerWrite.2 ds) [.devWrite d b dev.answerWrite.1] := rfl
  rw [h, State.via_via]; rfl

section
variable {d a : Word} {before : List Event} {s : State} (hb : ∀ p, memRequests p before = 0)
include hb

theorem traverseCell_faultsStop : CellFaultsStop d a before s (traverseCell d a (s.via s.devices before)) := by
  refine ⟨fun hm => ?_, fun hm ha => ?_, fun c dev hm ha hc hd hf => ?_⟩
  · rw [traverseCell, memRead_absent (by exact hm)]
    exact raiseStop_stopsWith ..
  · rw [traverseCell, memRead_outOfBounds (by exact hm) ((readAnswer_via hb s a).trans ha), emit_via]
    exact raiseStop_stopsWith ..
  · rw [traverseCell_byte (by exact hm) ((readAnswer_via hb s a).trans ha) hc, emit_via,
      devWrite_fails (by exact hd) hf, afterDevWrite_via, hf]
    exact raiseStop_stopsWith ..

theorem traverseCell_unanswered : CellUnanswered d a before s (traverseCell d a (s.via s.devices before)) := by
  refine ⟨fun hm ha => ?_, fun c dev hm ha hc hd hf => ?_⟩
  · rw [traverseCell, memRead_never (by exact hm) ((readAnswer_via hb s a).trans ha), emit_via]
    simp [State.via, State.setPhase, hb]
  · rw [traverseCell_byte (by exact hm) ((readAnswer_via hb s a).trans ha) hc, emit_via,
      devWrite_never (by exact hd) hf, afterDevWrite_via, hf]
    simp [State.via, State.setPhase, hb]

end

/-- Settles O39: the faults of one cell, without and with the resolve before it. -/
theorem traversalFaultsStop : Obligations.TraversalFaultsStop := by
  refine ⟨fun s d a hr hp => ?_, fun s dev hio hd ht => ?_⟩
  · rw [step_of_traverse hr hp]
    exact traverseCell_faultsStop (before := []) fun _ => rfl
  · rw [exec_syscall, execSyscall_writer hio hd ht]
    exact traverseCell_faultsStop (before := [.ioResolve (s.readReg 3) (some .write)]) fun _ => rfl

/-- Settles O42: for each request its case of no answer, with the events before it. -/
theorem unansweredRequestsLeaveTheCoreWaiting : Obligations.UnansweredRequestsLeaveTheCoreWaiting := by
  refine ⟨fun s hr hp hm ha => ?fetch, fun a0 addr p r s h0 hp => ⟨fun hm ha => ?load, fun hm ha => ?store⟩,
    fun s d a hr hp => ?cell, fun s dev hio hd =>
      ⟨fun ht => ?resolve, fun ht => ?firstCell, fun ht ha => ?devRead, fun b ht hb hm ha => ?land⟩⟩
  case fetch => rw [step_of_fetch hr hp, cycleWith, memRead_never hm ha]; rfl
  case load => rw [exec_load, withReg_ok h0, zext64_of_toNat_eq hp, memRead_never hm ha]; rfl
  case store => rw [exec_store, withReg_ok h0, zext64_of_toNat_eq hp, memWrite_never hm ha]; rfl
  case cell =>
    rw [step_of_traverse hr hp]
    exact traverseCell_unanswered (before := []) fun _ => rfl
  case resolve => rw [exec_syscall, execSyscall_silent hio hd ht]; rfl
  case firstCell =>
    rw [exec_syscall, execSyscall_writer hio hd ht]
    exact traverseCell_unanswered (before := [.ioResolve (s.readReg 3) (some .write)]) fun _ => rfl
  case devRead =>
    have hd' : deviceAt (s.readReg 3) (s.emit (.ioResolve (s.readReg 3) (some .read))).devices = some dev := hd
    rw [exec_syscall, execSyscall_reader hio hd ht, landByte, devRead_never hd' ha, State.afterDevRead, ha]
    rfl
  case land => rw [exec_syscall_byte hio hd ht hb, memWrite_never (by exact hm) (by exact ha)]; rfl

end Sys2Proof.Safety
end

section
/-! Proofs of the statements about a Write traversal as a whole (43_system.md rules R205 and R207): inductions over the
string, and over the number of steps. -/

namespace Sys2Proof.Safety

open Sys2Proof Sys2Proof.Machine

/-! ### Devices and events of a string -/

theorem setDevice_self {d : Word} {dev : Device} : ∀ {bs : List Binding},
    deviceAt d bs = some dev → setDevice d dev bs = bs
  | [], h => by cases h
  | b :: rest, h => by
    unfold deviceAt at h
    unfold setDevice
    split at h
    · rename_i hb
      cases h
      rw [if_pos hb, ← hb]
    · rename_i hb
      rw [if_neg hb, setDevice_self h]

@[simp] theorem setDevice_setDevice (d : Word) (dev dev' : Device) : ∀ bs : List Binding,
    setDevice d dev' (setDevice d dev bs) = setDevice d dev' bs
  | [] => rfl
  | b :: rest => by
    by_cases hb : b.desc = d
    · simp [setDevice, hb]
    · simp [setDevice, hb, setDevice_setDevice d dev dev' rest]

@[simp] theorem memRequests_read_stringEvents (d z : Word) : ∀ (cs : List Word) (p : Word),
    memRequests .read (stringEvents d z p cs) = cs.length + 1
  | [], _ => rfl
  | c :: cs, p => by
    rw [stringEvents, memRequests_append, memRequests_read_stringEvents d z cs]
    rfl

theorem accepted_append (d : Word) (es fs : List Event) :
    accepted d (es ++ fs) = accepted d fs ++ accepted d es := by
  induction es with
  | nil => simp [accepted]
  | cons e es ih =>
    cases e with
    | devWrite d' b a => cases a <;> by_cases hd : d' = d <;> simp [accepted, ih, hd]
    | _ => simpa [accepted] using ih

theorem accepted_stringEvents (d z : Word) : ∀ (cs : List Word) (p : Word),
    accepted d (stringEvents d z p cs) = cs.map fun c => BitVec.ofNat 8 c.toNat
  | [], _ => rfl
  | c :: cs, p => by
    rw [stringEvents, accepted_append, accepted_stringEvents d z cs]
    simp [accepted, lowByte_eq]

/-! ### Cells one after another -/

/-- The state after one cell of a Write traversal whose byte the device has accepted. -/
def afterCell (d a c : Word) (dev : Device) (s : State) : State :=
  (s.via (setDevice d dev.answerWrite.2 s.devices) [.devWrite d (lowByte c) .accepts, .memRead a (some c)]).setPhase
    (.traverse d (a + 1))

theorem traverseCell_accepts {d a c : Word} {dev : Device} {s : State} (hm : s.present.memRead = true)
    (ha : s.readAnswer a = .word c) (hc : c.toNat % 256 ≠ 0) (hd : deviceAt d s.devices = some dev)
    (hw : dev.answerWrite.1 = .accepts) : traverseCell d a s = .next (afterCell d a c dev s) := by
  rw [traverseCell_byte hm ha hc, devWrite_accepts (by exact hd) hw, State.emit_eq_via, afterDevWrite_via, hw,
    ← lowByte_eq]
  rfl

theorem step_afterCell {d a c : Word} {dev : Device} {s : State} (hr : s.runState = .running) :
    step (afterCell d a c dev s) = traverseCell d (a + 1) (afterCell d a c dev s) :=
  step_of_traverse hr rfl

theorem deviceAt_afterCell {d a c : Word} {dev : Device} {s : State} (hd : deviceAt d s.devices = some dev) :
    deviceAt d (afterCell d a c dev s).devices = some dev.answerWrite.2 :=
  deviceAt_setDevice_same _ hd

/-- The state after a whole string from `p` on. -/
def afterString (d z p : Word) (cs : List Word) (dev : Device) (s : State) : State :=
  ((s.via (setDevice d (afterWrites cs.length dev) s.devices) (stringEvents d z p cs)).setPhase .fetch).retire .next

/-- The rest of the string after its first cell. -/
theorem afterString_afterCell (d z p c : Word) (cs : List Word) (dev : Device) (s : State) :
    afterString d z (p + 1) cs dev.answerWrite.2 (afterCell d p c dev s) = afterString d z p (c :: cs) dev s := by
  have hvia : (afterCell d p c dev s).via (setDevice d (afterWrites cs.length dev.answerWrite.2)
        (afterCell d p c dev s).devices) (stringEvents d z (p + 1) cs) =
      (s.via (setDevice d (afterWrites (cs.length + 1) dev) s.devices) (stringEvents d z p (c :: cs))).setPhase
        (.traverse d (p + 1)) := by
    simp [afterCell, State.via, State.setPhase, stringEvents, afterWrites, Nat.add_comm]
  rw [afterString, hvia]
  rfl

/-- The traversal of a string: its first cell, and one step for each further one. -/
theorem traverseCell_string {d z : Word} : ∀ (cs : List Word) (p : Word) (dev : Device) (s : State),
    s.runState = .running → s.present.memRead = true → deviceAt d s.devices = some dev →
    AcceptsNext cs.length dev → AnswersString s.reads s.mem z p cs →
    ∃ u, traverseCell d p s = .next u ∧
      Host.Core.run Sys2Proof.core cs.length u = .next (afterString d z p cs dev s)
  | [], p, dev, s, hr, hm, hd, _, hz => by
    refine ⟨_, traverseCell_zero hm hz.1 hz.2, ?_⟩
    rw [afterString, List.length_nil, afterWrites, setDevice_self hd]
    rfl
  | c :: cs, p, dev, s, hr, hm, hd, hw, hc => by
    obtain ⟨ha, hne, hrest⟩ := hc
    obtain ⟨hacc, hws⟩ := hw
    have hcell := traverseCell_accepts hm ha (mt lowByte_eq_zero.mpr hne) hd hacc
    obtain ⟨u, hu, hrun⟩ := traverseCell_string cs (p + 1) dev.answerWrite.2 (afterCell d p c dev s) hr hm
      (deviceAt_afterCell hd) hws hrest
    refine ⟨_, hcell, ?_⟩
    rw [List.length_cons, core_run_next _ ((step_afterCell hr).trans hu), hrun, afterString_afterCell]

theorem tag_of_acceptsNext : ∀ {n : Nat} {dev : Device}, AcceptsNext n dev → dev.tag = some .write
  | 0, _, h => h
  | n + 1, dev, h => by rw [← dev.tag_answerWrite, tag_of_acceptsNext h.2]

/-- Settles O38: the Syscall resolves its device and runs the traversal of the string. -/
theorem syscallWriteEmitsExactlyTheString : Obligations.SyscallWriteEmitsExactlyTheString := by
  intro s dev z cs hr hio hm hp hd hw hs
  let resolve : Event := .ioResolve (s.readReg 3) (some .write)
  obtain ⟨u, hu, hrun⟩ := traverseCell_string cs (s.readReg 4) dev (s.emit resolve) hr hm hd hw hs
  have hend : afterString (s.readReg 3) z (s.readReg 4) cs dev (s.emit resolve) =
      (s.via (setDevice (s.readReg 3) (afterWrites cs.length dev) s.devices)
        (stringEvents (s.readReg 3) z (s.readReg 4) cs ++ [resolve])).retire .next := by
    rw [afterString, State.emit_eq_via, State.via_via, State.via_devices]
    simp only [State.setPhase, State.via, hp]
  rw [hend] at hrun
  have hframe := frame_retire_via .next (setDevice (s.readReg 3) (afterWrites cs.length dev) s.devices)
    (stringEvents (s.readReg 3) z (s.readReg 4) cs ++ [resolve]) s
  refine ⟨u, _, ?_, hrun, State.pc_retire_next _, by simpa using hr, ?_, ?_, hframe⟩
  · rw [exec_syscall, execSyscall_writer hio hd (tag_of_acceptsNext hw), hu]
  · rw [hframe.trace, List.append_assoc, accepted_append, accepted_stringEvents]
    rfl
  · rw [hframe.trace, List.append_assoc, memRequests_append, memRequests_read_stringEvents]
    show cs.length + 1 + (0 + memRequests .read s.trace) = _
    omega

/-- Settles O40: every step handles one cell, after which the same holds of the next one. -/
theorem endlessTraversalNeverCompletes : Obligations.EndlessTraversalNeverCompletes := by
  intro s d a dev n
  induction n generalizing s a dev with
  | zero =>
    intro hr hp _ _ _ _
    exact ⟨s, core_run_zero s, hr, by simpa using hp, rfl⟩
  | succ n ih =>
    intro hr hp hm hreads hd hw
    obtain ⟨c, ha, hc⟩ := hreads 0
    have ha' : s.readAnswer a = .word c := by simpa [State.readAnswer] using ha
    have hstep : step s = .next (afterCell d a c dev s) := by
      rw [step_of_traverse hr hp, traverseCell_accepts hm ha' hc hd (hw 1).1]
    have hshift : ∀ k : Nat, a + 1 + BitVec.ofNat 64 k = a + BitVec.ofNat 64 (k + 1) := fun k => by
      rw [BitVec.ofNat_add, BitVec.add_assoc, BitVec.add_comm 1]; rfl
    obtain ⟨t, hrun, htr, htp, htpc⟩ := ih (afterCell d a c dev s) (a + 1) dev.answerWrite.2 hr rfl hm
      (fun k => by
        rw [hshift, Nat.add_comm k 1]
        obtain ⟨c', h⟩ := hreads (1 + k)
        exact ⟨c', by rw [← Replies.after_after] at h; exact h⟩)
      (deviceAt_afterCell hd) fun k => (hw (k + 1)).2
    exact ⟨t, (core_run_next n hstep).trans hrun, htr, htp.trans (by rw [hshift]), htpc⟩

end Sys2Proof.Safety
end

section
/-! Proofs of the statements about every step of the machine. All that a step can answer is said once, in `StepResult`,
and each statement is read off its cases. -/

namespace Sys2Proof.Safety

open Sys2Proof Sys2Proof.Machine

/-! ### What a step can answer -/

/-- The step may store a word at the address: it runs a Store to it, or a Syscall on a Read device that lands there
(20_memory.md rule R68). -/
def MayStore (s : State) (a : Nat) : Prop :=
  s.runState = .running ∧ s.phase = .fetch ∧
    ((∃ a0 addr, fetchedInstr s = some (.store a0 addr) ∧ a = addr.toNat) ∨
      (fetchedInstr s = some .syscall ∧ a = (s.readReg 4).toNat ∧ s.present.io = true ∧
        (deviceAt (s.readReg 3) s.devices).map Device.tag = some (some .read)))

/-- What every step that answers a next state `t` changes at most, registers, flags and phase aside. -/
structure Advances (s t : State) : Prop where
  stack : t.stack = s.stack
  cfg : t.cfg = s.cfg
  present : t.present = s.present
  fatal : t.fatal = s.fatal
  devices : DevicesAdvance s.devices t.devices
  events : ∃ es, t.trace = es ++ s.trace ∧ es.length ≤ 5 ∧
    t.reads = s.reads.after (memRequests .read es) ∧ t.writes = s.writes.after (memRequests .write es)
  mem : t.mem = s.mem ∨ ∃ a v, MayStore s a ∧ t.mem = s.mem.store a v

/-- Everything that the step of `s` can answer. -/
inductive StepResult (s : State) : Out → Prop
  | coreIsFatal (hf : s.fatal = true) : StepResult s (.fault .coreIsFatal)
  | idle (hf : s.fatal = false) (hp : s.runState = .running → s.phase = .waiting) : StepResult s (.next s)
  | fatal (r : Report) (u : State) (hr : s.runState = .running) (hc : fatalClass s.cfg r = true) :
      StepResult s (.fault (.fatal r (u.enterFatal r)))
  | stop (r : Report) (ds : List Binding) (es : List Event) (hr : s.runState = .running)
      (hc : recoverable s.cfg r = true) (hds : DevicesAdvance s.devices ds) (hes : es.length ≤ 4) :
      StepResult s (.next ((s.via ds es).stopWith r))
  | halt (es : List Event) (hr : s.runState = .running) (hp : s.phase = .fetch) (hi : fetchedInstr s = some .halt)
      (hes : es.length ≤ 4) :
      StepResult s (.next { s.via s.devices es with flags := Flags.clearRunning s.flags })
  | goesOn (t : State) (hr : s.runState = .running) (hf : t.flags = s.flags) (ha : Advances s t) :
      StepResult s (.next t)

/-- A state that differs from `s` after some events in registers, flags, phase and memory alone. -/
theorem advances_of_eq {s t : State} {ds : List Binding} {es : List Event}
    (ht : t = { s.via ds es with x := t.x, flags := t.flags, phase := t.phase, mem := t.mem })
    (hds : DevicesAdvance s.devices ds) (hes : es.length ≤ 5)
    (hmem : t.mem = s.mem ∨ ∃ a v, MayStore s a ∧ t.mem = s.mem.store a v) : Advances s t where
  stack := by rw [ht]; rfl
  cfg := by rw [ht]; rfl
  present := by rw [ht]; rfl
  fatal := by rw [ht]; rfl
  devices := by rw [ht]; exact hds
  events := ⟨es, by rw [ht]; rfl, hes, by rw [ht]; rfl, by rw [ht]; rfl⟩
  mem := hmem

/-- What an instruction that was fetched with the event `e` answers, as the result of the step. -/
theorem exec_result {s : State} {i : Instr} (e : Event) (hr : s.runState = .running) (hp : s.phase = .fetch)
    (hi : fetchedInstr s = some i) : StepResult s (exec i (s.via s.devices [e])) := by
  have goesOn : ∀ {t : State} {ds : List Binding} {es : List Event}, DevicesAdvance s.devices ds → es.length ≤ 3 →
      t = { (s.via s.devices [e]).via ds es with x := t.x, flags := t.flags, phase := t.phase, mem := t.mem } →
      t.flags = s.flags → (t.mem = s.mem ∨ ∃ a v, MayStore s a ∧ t.mem = s.mem.store a v) →
      StepResult s (.next t) := fun hds hes ht hf hmem => by
    rw [State.via_via] at ht
    exact .goesOn _ hr hf (advances_of_eq ht hds (by simp; omega) hmem)
  refine exec_cases (fun r hc => ?fatal) (fun r ds es hc hds hes => ?stop) (fun d v es _ hes => ?write)
    (fun u es _ hes => ?pc) (fun a0 addr v es hst hes => ?store) (fun hh => ?halt)
    (fun dev v ds es hsys hio hd ht hds hes => ?land) (fun es _ hes => ?finish) (fun ds es _ hds hes => ?waiting)
    (fun d a ds es _ hds hes => ?more)
  case fatal => exact .fatal r _ hr hc
  case stop =>
    rw [State.via_via]
    exact .stop r ds _ hr hc hds (by simp; omega)
  case write => exact goesOn (ds := s.devices) (es := es) (.refl _) (by omega) rfl rfl (.inl rfl)
  case pc =>
    exact goesOn (ds := s.devices) (es := es) (.refl _) (by omega) (by cases u <;> rfl) (by cases u <;> rfl)
      (.inl (by cases u <;> rfl))
  case store =>
    subst hst
    exact goesOn (ds := s.devices) (es := es) (.refl _) (by omega) rfl rfl
      (.inr ⟨_, v, ⟨hr, hp, .inl ⟨a0, addr, hi, rfl⟩⟩, rfl⟩)
  case halt =>
    subst hh
    exact .halt [e] hr hp hi (by simp)
  case land =>
    subst hsys
    have hread : (deviceAt (s.readReg 3) s.devices).map Device.tag = some (some .read) := by
      have hd' : deviceAt (s.readReg 3) s.devices = some dev := hd
      rw [hd', Option.map_some, ht]
    exact goesOn (ds := ds) (es := es) hds hes rfl rfl (.inr ⟨_, v, ⟨hr, hp, .inr ⟨hi, rfl, hio, hread⟩⟩, rfl⟩)
  case finish => exact goesOn (ds := s.devices) (es := es) (.refl _) (by omega) rfl rfl (.inl rfl)
  case waiting => exact goesOn (ds := ds) (es := es) hds hes rfl rfl (.inl rfl)
  case more => exact goesOn (ds := ds) (es := es) hds hes rfl rfl (.inl rfl)

/-- What one cell of a Write traversal answers, as the result of the step. -/
theorem traverseCell_result {s : State} {d a : Word} (hr : s.runState = .running) :
    StepResult s (traverseCell d a s) := by
  have goesOn : ∀ {t : State} {ds : List Binding} {es : List Event}, DevicesAdvance s.devices ds → es.length ≤ 2 →
      t = { s.via ds es with x := t.x, flags := t.flags, phase := t.phase, mem := t.mem } →
      t.flags = s.flags → t.mem = s.mem → StepResult s (.next t) := fun hds hes ht hf hmem =>
    .goesOn _ hr hf (advances_of_eq ht hds (by omega) (.inl hmem))
  refine traverseCell_cases (fun r ds es hc hds hes => ?stop) (fun es hes => ?finish) (fun ds es hds hes => ?waiting)
    (fun ds es hds hes => ?more)
  case stop => exact .stop r ds es hr hc hds (by omega)
  case finish => exact goesOn (ds := s.devices) (es := es) (.refl _) (by omega) rfl rfl rfl
  case waiting => exact goesOn (ds := ds) (es := es) hds hes rfl rfl rfl
  case more => exact goesOn (ds := ds) (es := es) hds hes rfl rfl rfl

theorem step_result (s : State) : StepResult s (step s) := by
  refine step_cases (fun hr => ?fatal) (fun hf hp => ?idle) (fun d a hr hp => ?traverse)
    (fun r es hr hp hc _ hes => ?fetchStop) (fun es hr hp _ hes => ?fetchWait) (fun op es hr hp => ?unknown)
    (fun w i hr hp hi => ?run)
  case fatal => exact .coreIsFatal (State.runState_fatal.mp hr)
  case idle => exact .idle hf hp
  case traverse => exact traverseCell_result hr
  case fetchStop => exact .stop r _ es hr hc (.refl _) (by omega)
  case fetchWait =>
    exact .goesOn _ hr rfl (advances_of_eq (ds := s.devices) (es := es) rfl (.refl _) (by omega) (.inl rfl))
  case unknown => exact .fatal _ _ hr rfl
  case run => exact exec_result _ hr hp hi

theorem step_next_result {s t : State} (h : step s = .next t) : StepResult s (.next t) := h ▸ step_result s

/-- A step to a next state, read off its result. -/
theorem advances_of_step {s t : State} (h : step s = .next t) : Advances s t := by
  cases step_next_result h with
  | idle => exact advances_of_eq (ds := s.devices) (es := []) rfl (.refl _) (by simp) (.inl rfl)
  | stop r ds es _ _ hds hes =>
    refine advances_of_eq (ds := ds) (es := .report r :: es) ?_ hds (by simp; omega) (.inl rfl)
    simp [State.stopWith, State.via]
  | halt es _ _ _ hes => exact advances_of_eq (ds := s.devices) (es := es) rfl (.refl _) (by omega) (.inl rfl)
  | goesOn _ _ _ ha => exact ha

/-- A step from a core that is not Fatal leads to one that is not. -/
theorem fatal_of_step {s t : State} (h : step s = .next t) : s.fatal = false ∧ t.fatal = false := by
  have hs : s.fatal = false := by
    cases hf : s.fatal
    · rfl
    · rw [step_of_fatal (State.runState_fatal.mpr hf)] at h; cases h
  exact ⟨hs, (advances_of_step h).fatal.trans hs⟩

/-! ### The statements -/

/-- Settles O11: by the first case of a step, and since no step changes the fatal bit. -/
theorem fatalIsTerminal : Obligations.FatalIsTerminal :=
  ⟨fun _ hf => step_of_fatal (State.runState_fatal.mpr hf), fun _ _ h => fatal_of_step h⟩

/-- Settles O51: no case of a step is a refusal. -/
theorem noStepIsRefused : Obligations.NoStepIsRefused := by
  intro s r h
  have hres := step_result s
  rw [h] at hres
  cases hres

/-- Settles O50: by the two cases of a step that are faults. -/
theorem faultOutcomesAreOfTheFatalClass : Obligations.FaultOutcomesAreOfTheFatalClass := by
  intro s f h
  have hres := step_result s
  rw [h] at hres
  cases hres with
  | coreIsFatal hf => exact .inl ⟨hf, rfl⟩
  | fatal r u hr hc => exact .inr ⟨hr, r, _, rfl, hc, rfl, rfl⟩

/-- The memory after a step keeps its form and its cells. -/
theorem Advances.mem_keeps {s t : State} (h : Advances s t) :
    (s.mem.wf = true → t.mem.wf = true) ∧
      ∀ a, (t.mem.read a).isSome = (s.mem.read a).isSome ∧ t.mem.blocks a = s.mem.blocks a := by
  obtain hm | ⟨b, v, -, hm⟩ := h.mem
  · rw [hm]; exact ⟨id, fun _ => ⟨rfl, rfl⟩⟩
  · rw [hm]; exact ⟨Memory.wf_store b v, fun a => ⟨Memory.isSome_read_store .., Memory.blocks_store ..⟩⟩

/-- Settles O46: memory, devices and configuration by what a step changes at most, the phase by cases. -/
theorem stepKeepsTheInvariant : Obligations.StepKeepsTheInvariant := by
  intro s t hinv h
  have hadv := advances_of_step h
  refine
    { mem := hadv.mem_keeps.1 hinv.mem
      devices := hadv.devices.bindingsFrom hinv.devices
      stack := by rw [hadv.stack, hadv.cfg, hinv.stack]
      cfg := by rw [hadv.cfg, hinv.cfg]
      phase := fun hnot => ?_ }
  cases step_next_result h with
  | idle => exact hinv.phase hnot
  | stop => rfl
  | halt _ _ hp _ _ => exact hp
  | goesOn _ hr hf ha => exact absurd ((State.runState_congr ha.fatal hf).trans hr) hnot

/-- Settles O47: a step changes none of these, and a store and an answer of a device keep what exists. -/
theorem stepKeepsTheFixedState : Obligations.StepKeepsTheFixedState := by
  intro s t h
  have hadv := advances_of_step h
  exact ⟨hadv.cfg, hadv.stack, hadv.present, hadv.mem_keeps.2, hadv.devices.tag⟩

theorem stopWith_not_running {s : State} {r : Report} {ds : List Binding} {es : List Event} :
    ((s.via ds es).stopWith r).runState ≠ .running := fun h => by
  have hflag := (State.runState_running.mp h).2
  rw [State.stopWith_flags, Flags.running_clearRunning] at hflag
  cases hflag

theorem runState_stopped_of_not_running {s : State} (hf : s.fatal = false) (h : s.runState ≠ .running) :
    s.runState = .stopped := by
  rw [State.runState_stopped]
  refine ⟨hf, ?_⟩
  rw [Ne, State.runState_running] at h
  simpa [hf] using h

/-- Settles O49: by the cases of a step, of which two clear Running. -/
theorem onlyHaltAndRecoverableFaultsStop : Obligations.OnlyHaltAndRecoverableFaultsStop := by
  intro s t h
  obtain ⟨-, htf⟩ := fatal_of_step h
  cases step_next_result h with
  | idle => exact ⟨id, fun hr hnot => absurd hr hnot⟩
  | stop r ds es hr hc _ _ =>
    exact ⟨fun _ => hr, fun _ hnot => ⟨runState_stopped_of_not_running htf hnot,
      .inr ⟨r, ds, es, hc, stopsWith_stopWith r s ds es⟩⟩⟩
  | halt es hr hp hi _ =>
    exact ⟨fun _ => hr, fun _ hnot => ⟨runState_stopped_of_not_running htf hnot, .inl ⟨hp, hi, rfl⟩⟩⟩
  | goesOn _ hr hf ha =>
    exact ⟨fun _ => hr, fun _ hnot => absurd ((State.runState_congr ha.fatal hf).trans hr) hnot⟩

/-- Settles O53: memory changes only by a store, at an address where one may be. -/
theorem onlyStoresChangeMemory : Obligations.OnlyStoresChangeMemory := by
  intro s t a h hne
  obtain hm | ⟨b, v, hstore, hm⟩ := (advances_of_step h).mem
  · exact absurd (by rw [hm]) hne
  · by_cases hab : a = b
    · rw [hab]; exact hstore
    · exact absurd (by rw [hm, Memory.read_store_other v hab]) hne

/-- Settles O54: the events of the step. -/
theorem traceOnlyGrows : Obligations.TraceOnlyGrows := fun _ _ h => (advances_of_step h).events

/-- A step that stops the core keeps what the next fetch depends on, but for the answers that were taken. -/
theorem step_stops {s t : State} (h : step s = .next t) (hr : s.runState = .running) (ht : t.runState = .stopped) :
    t.phase = .fetch ∧ t.pc = s.pc ∧ t.mem = s.mem ∧ t.present = s.present ∧ ∃ n, t.reads = s.reads.after n := by
  cases step_next_result h with
  | idle => rw [hr] at ht; cases ht
  | stop r ds es _ _ _ _ => exact ⟨rfl, rfl, rfl, rfl, _, rfl⟩
  | halt es _ hp _ _ => exact ⟨hp, rfl, rfl, rfl, _, rfl⟩
  | goesOn _ _ hf ha => rw [State.runState_congr ha.fatal hf, hr] at ht; cases ht

theorem fetched_congr {s t : State} (hp : t.present = s.present) (hpc : t.pc = s.pc) (hr : t.reads = s.reads)
    (hm : t.mem = s.mem) : fetched t = fetched s := by
  unfold fetched
  rw [hp, hpc, State.readAnswer_congr hr hm]

/-- Settles O55: the stopped step keeps the program counter, the cell and the responder. -/
theorem restartRunsTheStoppedInstructionAgain : Obligations.RestartRunsTheStoppedInstructionAgain := by
  intro s t written h hr ht
  obtain ⟨hphase, hpc, hmem, hpresent, n, hreads⟩ := step_stops h hr ht
  have htf : t.fatal = false := (fatal_of_step h).2
  refine ⟨{ t with flags := Flags.setRunning t.flags }, ?_, ?_, hphase, hpc, by rw [hmem], fun hs => ?_⟩
  · simp [hostAct, htf, HostAction.onState, HostAction.registers]
  · exact State.runState_running.mpr ⟨htf, Flags.running_setRunning t.flags⟩
  · have hsame : t.reads = s.reads := by rw [hreads, hs]; simp [Replies.after]
    exact fetched_congr hpresent hpc hsame hmem

/-- No step writes a flag but Running (10_state.md rules R31 and R32). -/
theorem getLsbD_flags_step {s t : State} {k : Nat} (h : step s = .next t) (hk : k ≠ 0) :
    t.flags.getLsbD k = s.flags.getLsbD k := by
  cases step_next_result h with
  | idle => rfl
  | stop => exact Flags.getLsbD_clearRunning s.flags hk
  | halt => exact Flags.getLsbD_clearRunning s.flags hk
  | goesOn _ _ hf _ => rw [hf]

end Sys2Proof.Safety
end

section
/-! Proofs of the statements that two runs do the same: of the reserved flags, of registers that an instruction does not
name, and of registers that nothing has written. A change of registers and flags that the core cannot see is carried
through every operation once (`Mirrors`); the three statements differ only in the change. -/

namespace Sys2Proof.Safety

open Sys2Proof Sys2Proof.Machine

/-! ### Unbound descriptors -/

theorem devRead_unbound {d : Word} {s : State} {k : Byte → State → Out} (h : deviceAt d s.devices = none) :
    devRead d s k = raiseStop (.ioReadAccessError d s.pc) (s.emit (.devRead d .fails)) := by
  rw [devRead, h]

theorem devWrite_unbound {d : Word} {b : Byte} {addr : Word} {s : State} {k : State → Out}
    (h : deviceAt d s.devices = none) :
    devWrite d b addr s k = raiseStop (.ioWriteAccessError d b addr s.pc) (s.emit (.devWrite d b .fails)) := by
  rw [devWrite, h]

/-! ### Changes that the core cannot see -/

/-- The state with its registers and its flag word changed. -/
def remap (g : Vector Word 16 → Vector Word 16) (h : FlagWord → FlagWord) (s : State) : State :=
  { s with x := g s.x, flags := h s.flags }

/-- The change neither touches the program counter `p` and the flag Running nor depends on them. -/
structure Transparent (p : Fin 16) (g : Vector Word 16 → Vector Word 16) (h : FlagWord → FlagWord) : Prop where
  pc : ∀ x, (g x)[p] = x[p]
  setPc : ∀ x v, g (x.set p v) = (g x).set p v
  running : ∀ f, Flags.running (h f) = Flags.running f
  clear : ∀ f, h (Flags.clearRunning f) = Flags.clearRunning (h f)

/-- What the rest of an instruction's meaning takes from the state it began in. -/
structure SameCore (s u : State) : Prop where
  cfg : u.cfg = s.cfg
  runState : u.runState = s.runState
  phase : u.phase = s.phase

/-- The second outcome is the first with the change `f` made to it; an instruction that completes and writes its
destination `d` has written it in both, from states that differ by `f`. -/
inductive Mirrors (f : State → State) (s : State) (dest : Option (Fin 16)) : Out → Out → Prop
  | next (t : State) (ht : dest = none ∨ ¬ (t.runState = .running ∧ t.phase = .fetch)) :
      Mirrors f s dest (.next t) (.next (f t))
  | write (d : Fin 16) (v : Word) (u : State) (hd : dest = some d) (hu : SameCore s u) :
      Mirrors f s dest (writeAndNext d v u) (writeAndNext d v (f u))
  | fatal (r : Report) (a b : State) : Mirrors f s dest (.fault (.fatal r a)) (.fault (.fatal r b))

section
variable {g : Vector Word 16 → Vector Word 16} {h : FlagWord → FlagWord} {s u : State} {dest : Option (Fin 16)}

theorem SameCore.emit (hu : SameCore s u) (e : Event) : SameCore s (u.emit e) := ⟨hu.cfg, hu.runState, hu.phase⟩

variable (ht : Transparent s.cfg.pcIndex g h) (hu : SameCore s u)
include ht

theorem runState_remap (t : State) : (remap g h t).runState = t.runState := by
  unfold State.runState
  show (if t.fatal then _ else if Flags.running (h t.flags) then _ else _) = _
  rw [ht.running]

theorem remap_stopWith (t : State) (r : Report) : remap g h (t.stopWith r) = (remap g h t).stopWith r := by
  show { t.stopWith r with x := g t.x, flags := h (Flags.clearRunning t.flags) } = _
  rw [ht.clear]
  rfl

theorem mirrors_stop (r : Report) (t : State) :
    Mirrors (remap g h) s dest (raiseStop r t) (raiseStop r (remap g h t)) := by
  rw [raiseStop, raiseStop, ← remap_stopWith ht]
  exact .next _ (.inr fun hc => stopWith_not_running (s := t) (ds := t.devices) (es := []) hc.1)

omit ht in
theorem mirrors_wait (t : State) :
    Mirrors (remap g h) s dest (.next (t.setPhase .waiting)) (.next ((remap g h t).setPhase .waiting)) :=
  .next (t.setPhase .waiting) (.inr fun hc => nomatch hc.2)

theorem pc_remap (hcfg : u.cfg = s.cfg) : (remap g h u).pc = u.pc := by
  have ht' : Transparent u.cfg.pcIndex g h := hcfg ▸ ht
  exact ht'.pc u.x

theorem remap_setPc (hcfg : u.cfg = s.cfg) (v : Word) : remap g h (u.setPc v) = (remap g h u).setPc v := by
  have ht' : Transparent u.cfg.pcIndex g h := hcfg ▸ ht
  show { u with x := g (u.x.set u.cfg.pcIndex v), flags := h u.flags } = _
  rw [ht'.setPc]
  rfl

theorem remap_retire (hcfg : u.cfg = s.cfg) (k : PcUpdate) : remap g h (u.retire k) = (remap g h u).retire k := by
  cases k with
  | next => rw [State.retire, State.retire, remap_setPc ht hcfg, pc_remap ht hcfg]
  | target v => exact remap_setPc ht hcfg v
  | stay => rfl

theorem mirrors_retire (hcfg : u.cfg = s.cfg) (hd : dest = none) (k : PcUpdate) :
    Mirrors (remap g h) s dest (.next (u.retire k)) (.next ((remap g h u).retire k)) := by
  rw [← remap_retire ht hcfg]
  exact .next _ (.inl hd)

include hu

/-! ### The shared operations -/

theorem mirrors_memRead {access : Access} {addr : Word} {k k' : Word → State → Out}
    (hk : ∀ w, u.present.memRead = true → u.readAnswer addr = .word w →
      Mirrors (remap g h) s dest (k w (u.emit (.memRead addr (some w))))
        (k' w (remap g h (u.emit (.memRead addr (some w)))))) :
    Mirrors (remap g h) s dest (memRead access addr u k) (memRead access addr (remap g h u) k') := by
  refine memRead_cases (fun hm => ?absent) (fun hm ha => ?outOfBounds) (fun hm ha => ?never) fun w hm ha => ?word
  case absent =>
    rw [memRead_absent (by exact hm), pc_remap ht hu.cfg]
    exact mirrors_stop ht _ u
  case outOfBounds =>
    rw [memRead_outOfBounds (by exact hm) (by exact ha), pc_remap ht hu.cfg]
    exact mirrors_stop ht _ (u.emit _)
  case never =>
    rw [memRead_never (by exact hm) (by exact ha)]
    exact mirrors_wait (u.emit _)
  case word =>
    rw [memRead_ok (by exact hm) (by exact ha)]
    exact hk w hm ha

theorem mirrors_memWrite {access : Access} {addr v : Word} {k k' : State → Out}
    (hk : Mirrors (remap g h) s dest (k ((u.storeCell addr.toNat v).emit (.memWrite addr v true)))
      (k' (remap g h ((u.storeCell addr.toNat v).emit (.memWrite addr v true))))) :
    Mirrors (remap g h) s dest (memWrite access addr v u k) (memWrite access addr v (remap g h u) k') := by
  refine memWrite_cases (fun hm => ?absent) (fun hm ha => ?outOfBounds) (fun hm ha => ?never) fun hm ha => ?ok
  case absent =>
    rw [memWrite_absent (by exact hm), pc_remap ht hu.cfg]
    exact mirrors_stop ht _ u
  case outOfBounds =>
    rw [memWrite_outOfBounds (by exact hm) (by exact ha), pc_remap ht hu.cfg]
    exact mirrors_stop ht _ (u.emit _)
  case never =>
    rw [memWrite_never (by exact hm) (by exact ha)]
    exact mirrors_wait (u.emit _)
  case ok =>
    rw [memWrite_ok (by exact hm) (by exact ha)]
    exact hk

theorem mirrors_devRead {d : Word} {k k' : Byte → State → Out}
    (hk : ∀ b dev, Mirrors (remap g h) s dest (k b (u.afterDevRead d dev)) (k' b (remap g h (u.afterDevRead d dev)))) :
    Mirrors (remap g h) s dest (devRead d u k) (devRead d (remap g h u) k') := by
  refine devRead_cases (fun hd => ?unbound) (fun dev hd ha => ?fails) (fun dev hd ha => ?never)
    fun dev b hd ha => ?byte
  case unbound =>
    rw [devRead_unbound (by exact hd), pc_remap ht hu.cfg]
    exact mirrors_stop ht _ (u.emit _)
  case fails =>
    rw [devRead_fails (by exact hd) ha, pc_remap ht hu.cfg]
    exact mirrors_stop ht _ (u.afterDevRead d dev)
  case never =>
    rw [devRead_never (by exact hd) ha]
    exact mirrors_wait (u.afterDevRead d dev)
  case byte =>
    rw [devRead_byte (by exact hd) ha]
    exact hk b dev

theorem mirrors_devWrite {d addr : Word} {b : Byte} {k k' : State → Out}
    (hk : ∀ dev, Mirrors (remap g h) s dest (k (u.afterDevWrite d b dev)) (k' (remap g h (u.afterDevWrite d b dev)))) :
    Mirrors (remap g h) s dest (devWrite d b addr u k) (devWrite d b addr (remap g h u) k') := by
  refine devWrite_cases (fun hd => ?unbound) (fun dev hd ha => ?fails) (fun dev hd ha => ?never)
    fun dev hd ha => ?accepts
  case unbound =>
    rw [devWrite_unbound (by exact hd), pc_remap ht hu.cfg]
    exact mirrors_stop ht _ (u.emit _)
  case fails =>
    rw [devWrite_fails (by exact hd) ha, pc_remap ht hu.cfg]
    exact mirrors_stop ht _ (u.afterDevWrite d b dev)
  case never =>
    rw [devWrite_never (by exact hd) ha]
    exact mirrors_wait (u.afterDevWrite d b dev)
  case accepts =>
    rw [devWrite_accepts (by exact hd) ha]
    exact hk dev

theorem mirrors_withReg {slot : Fin 3} {v : Slot} {k k' : Fin 16 → Out}
    (hk : ∀ r : Fin 16, v.toNat = r.val → Mirrors (remap g h) s dest (k r) (k' r)) :
    Mirrors (remap g h) s dest (withReg slot v u k) (withReg slot v (remap g h u) k') := by
  refine withReg_cases (fun hv => ?_) fun r hr => ?_
  · rw [withReg_outOfRange hv, pc_remap ht hu.cfg]
    exact .fatal ..
  · rw [withReg_ok hr]
    exact hk r hr

theorem mirrors_finishArith (o : Opcode) {d : Fin 16} (hd : dest = some d) (e : Int) :
    Mirrors (remap g h) s dest (finishArith o d e u) (finishArith o d e (remap g h u)) := by
  refine finishArith_cases (fun hc he => ?_) fun hok => ?_
  · rw [finishArith_overflow (by exact hc) he, pc_remap ht hu.cfg]
    exact .fatal ..
  · rw [finishArith_ok (by exact hok)]
    exact .write d _ u hd hu

theorem mirrors_finishDivide (o : Opcode) {d : Fin 16} (hd : dest = some d) (n m : Word) :
    Mirrors (remap g h) s dest (finishDivide o d n m u) (finishDivide o d n m (remap g h u)) := by
  by_cases hm : m = 0
  · cases hc : u.cfg.div0Class with
    | fatal =>
      rw [finishDivide_zero_fatal hm hc, finishDivide_zero_fatal hm (by exact hc), pc_remap ht hu.cfg]
      exact .fatal ..
    | stop =>
      rw [finishDivide_zero_stop hm hc, finishDivide_zero_stop hm (by exact hc), pc_remap ht hu.cfg]
      exact mirrors_stop ht _ u
  · rw [finishDivide_ok hm, finishDivide_ok hm]
    exact .write d _ u hd hu

/-! ### Syscall -/

theorem mirrors_traverseCell (hd : dest = none) (d a : Word) :
    Mirrors (remap g h) s dest (traverseCell d a u) (traverseCell d a (remap g h u)) := by
  refine mirrors_memRead ht hu fun c _ _ => ?_
  by_cases hc : lowByte c = 0
  · rw [if_pos hc, if_pos hc]
    exact mirrors_retire (u := (u.emit _).setPhase .fetch) ht hu.cfg hd .next
  · rw [if_neg hc, if_neg hc]
    exact mirrors_devWrite ht (hu.emit _) fun dev => .next _ (.inl hd)

theorem mirrors_landByte (hd : dest = none) (d p : Word) :
    Mirrors (remap g h) s dest (landByte d p u) (landByte d p (remap g h u)) := by
  refine mirrors_devRead ht hu fun b dev => ?_
  have hdev : SameCore s (u.afterDevRead d dev) := ⟨hu.cfg, hu.runState, hu.phase⟩
  refine mirrors_memWrite ht hdev ?_
  exact mirrors_retire (u := (((u.afterDevRead d dev).storeCell p.toNat (zextByte b)).emit _).setPhase .fetch)
    ht hu.cfg hd .next

theorem mirrors_syscall (hd : dest = none)
    (hsrc : ∀ q ∈ sourceRegs .syscall u, (remap g h u).readReg q = u.readReg q) :
    Mirrors (remap g h) s dest (exec .syscall u) (exec .syscall (remap g h u)) := by
  rw [exec_syscall, exec_syscall]
  cases hio : u.present.io with
  | false =>
    rw [execSyscall_absent hio, execSyscall_absent (by exact hio), pc_remap ht hu.cfg]
    exact mirrors_retire (u := u.emit _) ht hu.cfg hd .next
  | true =>
    have h3 : (remap g h u).readReg 3 = u.readReg 3 := hsrc 3 (by simp [sourceRegs, hio])
    cases hdev : deviceAt (u.readReg 3) u.devices with
    | none =>
      rw [execSyscall_unbound hio hdev, execSyscall_unbound (by exact hio) (by rw [h3]; exact hdev), h3,
        pc_remap ht hu.cfg]
      exact mirrors_stop ht _ (u.emit _)
    | some dev =>
      have hdev' : deviceAt ((remap g h u).readReg 3) (remap g h u).devices = some dev := by rw [h3]; exact hdev
      cases htag : dev.tag with
      | none =>
        rw [execSyscall_silent hio hdev htag, execSyscall_silent (by exact hio) hdev' htag, h3]
        exact mirrors_wait (u.emit _)
      | some tag =>
        have h4 : (remap g h u).readReg 4 = u.readReg 4 := hsrc 4 (by simp [sourceRegs, hio, hdev, htag])
        cases tag with
        | read =>
          rw [execSyscall_reader hio hdev htag, execSyscall_reader (by exact hio) hdev' htag, h3, h4]
          exact mirrors_landByte ht (hu.emit _) hd _ _
        | write =>
          rw [execSyscall_writer hio hdev htag, execSyscall_writer (by exact hio) hdev' htag, h3, h4]
          exact mirrors_traverseCell ht (hu.emit _) hd _ _

/-! ### Instructions -/

omit ht hu in
theorem slotReg_of_toNat {v : Slot} {r : Fin 16} (hv : v.toNat = r.val) : slotReg v = some r := by
  rw [slotReg, dif_pos (by omega)]
  exact congrArg some (Fin.ext hv)

/-- An instruction that reads one register slot as a source and ends as `fin` says of the register and its value. -/
theorem mirrors_source {slot : Fin 3} {v : Slot} (fin : Fin 16 → Word → State → Out)
    (hsrc : ∀ q ∈ (slotReg v).toList, (remap g h u).readReg q = u.readReg q)
    (hfin : ∀ (r : Fin 16) (x : Word), v.toNat = r.val →
      Mirrors (remap g h) s dest (fin r x u) (fin r x (remap g h u))) :
    Mirrors (remap g h) s dest (withReg slot v u fun r => fin r (u.readReg r) u)
      (withReg slot v (remap g h u) fun r => fin r ((remap g h u).readReg r) (remap g h u)) := by
  refine mirrors_withReg ht hu fun r hr => ?_
  have hread : (remap g h u).readReg r = u.readReg r := hsrc r (by rw [slotReg_of_toNat hr]; simp)
  simp only [hread]
  exact hfin r _ hr

/-- The same of an instruction that reads two register slots as sources. -/
theorem mirrors_sources {a0 a1 : Slot} (fin : Fin 16 → Word → Word → State → Out)
    (hsrc : ∀ q ∈ (slotReg a0).toList ++ (slotReg a1).toList, (remap g h u).readReg q = u.readReg q)
    (hfin : ∀ (d : Fin 16) (x y : Word), a0.toNat = d.val →
      Mirrors (remap g h) s dest (fin d x y u) (fin d x y (remap g h u))) :
    Mirrors (remap g h) s dest (withRegs a0 a1 u fun d r => fin d (u.readReg d) (u.readReg r) u)
      (withRegs a0 a1 (remap g h u) fun d r =>
        fin d ((remap g h u).readReg d) ((remap g h u).readReg r) (remap g h u)) := by
  obtain ⟨hsrc0, hsrc1⟩ := List.forall_mem_append.mp hsrc
  refine mirrors_withReg ht hu fun d hd => ?_
  have hread : (remap g h u).readReg d = u.readReg d := hsrc0 d (by rw [slotReg_of_toNat hd]; simp)
  simp only [hread]
  exact mirrors_source ht hu (fun _ y t => fin d (u.readReg d) y t) hsrc1 fun _ y _ => hfin d _ y hd

theorem mirrors_branch (hd : dest = none) (taken : Bool) (addr : Slot) :
    Mirrors (remap g h) s dest (finishBranch taken addr u) (finishBranch taken addr (remap g h u)) :=
  mirrors_retire ht hu.cfg hd _

/-- An instruction whose sources the change leaves alone does the same. -/
theorem exec_mirrors (i : Instr) (hsrc : ∀ q ∈ sourceRegs i u, (remap g h u).readReg q = u.readReg q) :
    Mirrors (remap g h) s (destReg i) (exec i u) (exec i (remap g h u)) := by
  cases i with
  | nop => exact mirrors_retire ht hu.cfg rfl .next
  | add a0 a1 =>
    exact mirrors_sources ht hu (fun d x y => finishArith .add d (x.toNat + y.toNat : Nat)) hsrc
      fun d _ _ hd => mirrors_finishArith ht hu _ (slotReg_of_toNat hd) _
  | sub a0 a1 =>
    exact mirrors_sources ht hu (fun d x y => finishArith .sub d (x.toNat - y.toNat : Int)) hsrc
      fun d _ _ hd => mirrors_finishArith ht hu _ (slotReg_of_toNat hd) _
  | mul a0 a1 =>
    exact mirrors_sources ht hu (fun d x y => finishArith .mul d (x.toNat * y.toNat : Nat)) hsrc
      fun d _ _ hd => mirrors_finishArith ht hu _ (slotReg_of_toNat hd) _
  | div a0 a1 =>
    exact mirrors_sources ht hu (finishDivide .div) hsrc
      fun d _ _ hd => mirrors_finishDivide ht hu _ (slotReg_of_toNat hd) _ _
  | addi a0 imm =>
    exact mirrors_source ht hu (fun d x => finishArith .addi d (x.toNat + (zext64 imm).toNat : Nat)) hsrc
      fun d _ hd => mirrors_finishArith ht hu _ (slotReg_of_toNat hd) _
  | subi a0 imm =>
    exact mirrors_source ht hu (fun d x => finishArith .subi d (x.toNat - (zext64 imm).toNat : Int)) hsrc
      fun d _ hd => mirrors_finishArith ht hu _ (slotReg_of_toNat hd) _
  | muli a0 imm =>
    exact mirrors_source ht hu (fun d x => finishArith .muli d (x.toNat * (zext64 imm).toNat : Nat)) hsrc
      fun d _ hd => mirrors_finishArith ht hu _ (slotReg_of_toNat hd) _
  | divi a0 imm =>
    exact mirrors_source ht hu (fun d x => finishDivide .divi d x (zext64 imm)) hsrc
      fun d _ hd => mirrors_finishDivide ht hu _ (slotReg_of_toNat hd) _ _
  | mov a0 a1 =>
    exact mirrors_withReg ht hu fun d hd => mirrors_source ht hu (fun _ x => writeAndNext d x) hsrc
      fun _ x _ => .write d x u (slotReg_of_toNat hd) hu
  | movi a0 imm => exact mirrors_withReg ht hu fun d hd => .write d _ u (slotReg_of_toNat hd) hu
  | load a0 addr =>
    exact mirrors_withReg ht hu fun d hd => mirrors_memRead ht hu fun v _ _ =>
      .write d v _ (slotReg_of_toNat hd) (hu.emit _)
  | store a0 addr =>
    refine mirrors_source ht hu (fun _ x t => memWrite .store (zext64 addr) x t fun t' => .next (t'.retire .next)) hsrc
      fun _ x _ => mirrors_memWrite ht hu ?_
    exact mirrors_retire (u := State.emit _ (u.storeCell _ x)) ht hu.cfg rfl .next
  | beq a0 a1 addr =>
    exact mirrors_sources ht hu (fun _ x y => finishBranch (decide (x = y)) addr) hsrc
      fun _ _ _ _ => mirrors_branch ht hu rfl _ _
  | bne a0 a1 addr =>
    exact mirrors_sources ht hu (fun _ x y => finishBranch (decide (x ≠ y)) addr) hsrc
      fun _ _ _ _ => mirrors_branch ht hu rfl _ _
  | blt a0 a1 addr =>
    exact mirrors_sources ht hu (fun _ x y => finishBranch (decide (x.toNat < y.toNat)) addr) hsrc
      fun _ _ _ _ => mirrors_branch ht hu rfl _ _
  | bgt a0 a1 addr =>
    exact mirrors_sources ht hu (fun _ x y => finishBranch (decide (y.toNat < x.toNat)) addr) hsrc
      fun _ _ _ _ => mirrors_branch ht hu rfl _ _
  | jmp addr => exact mirrors_retire ht hu.cfg rfl _
  | jmpR a0 =>
    exact mirrors_source ht hu (fun _ x t => .next (t.retire (.target x))) hsrc
      fun _ _ _ => mirrors_retire ht hu.cfg rfl _
  | halt =>
    have hcl : remap g h { u with flags := Flags.clearRunning u.flags } =
        { remap g h u with flags := Flags.clearRunning (remap g h u).flags } := by
      show { u with x := g u.x, flags := h (Flags.clearRunning u.flags) } = _
      rw [ht.clear]
      rfl
    rw [exec_halt, exec_halt, ← hcl]
    exact .next _ (.inl rfl)
  | syscall => exact mirrors_syscall ht hu rfl hsrc

omit hu in
/-- The change does not reach the fetch. -/
theorem fetched_remap : fetched (remap g h s) = fetched s :=
  fetched_congr rfl (pc_remap ht rfl) rfl rfl

omit hu in
theorem fetchedInstr_remap : fetchedInstr (remap g h s) = fetchedInstr s := by
  rw [fetchedInstr, fetched_remap ht]
  rfl

omit hu in
/-- A step of a Running core before a fetch does the same. -/
theorem step_mirrors_fetch (hr : s.runState = .running) (hp : s.phase = .fetch)
    (hsrc : ∀ i, fetchedInstr s = some i → ∀ q ∈ sourceRegs i s, (remap g h s).readReg q = s.readReg q) :
    Mirrors (remap g h) s ((fetchedInstr s).bind destReg) (step s) (step (remap g h s)) := by
  rw [step_of_fetch hr hp, step_of_fetch ((runState_remap ht s).trans hr) hp, cycleWith, cycleWith, pc_remap ht rfl]
  refine mirrors_memRead ht ⟨rfl, rfl, rfl⟩ fun w hm ha => ?_
  have hf : fetched s = some w := fetched_eq_some.mpr ⟨hm, ha⟩
  cases hd : decode w with
  | unknownOpcode op =>
    have hpc : (remap g h (s.emit (.memRead s.pc (some w)))).pc = s.pc := pc_remap ht rfl
    simp only [hpc]
    exact .fatal ..
  | instr i =>
    have hi : fetchedInstr s = some i := fetchedInstr_eq_some.mpr ⟨w, hf, hd⟩
    rw [hi, Option.bind_some]
    exact exec_mirrors (u := s.emit (.memRead s.pc (some w))) ht ⟨rfl, rfl, rfl⟩ i (hsrc i hi)

omit hu in
theorem step_mirrors_instr {i : Instr} (hr : s.runState = .running) (hp : s.phase = .fetch)
    (hi : fetchedInstr s = some i) (hsrc : ∀ q ∈ sourceRegs i s, (remap g h s).readReg q = s.readReg q) :
    Mirrors (remap g h) s (destReg i) (step s) (step (remap g h s)) := by
  have hsrc' : ∀ j, fetchedInstr s = some j → ∀ q ∈ sourceRegs j s, (remap g h s).readReg q = s.readReg q := by
    intro j hj
    rw [hi, Option.some.injEq] at hj
    rwa [← hj]
  have hmirrors := step_mirrors_fetch ht hr hp hsrc'
  rwa [hi, Option.bind_some] at hmirrors

omit hu in
theorem step_mirrors_no_instr (hr : s.runState = .running) (hp : s.phase = .fetch) (hi : fetchedInstr s = none) :
    Mirrors (remap g h) s none (step s) (step (remap g h s)) := by
  have hmirrors := step_mirrors_fetch ht hr hp fun j hj => by rw [hi] at hj; cases hj
  rwa [hi, Option.bind_none] at hmirrors

omit hu in
/-- A step inside an instruction does the same. -/
theorem step_mirrors_other (hr : s.runState = .running) (hp : s.phase ≠ .fetch) :
    Mirrors (remap g h) s none (step s) (step (remap g h s)) := by
  have hr' : (remap g h s).runState = .running := (runState_remap ht s).trans hr
  cases hphase : s.phase with
  | fetch => exact absurd hphase hp
  | traverse d a =>
    rw [step_of_traverse hr hphase, step_of_traverse hr' hphase]
    exact mirrors_traverseCell ht ⟨rfl, rfl, rfl⟩ rfl d a
  | waiting =>
    rw [waitingCoreStaysRunning s hr hphase, waitingCoreStaysRunning _ hr' hphase]
    exact .next s (.inl rfl)

end

/-! ### Reserved flags -/

/-- Inverting reserved flags is no change the core can see (10_state.md rules R31 and R32). -/
theorem transparent_flip (p : Fin 16) {m : FlagWord} (hm : m.getLsbD 0 = false) : Transparent p id (· ^^^ m) where
  pc _ := rfl
  setPc _ _ := rfl
  running f := by simp only [Flags.running, BitVec.getLsbD_xor, hm, Bool.xor_false]
  clear f := by
    refine BitVec.eq_of_getLsbD_eq fun k _ => ?_
    by_cases hk : k = 0
    · have hclear : ∀ f : FlagWord, (Flags.clearRunning f).getLsbD 0 = false := Flags.running_clearRunning
      rw [hk, BitVec.getLsbD_xor, hclear, hclear, hm]
      rfl
    · rw [BitVec.getLsbD_xor, Flags.getLsbD_clearRunning _ hk, Flags.getLsbD_clearRunning _ hk, BitVec.getLsbD_xor]

/-- Outcomes that mirror each other under inverted flags are as the statement compares them. -/
theorem mapOut_of_mirrors_flip {m : FlagWord} {s : State} {dest : Option (Fin 16)} {a b : Out}
    (hab : Mirrors (flipFlags m) s dest a b) : mapOut id b = mapOut (flipFlags m) a := by
  cases hab <;> rfl

/-- Settles O48: a step writes no reserved flag, and inverting them is a change that every step mirrors. -/
theorem reservedFlagsAreNeitherReadNorWritten : Obligations.ReservedFlagsAreNeitherReadNorWritten := by
  refine ⟨fun s t k h hk => getLsbD_flags_step h hk, fun s m hm => ?_⟩
  have ht := transparent_flip s.cfg.pcIndex hm
  have hrs : (flipFlags m s).runState = s.runState := runState_remap ht s
  cases hr : s.runState with
  | fatal => rw [step_of_fatal hr, step_of_fatal (hrs.trans hr)]; rfl
  | stopped => rw [step_of_stopped hr, step_of_stopped (hrs.trans hr)]; rfl
  | running =>
    by_cases hp : s.phase = .fetch
    · exact mapOut_of_mirrors_flip (step_mirrors_fetch ht hr hp fun _ _ _ _ => rfl)
    · exact mapOut_of_mirrors_flip (step_mirrors_other ht hr hp)

/-! ### Registers -/

theorem writeReg_eq_remap (r : Fin 16) (v : Word) (s : State) : s.writeReg r v = remap (·.set r v) id s := rfl

/-- Another value in a register beside the program counter is no change the core can see. -/
theorem transparent_writeReg {p r : Fin 16} (hr : r ≠ p) (v : Word) : Transparent p (·.set r v) id where
  pc x := by simp [Fin.val_ne_of_ne hr]
  setPc x w := Vector.set_comm _ _ (Fin.val_ne_of_ne (Ne.symm hr))
  running _ := rfl
  clear _ := rfl

theorem writeReg_writeReg_same (s : State) (r : Fin 16) (v w : Word) :
    (s.writeReg r v).writeReg r w = s.writeReg r w := by
  simp [State.writeReg]

theorem writeReg_comm (s : State) {r q : Fin 16} (h : r ≠ q) (v w : Word) :
    (s.writeReg r v).writeReg q w = (s.writeReg q w).writeReg r v := by
  simp only [State.writeReg]
  rw [Vector.set_comm _ _ (Fin.val_ne_of_ne h)]

/-- The state after an instruction has written its destination. -/
theorem writeAndNext_eq (d : Fin 16) (v : Word) (s : State) :
    writeAndNext d v s = .next ((s.writeReg d v).retire .next) := rfl

/-- Another value in the destination is overwritten. -/
theorem writeAndNext_writeReg_same (d : Fin 16) (v w : Word) (s : State) :
    writeAndNext d v (s.writeReg d w) = writeAndNext d v s := by
  rw [writeAndNext_eq, writeAndNext_eq, writeReg_writeReg_same]

/-- Another value in another register than the destination and the program counter stays. -/
theorem writeAndNext_writeReg_other {d r : Fin 16} {s : State} (hr : r ≠ s.cfg.pcIndex) (hd : r ≠ d) (v w : Word) :
    writeAndNext d v (s.writeReg r w) = .next (((s.writeReg d v).retire .next).writeReg r w) := by
  rw [writeAndNext_eq, writeReg_comm s hd, writeReg_eq_remap r, writeReg_eq_remap r,
    remap_retire (s := s) (u := s.writeReg d v) (transparent_writeReg hr w) rfl]

/-- An instruction writes no register but its destination and the program counter (10_state.md rule R23). -/
theorem readReg_of_exec {i : Instr} {s : State} {r : Fin 16} (hr : r ≠ s.cfg.pcIndex) (hd : destReg i ≠ some r) :
    ∀ t, exec i s = .next t → t.readReg r = s.readReg r := by
  have keep : ∀ u : State, u.readReg r = s.readReg r → ∀ t, (.next u : Out) = .next t → t.readReg r = s.readReg r := by
    intro u hu t ht
    cases ht
    exact hu
  have retired : ∀ (u : State) (k : PcUpdate), u.cfg = s.cfg → u.readReg r = s.readReg r →
      ∀ t, (.next (u.retire k) : Out) = .next t → t.readReg r = s.readReg r := by
    intro u k hcfg hu
    exact keep _ (by rw [State.readReg_retire_other u k (by rw [hcfg]; exact hr), hu])
  refine exec_cases (Q := fun out => ∀ t, out = .next t → t.readReg r = s.readReg r) (fun _ _ => ?fatal)
    (fun _ ds es _ _ _ => ?stop) (fun d v es hdest _ => ?write) (fun k es _ _ => ?pc)
    (fun _ addr v es _ _ => ?store) (fun _ => ?halt)
    (fun _ v ds es _ _ _ _ _ _ => ?land) (fun es _ _ => ?finish) (fun ds es _ _ _ => ?waiting)
    (fun _ _ ds es _ _ _ => ?more)
  case fatal =>
    intro t ht
    cases ht
  case stop => exact keep _ rfl
  case write =>
    have hrd : r ≠ d := fun hrd => hd (by rw [hdest, hrd])
    exact retired _ .next rfl (State.readReg_writeReg_other _ v hrd)
  case pc => exact retired _ k rfl rfl
  case store => exact retired _ .next rfl rfl
  case halt => exact keep _ rfl
  case land => exact retired _ .next rfl rfl
  case finish => exact retired _ .next rfl rfl
  case waiting => exact keep _ rfl
  case more => exact keep _ rfl

/-- Outcomes that mirror each other under another value in a register are equal, that register aside. -/
theorem mapOut_of_mirrors_writeReg {r : Fin 16} {v : Word} {s : State} {dest : Option (Fin 16)} {a b : Out}
    (hr : r ≠ s.cfg.pcIndex) (hab : Mirrors (State.writeReg r v) s dest a b) :
    mapOut (State.writeReg r 0) b = mapOut (State.writeReg r 0) a := by
  cases hab with
  | next t _ => exact congrArg Host.Outcome.next (writeReg_writeReg_same t r v 0)
  | fatal => rfl
  | write d w u _ hu =>
    by_cases hrd : r = d
    · rw [hrd, writeAndNext_writeReg_same]
    · rw [writeAndNext_writeReg_other (by rw [hu.cfg]; exact hr) hrd]
      exact congrArg Host.Outcome.next (writeReg_writeReg_same _ r v 0)

/-- Settles O52: by the cases of an instruction, and by mirroring another value in a register that is no source. -/
theorem onlyNamedRegistersAreReadOrWritten : Obligations.OnlyNamedRegistersAreReadOrWritten := by
  intro i s r hr
  refine ⟨fun t hd => readReg_of_exec hr hd t, fun v hsrc => ?_⟩
  have hsame : ∀ q ∈ sourceRegs i s, (s.writeReg r v).readReg q = s.readReg q := fun q hq =>
    s.readReg_writeReg_other v fun hqr => hsrc (hqr ▸ hq)
  exact mapOut_of_mirrors_writeReg hr (exec_mirrors (u := s) (transparent_writeReg hr v) ⟨rfl, rfl, rfl⟩ i hsame)

end Sys2Proof.Safety
end

section
/-! Proofs of the statements about tracked steps (60_exceptions.md rule R249) and about calls of run, which are made of
them (70_reset_and_hazards.md rule R275). -/

namespace Sys2Proof.Safety

open Sys2Proof Sys2Proof.Machine

/-! ### Instructions with a register slot of 16 or more -/

/-- In every state the instruction ends in the same index check. -/
def FailsIndexCheck (i : Instr) : Prop :=
  ∃ slot v, ∀ s, exec i s = raiseFatal (.registerIndexOutOfRange slot v s.pc) s

theorem failsIndexCheck_of_withReg {i : Instr} {a0 : Slot} (h : ∀ s, ∃ k, exec i s = withReg 0 a0 s k)
    (hi : WellFormed.regSlot a0 = false) : FailsIndexCheck i := by
  have h0 : 16 ≤ a0.toNat := by simpa [WellFormed.regSlot] using hi
  refine ⟨0, a0, fun s => ?_⟩
  obtain ⟨k, hk⟩ := h s
  rw [hk, withReg_outOfRange h0]

theorem failsIndexCheck_of_withRegs {i : Instr} {a0 a1 : Slot} (h : ∀ s, ∃ k, exec i s = withRegs a0 a1 s k)
    (hi : (WellFormed.regSlot a0 && WellFormed.regSlot a1) = false) : FailsIndexCheck i := by
  by_cases h0 : a0.toNat < 16
  · have h1 : 16 ≤ a1.toNat := by simpa [WellFormed.regSlot, h0] using hi
    refine ⟨1, a1, fun s => ?_⟩
    obtain ⟨k, hk⟩ := h s
    rw [hk, withRegs, withReg_ok (r := ⟨a0.toNat, h0⟩) rfl, withReg_outOfRange h1]
  · refine ⟨0, a0, fun s => ?_⟩
    obtain ⟨k, hk⟩ := h s
    rw [hk, withRegs, withReg_outOfRange (by omega)]

/-- An instruction that is not well-formed fails its index check (10_state.md rule R22). -/
theorem failsIndexCheck_of_illFormed {i : Instr} (hi : WellFormed.check i = false) : FailsIndexCheck i := by
  cases i with
  | nop => cases hi
  | add a0 a1 => exact failsIndexCheck_of_withRegs (fun s => ⟨_, exec_add ..⟩) hi
  | sub a0 a1 => exact failsIndexCheck_of_withRegs (fun s => ⟨_, exec_sub ..⟩) hi
  | mul a0 a1 => exact failsIndexCheck_of_withRegs (fun s => ⟨_, exec_mul ..⟩) hi
  | div a0 a1 => exact failsIndexCheck_of_withRegs (fun s => ⟨_, exec_div ..⟩) hi
  | addi a0 imm => exact failsIndexCheck_of_withReg (fun s => ⟨_, exec_addi ..⟩) hi
  | subi a0 imm => exact failsIndexCheck_of_withReg (fun s => ⟨_, exec_subi ..⟩) hi
  | muli a0 imm => exact failsIndexCheck_of_withReg (fun s => ⟨_, exec_muli ..⟩) hi
  | divi a0 imm => exact failsIndexCheck_of_withReg (fun s => ⟨_, exec_divi ..⟩) hi
  | mov a0 a1 => exact failsIndexCheck_of_withRegs (fun s => ⟨_, exec_mov ..⟩) hi
  | movi a0 imm => exact failsIndexCheck_of_withReg (fun s => ⟨_, exec_movi ..⟩) hi
  | load a0 addr => exact failsIndexCheck_of_withReg (fun s => ⟨_, exec_load ..⟩) hi
  | store a0 addr => exact failsIndexCheck_of_withReg (fun s => ⟨_, exec_store ..⟩) hi
  | beq a0 a1 addr => exact failsIndexCheck_of_withRegs (fun s => ⟨_, exec_beq ..⟩) hi
  | bne a0 a1 addr => exact failsIndexCheck_of_withRegs (fun s => ⟨_, exec_bne ..⟩) hi
  | blt a0 a1 addr => exact failsIndexCheck_of_withRegs (fun s => ⟨_, exec_blt ..⟩) hi
  | bgt a0 a1 addr => exact failsIndexCheck_of_withRegs (fun s => ⟨_, exec_bgt ..⟩) hi
  | jmp addr => cases hi
  | jmpR a0 => exact failsIndexCheck_of_withReg (fun s => ⟨_, exec_jmpR ..⟩) hi
  | halt => cases hi
  | syscall => cases hi

/-! ### What a tracked step is -/

/-- The first source of the instruction that nothing has written. -/
def unwrittenSource (i : Instr) (t : Tracked) : Option (Fin 16) :=
  (sourceRegs i t.s).find? fun r => decide (r ∉ t.written)

theorem not_mem_of_unwrittenSource {i : Instr} {t : Tracked} {r : Fin 16} (h : unwrittenSource i t = some r) :
    r ∉ t.written := by
  rw [unwrittenSource] at h
  simpa using List.find?_some h

theorem mem_of_unwrittenSource_none {i : Instr} {t : Tracked} (h : unwrittenSource i t = none) :
    ∀ q ∈ sourceRegs i t.s, q ∈ t.written := fun q hq => by
  rw [unwrittenSource] at h
  simpa using List.find?_eq_none.mp h q hq

section
variable {t : Tracked}

theorem trackedStep_not_running (hr : t.s.runState ≠ .running) :
    trackedStep t = trackedAfter none t.written (step t.s) := by
  rw [trackedStep, if_neg hr]

theorem trackedStep_pc_unwritten (hr : t.s.runState = .running) (hpc : t.s.cfg.pcIndex ∉ t.written) :
    trackedStep t = .undefinedRegisterRead t.s.cfg.pcIndex := by
  rw [trackedStep, if_pos hr, if_pos hpc]

variable (hr : t.s.runState = .running) (hpc : t.s.cfg.pcIndex ∈ t.written)
include hr hpc

theorem trackedStep_inside (hp : t.s.phase ≠ .fetch) :
    trackedStep t = trackedAfter none t.written (step t.s) := by
  rw [trackedStep, if_pos hr, if_neg (not_not_intro hpc), if_neg hp]

theorem trackedStep_no_instr (hp : t.s.phase = .fetch) (hi : fetchedInstr t.s = none) :
    trackedStep t = trackedAfter none t.written (step t.s) := by
  rw [trackedStep, if_pos hr, if_neg (not_not_intro hpc), if_pos hp, hi]

theorem trackedStep_illFormed {i : Instr} (hp : t.s.phase = .fetch) (hi : fetchedInstr t.s = some i)
    (hc : WellFormed.check i = false) : trackedStep t = trackedAfter none t.written (step t.s) := by
  rw [trackedStep, if_pos hr, if_neg (not_not_intro hpc), if_pos hp, hi]
  exact if_neg (by rw [hc]; exact Bool.false_ne_true)

theorem trackedStep_source_unwritten {i : Instr} {r : Fin 16} (hp : t.s.phase = .fetch)
    (hi : fetchedInstr t.s = some i) (hc : WellFormed.check i = true) (hu : unwrittenSource i t = some r) :
    trackedStep t = .undefinedRegisterRead r := by
  rw [unwrittenSource] at hu
  rw [trackedStep, if_pos hr, if_neg (not_not_intro hpc), if_pos hp, hi]
  simp only [hc, if_true, hu]

theorem trackedStep_instr {i : Instr} (hp : t.s.phase = .fetch) (hi : fetchedInstr t.s = some i)
    (hc : WellFormed.check i = true) (hu : unwrittenSource i t = none) :
    trackedStep t = trackedAfter (destReg i) t.written (step t.s) := by
  rw [unwrittenSource] at hu
  rw [trackedStep, if_pos hr, if_neg (not_not_intro hpc), if_pos hp, hi]
  simp only [hc, if_true, hu]

end

/-! ### The value of an unwritten register -/

theorem writtenAfter_of_not_completed {dest : Option (Fin 16)} {w : List (Fin 16)} {s : State}
    (h : dest = none ∨ ¬ (s.runState = .running ∧ s.phase = .fetch)) : writtenAfter dest w s = w := by
  unfold writtenAfter
  split
  · rename_i hc
    rw [h.resolve_right (not_not_intro hc)]
    rfl
  · rfl

/-- Outcomes that mirror each other under another value in an unwritten register agree, where the instruction that
writes its destination has completed. -/
theorem agreesBut_of_mirrors {r : Fin 16} {v : Word} {s : State} {w : List (Fin 16)} {dest : Option (Fin 16)}
    {a b : Out} (hr : r ≠ s.cfg.pcIndex) (hw : r ∉ w)
    (hs : dest = none ∨ (s.runState = .running ∧ s.phase = .fetch))
    (hab : Mirrors (State.writeReg r v) s dest a b) :
    AgreesBut r v (trackedAfter dest w a) (trackedAfter dest w b) := by
  cases hab with
  | next t ht =>
    have hafter : writtenAfter dest w (t.writeReg r v) = writtenAfter dest w t := rfl
    rw [trackedAfter, trackedAfter, hafter, writtenAfter_of_not_completed ht]
    exact .unwritten t w hw
  | fatal p x y => exact .fatal p x y
  | write d x u hd hu =>
    have hdone : ((u.writeReg d x).retire .next).runState = .running ∧
        ((u.writeReg d x).retire .next).phase = .fetch := by
      obtain ⟨hrun, hphase⟩ := hs.resolve_left (by rw [hd]; nofun)
      exact ⟨by simpa [hu.runState] using hrun, by simpa [hu.phase] using hphase⟩
    have hafter : writtenAfter dest w ((u.writeReg d x).retire .next) = d :: w := by
      rw [writtenAfter, if_pos hdone, hd]
      rfl
    by_cases hrd : r = d
    · rw [hrd, writeAndNext_writeReg_same, writeAndNext_eq, trackedAfter, hafter]
      exact .written _ _ (List.mem_cons_self ..)
    · have hafter' : writtenAfter dest w (((u.writeReg d x).retire .next).writeReg r v) = d :: w := hafter
      rw [writeAndNext_writeReg_other (by rw [hu.cfg]; exact hr) hrd, writeAndNext_eq, trackedAfter, trackedAfter,
        hafter, hafter']
      exact .unwritten _ _ (by simp [hrd, hw])

/-- Another value in a register other than `x[3]` makes no difference to which registers are sources. -/
theorem sourceRegs_writeReg {r : Fin 16} (h3 : r ≠ 3) (v : Word) (i : Instr) (s : State) :
    sourceRegs i (s.writeReg r v) = sourceRegs i s := by
  have hdesc : (s.writeReg r v).readReg 3 = s.readReg 3 := s.readReg_writeReg_other v (Ne.symm h3)
  cases i with
  | syscall =>
    simp only [sourceRegs, sysDescReg_eq, hdesc, State.writeReg_present, State.writeReg_devices]
    rfl
  | _ => rfl

/-- The first unwritten source does not depend on the value of an unwritten register: a Syscall reads `x[3]` first. -/
theorem unwrittenSource_writeReg {t : Tracked} {r : Fin 16} (hw : r ∉ t.written) (v : Word) (i : Instr) :
    unwrittenSource i { t with s := t.s.writeReg r v } = unwrittenSource i t := by
  by_cases h3 : r = 3
  · subst h3
    cases i with
    | syscall => cases hio : t.s.present.io <;> simp [unwrittenSource, sourceRegs, hio, hw]
    | _ => rfl
  · rw [unwrittenSource, sourceRegs_writeReg h3]
    rfl

/-- A tracked step that fetches an instruction, with another value in an unwritten register. -/
theorem trackedStep_agrees_instr {t : Tracked} {r : Fin 16} {i : Instr} (v : Word) (hw : r ∉ t.written)
    (hr : r ≠ t.s.cfg.pcIndex) (hrun : t.s.runState = .running) (hpc : t.s.cfg.pcIndex ∈ t.written)
    (hp : t.s.phase = .fetch) (hi : fetchedInstr t.s = some i) :
    AgreesBut r v (trackedStep t) (trackedStep { t with s := t.s.writeReg r v }) := by
  have ht := transparent_writeReg hr v
  have hi' : fetchedInstr (t.s.writeReg r v) = some i := (fetchedInstr_remap ht).trans hi
  have hu' := unwrittenSource_writeReg hw v i
  cases hc : WellFormed.check i with
  | false =>
    rw [trackedStep_illFormed hrun hpc hp hi hc,
      trackedStep_illFormed (by exact hrun) (by exact hpc) (by exact hp) hi' hc]
    obtain ⟨slot, x, hfail⟩ := failsIndexCheck_of_illFormed hc
    obtain ⟨w, hstep⟩ := step_of_fetchedInstr hrun hp hi
    obtain ⟨w', hstep'⟩ := step_of_fetchedInstr (s := t.s.writeReg r v) hrun hp hi'
    have hpc' : (t.s.writeReg r v).pc = t.s.pc := pc_remap ht rfl
    rw [hstep, hstep', hfail, hfail, State.pc_emit, State.pc_emit, hpc']
    exact .fatal ..
  | true =>
    cases hu : unwrittenSource i t with
    | some q =>
      rw [trackedStep_source_unwritten hrun hpc hp hi hc hu, trackedStep_source_unwritten (by exact hrun) (by exact hpc)
        (by exact hp) hi' hc (hu'.trans hu)]
      exact .undefinedRegisterRead q
    | none =>
      have hsrc : ∀ q ∈ sourceRegs i t.s, (t.s.writeReg r v).readReg q = t.s.readReg q := fun q hq => by
        refine t.s.readReg_writeReg_other v fun hqr => hw ?_
        rw [← hqr]
        exact mem_of_unwrittenSource_none hu q hq
      rw [trackedStep_instr hrun hpc hp hi hc hu, trackedStep_instr (by exact hrun) (by exact hpc) (by exact hp) hi' hc
        (hu'.trans hu)]
      exact agreesBut_of_mirrors hr hw (.inr ⟨hrun, hp⟩) (step_mirrors_instr ht hrun hp hi hsrc)

theorem trackedStep_agrees_running {t : Tracked} {r : Fin 16} (v : Word) (hw : r ∉ t.written)
    (hrun : t.s.runState = .running) :
    AgreesBut r v (trackedStep t) (trackedStep { t with s := t.s.writeReg r v }) := by
  by_cases hpc : t.s.cfg.pcIndex ∈ t.written
  case neg =>
    rw [trackedStep_pc_unwritten hrun hpc, trackedStep_pc_unwritten (by exact hrun) (by exact hpc)]
    exact .undefinedRegisterRead _
  have hr : r ≠ t.s.cfg.pcIndex := fun h => hw (h ▸ hpc)
  have ht := transparent_writeReg hr v
  by_cases hp : t.s.phase = .fetch
  case neg =>
    rw [trackedStep_inside hrun hpc hp, trackedStep_inside (by exact hrun) (by exact hpc) (by exact hp)]
    exact agreesBut_of_mirrors hr hw (.inl rfl) (step_mirrors_other ht hrun hp)
  cases hi : fetchedInstr t.s with
  | none =>
    rw [trackedStep_no_instr hrun hpc hp hi, trackedStep_no_instr (by exact hrun) (by exact hpc) (by exact hp)
      ((fetchedInstr_remap ht).trans hi)]
    exact agreesBut_of_mirrors hr hw (.inl rfl) (step_mirrors_no_instr ht hrun hp hi)
  | some i => exact trackedStep_agrees_instr v hw hr hrun hpc hp hi

/-- Settles O58: a Running core reads no unwritten register, and another core none at all. -/
theorem trackedRunIgnoresUnwrittenRegisters : Obligations.TrackedRunIgnoresUnwrittenRegisters := by
  intro t r v hw
  by_cases hrun : t.s.runState = .running
  · exact trackedStep_agrees_running v hw hrun
  rw [trackedStep_not_running hrun, trackedStep_not_running (by exact hrun)]
  cases hr : t.s.runState with
  | running => exact absurd hr hrun
  | stopped =>
    rw [step_of_stopped hr, step_of_stopped (by exact hr)]
    have hsame : ∀ s, writtenAfter none t.written s = t.written := fun _ => writtenAfter_of_not_completed (.inl rfl)
    rw [trackedAfter, trackedAfter, hsame, hsame]
    exact .unwritten _ _ hw
  | fatal =>
    rw [step_of_fatal hr, step_of_fatal (by exact hr)]
    exact .coreIsFatal

end Sys2Proof.Safety
end

section
/-! Proof of the statement about the ends of a call of run (70_reset_and_hazards.md rule R275). A run is compared with
the tracked steps that it makes: it ends as the state after some of them says, and it passes through all of them. -/

namespace Sys2Proof.Safety

open Sys2Proof Sys2Proof.Machine

/-! ### One tracked step -/

/-- A tracked step either reads an unwritten register or is a step of the machine. -/
theorem trackedStep_shape (t : Tracked) :
    (∃ r, r ∉ t.written ∧ trackedStep t = .undefinedRegisterRead r) ∨
      ∃ dest, trackedStep t = trackedAfter dest t.written (step t.s) := by
  by_cases hr : t.s.runState = .running
  case neg => exact .inr ⟨_, trackedStep_not_running hr⟩
  by_cases hpc : t.s.cfg.pcIndex ∈ t.written
  case neg => exact .inl ⟨_, hpc, trackedStep_pc_unwritten hr hpc⟩
  by_cases hp : t.s.phase = .fetch
  case neg => exact .inr ⟨_, trackedStep_inside hr hpc hp⟩
  cases hi : fetchedInstr t.s with
  | none => exact .inr ⟨_, trackedStep_no_instr hr hpc hp hi⟩
  | some i =>
    cases hc : WellFormed.check i with
    | false => exact .inr ⟨_, trackedStep_illFormed hr hpc hp hi hc⟩
    | true =>
      cases hu : unwrittenSource i t with
      | none => exact .inr ⟨_, trackedStep_instr hr hpc hp hi hc hu⟩
      | some r =>
        exact .inl ⟨r, not_mem_of_unwrittenSource hu, trackedStep_source_unwritten hr hpc hp hi hc hu⟩

theorem mem_writtenAfter {dest : Option (Fin 16)} {w : List (Fin 16)} {s : State} {r : Fin 16} (h : r ∈ w) :
    r ∈ writtenAfter dest w s := by
  unfold writtenAfter
  split
  · exact List.mem_append_right _ h
  · exact h

/-- A tracked step to a next state is the step of the machine, and no register becomes unwritten. -/
theorem step_of_trackedStep_next {t t' : Tracked} (h : trackedStep t = .next t') :
    step t.s = .next t'.s ∧ ∀ r ∈ t.written, r ∈ t'.written := by
  obtain ⟨r, -, hu⟩ | ⟨dest, ha⟩ := trackedStep_shape t
  · rw [hu] at h; cases h
  · rw [ha] at h
    cases hs : step t.s <;> rw [hs] at h <;> cases h
    exact ⟨rfl, fun r hr => mem_writtenAfter hr⟩

/-- A tracked step that ends in a fault is the step of the machine. -/
theorem step_of_trackedStep_fault {t : Tracked} {f : Fault} (h : trackedStep t = .fault f) : step t.s = .fault f := by
  obtain ⟨r, -, hu⟩ | ⟨dest, ha⟩ := trackedStep_shape t
  · rw [hu] at h; cases h
  · rw [ha] at h
    cases hs : step t.s <;> rw [hs] at h <;> cases h
    rfl

theorem trackedStep_ne_refused (t : Tracked) (r : Refusal) : trackedStep t ≠ .refused r := fun h => by
  obtain ⟨q, -, hu⟩ | ⟨dest, ha⟩ := trackedStep_shape t
  · rw [hu] at h; cases h
  · rw [ha] at h
    cases hs : step t.s <;> rw [hs] at h <;> cases h
    exact noStepIsRefused _ _ hs

theorem not_mem_of_undefinedRegisterRead {t : Tracked} {r : Fin 16} (h : trackedStep t = .undefinedRegisterRead r) :
    r ∉ t.written := by
  obtain ⟨q, hq, hu⟩ | ⟨dest, ha⟩ := trackedStep_shape t
  · rw [hu] at h; cases h; exact hq
  · rw [ha] at h
    cases hs : step t.s <;> rw [hs] at h <;> cases h

/-- Where every register has been written, the tracked step is the step of the machine. -/
theorem trackedStep_of_step {t : Tracked} {s : State} (hw : ∀ r, r ∈ t.written) (h : step t.s = .next s) :
    ∃ w, trackedStep t = .next ⟨s, w⟩ ∧ ∀ r, r ∈ w := by
  obtain ⟨q, hq, -⟩ | ⟨dest, ha⟩ := trackedStep_shape t
  · exact absurd (hw q) hq
  · exact ⟨_, by rw [ha, h]; rfl, fun r => mem_writtenAfter (hw r)⟩

theorem trackedStep_stopped {t : Tracked} (h : t.s.runState = .stopped) : trackedStep t = .next t := by
  have hnot : t.s.runState ≠ .running := by rw [h]; nofun
  rw [trackedStep_not_running hnot, step_of_stopped h, trackedAfter, writtenAfter_of_not_completed (.inl rfl)]

theorem trackedStep_fatal {t : Tracked} (h : t.s.runState = .fatal) : trackedStep t = .fault .coreIsFatal := by
  have hnot : t.s.runState ≠ .running := by rw [h]; nofun
  rw [trackedStep_not_running hnot, step_of_fatal h, trackedAfter]

/-! ### Some tracked steps -/

theorem trackedRun_succ {t t' : Tracked} (n : Nat) (h : trackedStep t = .next t') :
    trackedRun (n + 1) t = trackedRun n t' := by rw [trackedRun, h]

/-- A run of one tracked step more begins with one. -/
theorem trackedRun_succ_eq_some {t u : Tracked} {n : Nat} :
    trackedRun (n + 1) t = some u ↔ ∃ t', trackedStep t = .next t' ∧ trackedRun n t' = some u := by
  rw [trackedRun]
  cases trackedStep t <;> simp

theorem trackedRun_stopped {t : Tracked} (h : t.s.runState = .stopped) (n : Nat) : trackedRun n t = some t := by
  induction n with
  | zero => rfl
  | succ n ih => rw [trackedRun_succ n (trackedStep_stopped h), ih]

/-- Tracked steps are steps of the machine; they keep the configuration, and no register becomes unwritten. -/
theorem core_run_of_trackedRun {u : Tracked} : ∀ {n : Nat} {t : Tracked}, trackedRun n t = some u →
    Host.Core.run Sys2Proof.core n t.s = .next u.s ∧ u.s.cfg = t.s.cfg ∧ ∀ r ∈ t.written, r ∈ u.written
  | 0, t, h => by cases h; exact ⟨rfl, rfl, fun _ => id⟩
  | n + 1, t, h => by
    obtain ⟨t', hstep, hrest⟩ := trackedRun_succ_eq_some.mp h
    obtain ⟨hs, hw⟩ := step_of_trackedStep_next hstep
    obtain ⟨hrun, hcfg, hw'⟩ := core_run_of_trackedRun hrest
    exact ⟨(core_run_next n hs).trans hrun, hcfg.trans (advances_of_step hs).cfg, fun r hr => hw' r (hw r hr)⟩

/-- A run of one step more begins with one. -/
theorem step_of_core_run_succ {s u : State} {n : Nat} (h : Host.Core.run Sys2Proof.core (n + 1) s = .next u) :
    ∃ s', step s = .next s' ∧ Host.Core.run Sys2Proof.core n s' = .next u := by
  cases hs : Sys2Proof.core.step s <;> simp only [Host.Core.run, hs] at h
  · exact ⟨_, hs, h⟩
  · cases h
  · cases h

/-- Where every register has been written, the steps of the machine are tracked steps. -/
theorem trackedRun_of_core_run {u : State} : ∀ {n : Nat} {t : Tracked}, (∀ r, r ∈ t.written) →
    Host.Core.run Sys2Proof.core n t.s = .next u → ∃ w, trackedRun n t = some ⟨u, w⟩
  | 0, t, _, h => by cases h; exact ⟨t.written, rfl⟩
  | n + 1, t, hw, h => by
    obtain ⟨s, hs, hrest⟩ := step_of_core_run_succ h
    obtain ⟨w, ht, hw'⟩ := trackedStep_of_step hw hs
    obtain ⟨w', hrun⟩ := trackedRun_of_core_run (t := ⟨s, w⟩) hw' hrest
    exact ⟨w', (trackedRun_succ n ht).trans hrun⟩

/-! ### A call of run -/

/-- A call of run passes through its tracked steps. -/
theorem runFor_next {t t' : Tracked} (n : Nat) (h : trackedStep t = .next t') : runFor (n + 1) t = runFor n t' := by
  cases hr : t.s.runState with
  | running => rw [runFor, hr, h]
  | stopped =>
    rw [trackedStep_stopped hr] at h
    cases h
    rw [runFor_stopped _ hr, runFor_stopped _ hr]
  | fatal => rw [trackedStep_fatal hr] at h; cases h

theorem runFor_trackedRun {u : Tracked} (n : Nat) : ∀ {k : Nat} {t : Tracked}, trackedRun k t = some u →
    runFor (k + n) t = runFor n u
  | 0, t, h => by cases h; rw [Nat.zero_add]
  | k + 1, t, h => by
    obtain ⟨t', hstep, hrest⟩ := trackedRun_succ_eq_some.mp h
    rw [Nat.add_right_comm, runFor_next _ hstep, runFor_trackedRun n hrest]

/-- What a core that makes a tracked step other than to a next state makes of the run. -/
theorem runFor_fatal {t : Tracked} {r : Report} {e : State} (n : Nat) (h : trackedStep t = .fault (.fatal r e)) :
    runFor (n + 1) t = some (.fatal r) := by
  cases hr : t.s.runState with
  | running => rw [runFor, hr, h]
  | stopped => rw [trackedStep_stopped hr] at h; cases h
  | fatal => rw [trackedStep_fatal hr] at h; cases h

theorem runFor_undefinedRegisterRead {t : Tracked} {r : Fin 16} (n : Nat)
    (h : trackedStep t = .undefinedRegisterRead r) : runFor (n + 1) t = some (.undefinedRegisterRead r) := by
  cases hr : t.s.runState with
  | running => rw [runFor, hr, h]
  | stopped => rw [trackedStep_stopped hr] at h; cases h
  | fatal => rw [trackedStep_fatal hr] at h; cases h

/-- The state, at most `n` tracked steps on, that a call of run has the end of. -/
def EndsAfter (n : Nat) (t : Tracked) : RunEnd → Prop
  | .stopped h => h.inRun = false ∧ h.t.s.runState = .stopped ∧ trackedRun n t = some h.t
  | .notYet h => h.inRun = true ∧ h.t.s.runState = .running ∧ trackedRun n t = some h.t
  | .fatal r => ∃ k u e, k < n ∧ trackedRun k t = some u ∧ trackedStep u = .fault (.fatal r e) ∧
      step u.s = .fault (.fatal r e)
  | .undefinedRegisterRead r => ∃ k u, k < n ∧ trackedRun k t = some u ∧ trackedStep u = .undefinedRegisterRead r

theorem EndsAfter.succ {n : Nat} {t t' : Tracked} {e : RunEnd} (ht : trackedStep t = .next t')
    (h : EndsAfter n t' e) : EndsAfter (n + 1) t e := by
  cases e with
  | stopped s =>
    obtain ⟨hin, hs, hrun⟩ := h
    exact ⟨hin, hs, (trackedRun_succ n ht).trans hrun⟩
  | notYet s =>
    obtain ⟨hin, hs, hrun⟩ := h
    exact ⟨hin, hs, (trackedRun_succ n ht).trans hrun⟩
  | fatal r =>
    obtain ⟨k, u, e, hk, hrun, hstep⟩ := h
    exact ⟨k + 1, u, e, Nat.succ_lt_succ hk, (trackedRun_succ k ht).trans hrun, hstep⟩
  | undefinedRegisterRead r =>
    obtain ⟨k, u, hk, hrun, hstep⟩ := h
    exact ⟨k + 1, u, Nat.succ_lt_succ hk, (trackedRun_succ k ht).trans hrun, hstep⟩

theorem endsAfter_of_runFor {e : RunEnd} : ∀ {n : Nat} {t : Tracked}, runFor n t = some e → EndsAfter n t e := by
  intro n
  induction n with
  | zero =>
    intro t h
    rw [runFor] at h
    cases hr : t.s.runState with
    | running => rw [hr] at h; cases h; exact ⟨rfl, hr, rfl⟩
    | stopped => rw [hr] at h; cases h; exact ⟨rfl, hr, rfl⟩
    | fatal => rw [hr] at h; cases h
  | succ n ih =>
    intro t h
    cases hr : t.s.runState with
    | stopped =>
      rw [runFor_stopped _ hr] at h
      cases h
      exact ⟨rfl, hr, trackedRun_stopped hr _⟩
    | fatal => rw [runFor, hr] at h; cases h
    | running =>
      cases ht : trackedStep t with
      | next t' =>
        rw [runFor_next n ht] at h
        exact (ih h).succ ht
      | undefinedRegisterRead r =>
        rw [runFor_undefinedRegisterRead n ht] at h
        cases h
        exact ⟨0, t, Nat.succ_pos n, rfl, ht⟩
      | refused r => exact absurd ht (trackedStep_ne_refused t r)
      | fault f =>
        cases f with
        | coreIsFatal => rw [runFor, hr, ht] at h; cases h
        | fatal r e =>
          rw [runFor_fatal n ht] at h
          cases h
          exact ⟨0, t, e, Nat.succ_pos n, rfl, ht, step_of_trackedStep_fault ht⟩

theorem runFor_of_endsAfter {n : Nat} {t : Tracked} {e : RunEnd} (h : EndsAfter n t e) : runFor n t = some e := by
  cases e with
  | stopped s =>
    obtain ⟨tr, inRun⟩ := s
    obtain ⟨rfl, hs, hrun⟩ := h
    rw [← Nat.add_zero n, runFor_trackedRun 0 hrun]
    exact runFor_stopped 0 hs
  | notYet s =>
    obtain ⟨tr, inRun⟩ := s
    obtain ⟨rfl, hs, hrun⟩ := h
    rw [← Nat.add_zero n, runFor_trackedRun 0 hrun, runFor]
    simp only [show tr.s.runState = .running from hs]
  | fatal r =>
    obtain ⟨k, u, e, hk, hrun, ht, -⟩ := h
    obtain ⟨m, rfl⟩ := Nat.exists_eq_add_of_lt hk
    rw [Nat.add_assoc, runFor_trackedRun (m + 1) hrun, runFor_fatal m ht]
  | undefinedRegisterRead r =>
    obtain ⟨k, u, hk, hrun, ht⟩ := h
    obtain ⟨m, rfl⟩ := Nat.exists_eq_add_of_lt hk
    rw [Nat.add_assoc, runFor_trackedRun (m + 1) hrun, runFor_undefinedRegisterRead m ht]

theorem hostRun_eq_some {n : Nat} {t : Tracked} {e : RunEnd} :
    hostRun n ⟨t, false⟩ = some e ↔ EndsAfter n t e :=
  ⟨fun h => endsAfter_of_runFor h, fun h => runFor_of_endsAfter h⟩

theorem trackedStep_halt {t : Tracked} (hr : t.s.runState = .running) (hp : t.s.phase = .fetch)
    (hpc : t.s.cfg.pcIndex ∈ t.written) (hi : fetchedInstr t.s = some .halt) :
    ∃ s, trackedStep t = .next ⟨s, t.written⟩ ∧ s.runState = .stopped ∧ s.pc = t.s.pc := by
  obtain ⟨w, hstep⟩ := step_of_fetchedInstr hr hp hi
  rw [exec_halt] at hstep
  refine ⟨{ t.s.emit (.memRead t.s.pc (some w)) with flags := Flags.clearRunning t.s.flags }, ?_, ?_, rfl⟩
  · rw [trackedStep_instr hr hpc hp hi rfl rfl, hstep, trackedAfter,
      writtenAfter_of_not_completed (dest := destReg .halt) (.inl rfl)]
    rfl
  · exact State.runState_stopped.mpr ⟨(State.runState_running.mp hr).1, Flags.running_clearRunning _⟩

/-- Settles O60: the four ends are `EndsAfter`, and tracked steps are compared with steps of the machine one by one. -/
theorem runsEndAsTheSpecSays : Obligations.RunsEndAsTheSpecSays := by
  intro n t
  refine ⟨fun h => hostRun_eq_some, fun h => hostRun_eq_some, fun r => hostRun_eq_some, fun r => hostRun_eq_some,
    fun r h => ?fatalClass, fun r h => ?unwritten, fun u h => (core_run_of_trackedRun h).1,
    fun hw u h => trackedRun_of_core_run hw h, fun hr hp hpc hi => ?halt, fun hr hpc => ?pcUnwritten⟩
  case fatalClass =>
    obtain ⟨k, u, e, -, hrun, -, hstep⟩ := hostRun_eq_some.mp h
    rw [← (core_run_of_trackedRun hrun).2.1]
    obtain ⟨-, hf⟩ | ⟨-, r', e', hf, hc, -⟩ := faultOutcomesAreOfTheFatalClass u.s _ hstep
    · cases hf
    · cases hf; exact hc
  case unwritten =>
    obtain ⟨k, u, -, hrun, hstep⟩ := hostRun_eq_some.mp h
    obtain ⟨-, -, hwritten⟩ := core_run_of_trackedRun hrun
    exact fun hr => not_mem_of_undefinedRegisterRead hstep (hwritten r hr)
  case halt =>
    obtain ⟨s, hstep, hs, hspc⟩ := trackedStep_halt hr hp hpc hi
    exact ⟨⟨⟨s, t.written⟩, false⟩, (runFor_next n hstep).trans (runFor_stopped n hs), hspc, rfl⟩
  case pcUnwritten => exact runFor_undefinedRegisterRead n (trackedStep_pc_unwritten hr hpc)

end Sys2Proof.Safety
end

section
/-! Proofs of the statements about the host: construction (70_reset_and_hazards.md rule R270), and the canonical form of
its memory (20_memory.md rule R79). -/

namespace Sys2Proof.Safety

open Sys2Proof Sys2Proof.Machine

/-! ### Construction -/

/-- Settles O43: by the definition of construction. -/
theorem constructionGivesTheResetValues : Obligations.ConstructionGivesTheResetValues :=
  ⟨rfl, rfl, rfl, fun _ _ _ =>
    ⟨rfl, rfl, rfl, State.runState_stopped.mpr ⟨rfl, (by decide : Flags.running 0 = false)⟩, rfl,
      List.length_replicate⟩⟩

theorem inv_constructed {c : Config} {m : Memory} {ds : List Binding} (hc : c.valid = true) (hm : m.wf = true)
    (hd : bindingsFrom 0 ds = true) : Inv (State.constructed c m ds) where
  mem := hm
  devices := hd
  stack := List.length_replicate
  cfg := hc
  phase _ := rfl

/-- Settles O45: reset is a construction. -/
theorem resetMeetsTheInvariant : Obligations.ResetMeetsTheInvariant :=
  inv_constructed (by decide) (by decide) (by decide)

/-- Settles O44: the two branches of construction. -/
theorem onlyValidConfigurationsAreConstructed : Obligations.OnlyValidConfigurationsAreConstructed := by
  intro pc sp cap ov dz m ds
  refine ⟨fun h => ?_, fun ⟨hpc, hsp, hne⟩ hm hd => ?_⟩
  · rw [hostConstruct, Config.ofIndices, dif_neg h]
  · have hvalid : Config.valid ⟨⟨pc, hpc⟩, ⟨sp, hsp⟩, cap, ov, dz⟩ = true := by simpa [Config.valid] using hne
    refine ⟨State.constructed ⟨⟨pc, hpc⟩, ⟨sp, hsp⟩, cap, ov, dz⟩ m ds, ?_, rfl, rfl, rfl, rfl, rfl, rfl,
      inv_constructed hvalid hm hd⟩
    rw [hostConstruct, Config.ofIndices, dif_pos ⟨hpc, hsp, hne⟩]
    simp only [hm, hd, Bool.and_self, if_true]

/-! ### The canonical form of memory -/

/-- A region list from `lo` on has no address below `lo`. -/
theorem le_of_any_has {a : Nat} : ∀ {lo : Nat} {rs : List Region},
    Memory.regionsFrom lo rs = true → rs.any (·.has a) = true → lo ≤ a
  | _, [], _, ha => by cases ha
  | lo, r :: rest, h, ha => by
    simp only [Memory.regionsFrom, Bool.and_eq_true, decide_eq_true_eq] at h
    simp only [List.any_cons, Bool.or_eq_true, Region.has_iff] at ha
    obtain ha | ha := ha
    · omega
    · have := le_of_any_has h.2 ha
      omega

theorem any_has_cons {a : Nat} {r : Region} {rest : List Region} :
    (r :: rest).any (·.has a) = true ↔ (r.base ≤ a ∧ a < r.base + r.size) ∨ rest.any (·.has a) = true := by
  rw [List.any_cons, Bool.or_eq_true, Region.has_iff]

theorem regionsFrom_cons {lo : Nat} {r : Region} {rest : List Region} :
    Memory.regionsFrom lo (r :: rest) = true ↔ lo ≤ r.base ∧ 0 < r.size ∧ r.base + r.size ≤ 2 ^ 64 ∧
      Memory.regionsFrom (r.base + r.size + 1) rest = true := by
  simp only [Memory.regionsFrom, Bool.and_eq_true, decide_eq_true_eq, and_assoc]

/-- Where a canonical region list holds every address of another, its first region begins no later, and if both begin at
one address, it ends no earlier: the address after it is missing. -/
theorem first_region_covers {lo lo' : Nat} {r q : Region} {rs qs : List Region}
    (hr : Memory.regionsFrom lo (r :: rs) = true) (hq : Memory.regionsFrom lo' (q :: qs) = true)
    (h : ∀ a, (q :: qs).any (·.has a) = true → (r :: rs).any (·.has a) = true) :
    r.base ≤ q.base ∧ (r.base = q.base → q.size ≤ r.size) := by
  obtain ⟨-, -, -, hrs⟩ := regionsFrom_cons.mp hr
  obtain ⟨-, hsize, -, -⟩ := regionsFrom_cons.mp hq
  refine ⟨?_, fun hbase => ?_⟩
  · obtain hin | hin := any_has_cons.mp (h q.base (any_has_cons.mpr (.inl (by omega))))
    · omega
    · have := le_of_any_has hrs hin
      omega
  · by_contra hlt
    obtain hin | hin := any_has_cons.mp (h (r.base + r.size) (any_has_cons.mpr (.inl (by omega))))
    · omega
    · have := le_of_any_has hrs hin
      omega

/-- Canonical region lists that hold the same addresses are equal. -/
theorem regions_eq : ∀ {lo : Nat} {rs qs : List Region}, Memory.regionsFrom lo rs = true →
    Memory.regionsFrom lo qs = true → (∀ a, rs.any (·.has a) = true ↔ qs.any (·.has a) = true) → rs = qs
  | _, [], [], _, _, _ => rfl
  | _, [], q :: qs, _, hq, h => by
    obtain ⟨-, hsize, -, -⟩ := regionsFrom_cons.mp hq
    cases (h q.base).mpr (any_has_cons.mpr (.inl (by omega)))
  | _, r :: rs, [], hr, _, h => by
    obtain ⟨-, hsize, -, -⟩ := regionsFrom_cons.mp hr
    cases (h r.base).mp (any_has_cons.mpr (.inl (by omega)))
  | _, r :: rs, q :: qs, hr, hq, h => by
    obtain ⟨hb, hn⟩ := first_region_covers hr hq fun a => (h a).mpr
    obtain ⟨hb', hn'⟩ := first_region_covers hq hr fun a => (h a).mp
    have hbase : r.base = q.base := Nat.le_antisymm hb hb'
    have hsize : r.size = q.size := Nat.le_antisymm (hn' hbase.symm) (hn hbase)
    have hrq : r = q := by cases r; cases q; simp_all
    subst hrq
    obtain ⟨-, -, -, hrs⟩ := regionsFrom_cons.mp hr
    obtain ⟨-, -, -, hqs⟩ := regionsFrom_cons.mp hq
    have hrest : ∀ a, rs.any (·.has a) = true ↔ qs.any (·.has a) = true := fun a => by
      have ha := h a
      rw [any_has_cons, any_has_cons] at ha
      refine ⟨fun hin => (ha.mp (.inr hin)).resolve_left ?_, fun hin => (ha.mpr (.inr hin)).resolve_left ?_⟩
      · have := le_of_any_has hrs hin
        omega
      · have := le_of_any_has hqs hin
        omega
    rw [regions_eq hrs hqs hrest]

theorem cellsFrom_cons {lo a : Nat} {v : Word} {rest : List (Nat × Word)} :
    Memory.cellsFrom lo ((a, v) :: rest) = true ↔
      lo ≤ a ∧ v ≠ Memory.unlisted ∧ Memory.cellsFrom (a + 1) rest = true := by
  simp only [Memory.cellsFrom, Bool.and_eq_true, decide_eq_true_eq, and_assoc]

/-- The first cell of a canonical list is no later than that of another that reads alike. -/
theorem first_cell_le {lo lo' a b : Nat} {v w : Word} {cs ds : List (Nat × Word)}
    (hc : Memory.cellsFrom lo ((a, v) :: cs) = true) (hd : Memory.cellsFrom lo' ((b, w) :: ds) = true)
    (h : Memory.lookup ((a, v) :: cs) b = Memory.lookup ((b, w) :: ds) b) : a ≤ b := by
  obtain ⟨-, -, hcs⟩ := cellsFrom_cons.mp hc
  obtain ⟨-, hw, -⟩ := cellsFrom_cons.mp hd
  by_contra hlt
  rw [Memory.lookup, if_neg (by omega), Memory.lookup_below hcs (by omega), Memory.lookup, if_pos rfl] at h
  exact hw h.symm

/-- Canonical cell lists that read alike are equal. -/
theorem cells_eq : ∀ {lo : Nat} {cs ds : List (Nat × Word)}, Memory.cellsFrom lo cs = true →
    Memory.cellsFrom lo ds = true → (∀ a, Memory.lookup cs a = Memory.lookup ds a) → cs = ds
  | _, [], [], _, _, _ => rfl
  | _, [], (b, w) :: ds, _, hd, h => by
    obtain ⟨-, hw, -⟩ := cellsFrom_cons.mp hd
    have hb := h b
    rw [Memory.lookup, Memory.lookup, if_pos rfl] at hb
    exact absurd hb.symm hw
  | _, (a, v) :: cs, [], hc, _, h => by
    obtain ⟨-, hv, -⟩ := cellsFrom_cons.mp hc
    have ha := h a
    rw [Memory.lookup, Memory.lookup, if_pos rfl] at ha
    exact absurd ha hv
  | _, (a, v) :: cs, (b, w) :: ds, hc, hd, h => by
    have hab : a = b := Nat.le_antisymm (first_cell_le hc hd (h b)) (first_cell_le hd hc (h a).symm)
    subst hab
    have hvw : v = w := by simpa [Memory.lookup] using h a
    obtain ⟨-, -, hcs⟩ := cellsFrom_cons.mp hc
    obtain ⟨-, -, hds⟩ := cellsFrom_cons.mp hd
    have hrest : ∀ x, Memory.lookup cs x = Memory.lookup ds x := fun x => by
      by_cases hx : x = a
      · rw [Memory.lookup_below hcs (by omega), Memory.lookup_below hds (by omega)]
      · simpa [Memory.lookup, hx] using h x
    rw [hvw, cells_eq hcs hds hrest]

theorem addressesFrom_cons {lo a : Nat} {rest : List Nat} :
    Memory.addressesFrom lo (a :: rest) = true ↔ lo ≤ a ∧ Memory.addressesFrom (a + 1) rest = true := by
  simp only [Memory.addressesFrom, Bool.and_eq_true, decide_eq_true_eq]

theorem le_of_mem_addresses {a : Nat} : ∀ {lo : Nat} {as : List Nat},
    Memory.addressesFrom lo as = true → a ∈ as → lo ≤ a
  | _, b :: as, h, ha => by
    obtain ⟨hb, has⟩ := addressesFrom_cons.mp h
    obtain rfl | ha := List.mem_cons.mp ha
    · exact hb
    · have := le_of_mem_addresses has ha
      omega

/-- Rising address lists with the same members are equal. -/
theorem addresses_eq : ∀ {lo : Nat} {as bs : List Nat}, Memory.addressesFrom lo as = true →
    Memory.addressesFrom lo bs = true → (∀ x, x ∈ as ↔ x ∈ bs) → as = bs
  | _, [], [], _, _, _ => rfl
  | _, [], b :: bs, _, _, h => by cases (h b).mpr (List.mem_cons_self ..)
  | _, a :: as, [], _, _, h => by cases (h a).mp (List.mem_cons_self ..)
  | _, a :: as, b :: bs, ha, hb, h => by
    obtain ⟨-, has⟩ := addressesFrom_cons.mp ha
    obtain ⟨-, hbs⟩ := addressesFrom_cons.mp hb
    have first_le : ∀ {a b as}, Memory.addressesFrom (a + 1) as = true → b ∈ a :: as → a ≤ b := fun h hb => by
      obtain rfl | hb := List.mem_cons.mp hb
      · exact Nat.le_refl _
      · exact Nat.le_of_succ_le (le_of_mem_addresses h hb)
    have hab : a = b := Nat.le_antisymm (first_le has ((h b).mpr (List.mem_cons_self ..)))
      (first_le hbs ((h a).mp (List.mem_cons_self ..)))
    subst hab
    have hrest : ∀ x, x ∈ as ↔ x ∈ bs := fun x => by
      have hx := h x
      rw [List.mem_cons, List.mem_cons] at hx
      refine ⟨fun hin => (hx.mp (.inr hin)).resolve_left ?_, fun hin => (hx.mpr (.inr hin)).resolve_left ?_⟩
      · have := le_of_mem_addresses has hin
        omega
      · have := le_of_mem_addresses hbs hin
        omega
    rw [addresses_eq has hbs hrest]

/-- An address that no cell lists reads as unlisted. -/
theorem lookup_of_not_listed {a : Nat} : ∀ {cs : List (Nat × Word)}, (∀ c ∈ cs, c.1 ≠ a) →
    Memory.lookup cs a = Memory.unlisted
  | [], _ => rfl
  | (b, v) :: cs, h => by
    have hb : a ≠ b := Ne.symm (h (b, v) (List.mem_cons_self ..))
    rw [Memory.lookup, if_neg hb, lookup_of_not_listed fun c hc => h c (List.mem_cons_of_mem _ hc)]

theorem mapped_eq_isSome_read (m : Memory) (a : Nat) : m.mapped a = (m.read a).isSome := by
  cases hm : m.mapped a <;> simp [Memory.read, hm]

/-- A canonical memory's cell list reads as its cells do, and as unlisted where there is no cell. -/
theorem lookup_cells {m : Memory} (hw : m.wf = true) (a : Nat) :
    Memory.lookup m.cells a = (m.read a).getD Memory.unlisted := by
  obtain ⟨-, -, hlisted, -, -⟩ := Memory.wf_iff.mp hw
  cases hm : m.mapped a with
  | true => rw [Memory.read, if_pos hm]; rfl
  | false =>
    rw [Memory.read, if_neg (by rw [hm]; exact Bool.false_ne_true)]
    exact lookup_of_not_listed fun c hc hca => by
      have := hlisted c hc
      rw [hca, hm] at this
      cases this

/-- Settles O57: regions, cells and silent addresses are each determined by how the memory reads and blocks. -/
theorem memoriesThatReadAlikeAreEqual : Obligations.MemoriesThatReadAlikeAreEqual := by
  intro m n hm hn h
  obtain ⟨hmr, hmc, -, hms, -⟩ := Memory.wf_iff.mp hm
  obtain ⟨hnr, hnc, -, hns, -⟩ := Memory.wf_iff.mp hn
  have hregions : m.regions = n.regions := regions_eq hmr hnr fun a => by
    have hmapped : m.mapped a = n.mapped a := by
      rw [mapped_eq_isSome_read, mapped_eq_isSome_read, (h a).1]
    exact Bool.eq_iff_iff.mp hmapped
  have hcells : m.cells = n.cells := cells_eq hmc hnc fun a => by
    rw [lookup_cells hm, lookup_cells hn, (h a).1]
  have hsilent : m.silent = n.silent := addresses_eq hms hns fun a => by
    rw [← List.contains_iff_mem, ← List.contains_iff_mem]
    exact Bool.eq_iff_iff.mp (h a).2
  cases m
  cases n
  simp_all

end Sys2Proof.Safety
end

section
/-! Proofs of the statements about the host's actions (10_state.md rules R35 and R46, 70_reset_and_hazards.md rule
R273). -/

namespace Sys2Proof.Safety

open Sys2Proof Sys2Proof.Machine

/-! ### One action -/

theorem hostAct_refused {a : HostAction} {h : Session} (hr : h.inRun = true ∨ h.t.s.fatal = true) :
    hostAct a h = none := by
  have hc : (h.inRun || h.t.s.fatal) = true := by simpa using hr
  rw [hostAct, if_pos hc]

/-- Outside a run, of a core that is not Fatal, an action is what it does to the state. -/
theorem hostAct_free {a : HostAction} {h : Session} (hr : h.inRun = false) (hf : h.t.s.fatal = false) :
    hostAct a h = (a.onState h.t.s).map fun s => ⟨⟨s, a.registers ++ h.t.written⟩, false⟩ := by
  have hc : ¬ (h.inRun || h.t.s.fatal) = true := by simp [hr, hf]
  rw [hostAct, if_neg hc, hr]

/-- The host's write of an existing cell (20_memory.md rule R81). -/
theorem hostAct_writeCell {s : State} {w : List (Fin 16)} {a v old : Word} (hf : s.fatal = false)
    (hwf : s.mem.wf = true) (hold : s.mem.read a.toNat = some old) :
    ∃ m, hostAct (.writeCell a v) ⟨⟨s, w⟩, false⟩ = some ⟨⟨{ s with mem := m }, w⟩, false⟩ ∧
      m.wf = true ∧ m.read a.toNat = some v ∧ (∀ b, b ≠ a.toNat → m.read b = s.mem.read b) ∧
      ∀ b, m.blocks b = s.mem.blocks b := by
  obtain ⟨m, hm⟩ := Memory.write_of_read_some v hold
  refine ⟨m, ?_, Memory.wf_write hwf hm, Memory.read_write_same hwf hm, fun b hb => Memory.read_write_other hm hb,
    Memory.blocks_write hm⟩
  rw [hostAct_free rfl hf, HostAction.onState, hm]
  rfl

/-- Settles O56: outside a run an action is what it does to the state. -/
theorem hostActsOnlyOutsideARun : Obligations.HostActsOnlyOutsideARun := by
  refine ⟨fun a h hr => hostAct_refused hr, fun s w hf => ?_⟩
  refine ⟨fun r v => ⟨hostAct_free rfl hf, State.readReg_writeReg_self .., fun q hq =>
      State.readReg_writeReg_other _ _ hq⟩,
    fun f => hostAct_free rfl hf, fun replies => hostAct_free rfl hf, hostAct_free rfl hf,
    fun replies => hostAct_free rfl hf, hostAct_free rfl hf, hostAct_free rfl hf, hostAct_free rfl hf,
    fun m => ?memory, fun ds => ?devices, fun a v hnone => ?noCell,
    fun a v old hwf hold => hostAct_writeCell hf hwf hold⟩
  case memory =>
    rw [hostAct_free rfl hf, HostAction.onState]
    split <;> rfl
  case devices =>
    rw [hostAct_free rfl hf, HostAction.onState]
    split <;> rfl
  case noCell => rw [hostAct_free rfl hf, HostAction.onState, Memory.write_of_read_none v hnone]; rfl

/-! ### The part of the state that an action acts on -/

/-- The state `s` with one part taken from `t`. -/
def withPart (p : HostPart) (t s : State) : State :=
  match p with
  | .registers => { s with x := t.x }
  | .flags => { s with flags := t.flags }
  | .memReadResponder => { s with present := { s.present with memRead := t.present.memRead }, reads := t.reads }
  | .memWriteResponder => { s with present := { s.present with memWrite := t.present.memWrite }, writes := t.writes }
  | .ioResponder => { s with present := { s.present with io := t.present.io } }
  | .memory => { s with mem := t.mem }
  | .devices => { s with devices := t.devices }

theorem withPart_comm {p q : HostPart} (h : p ≠ q) (t u s : State) :
    withPart p t (withPart q u s) = withPart q u (withPart p t s) := by
  cases p <;> cases q <;> simp [withPart] at h ⊢

theorem fatal_withPart (p : HostPart) (t s : State) : (withPart p t s).fatal = s.fatal := by
  cases p <;> rfl

/-- An action changes its own part alone. -/
theorem eq_withPart_of_onState {a : HostAction} {s t : State} (h : a.onState s = some t) :
    t = withPart a.part t s := by
  cases a with
  | replaceMemory m =>
    rw [HostAction.onState] at h
    split at h <;> cases h
    rfl
  | bindDevices ds =>
    rw [HostAction.onState] at h
    split at h <;> cases h
    rfl
  | writeCell a v =>
    obtain ⟨m, -, rfl⟩ := Option.map_eq_some_iff.mp h
    rfl
  | _ => cases h; rfl

/-- An action depends on its own part alone. -/
theorem onState_withPart {a : HostAction} {q : HostPart} (h : a.part ≠ q) (t s : State) :
    a.onState (withPart q t s) = (a.onState s).map (withPart q t) := by
  cases a with
  | replaceMemory m =>
    rw [HostAction.onState, HostAction.onState]
    split
    · cases q <;> simp [withPart, HostAction.part] at h ⊢
    · rfl
  | bindDevices ds =>
    rw [HostAction.onState, HostAction.onState]
    split
    · cases q <;> simp [withPart, HostAction.part] at h ⊢
    · rfl
  | writeCell c v =>
    have hmem : (withPart q t s).mem = s.mem := by cases q <;> simp [withPart, HostAction.part] at h ⊢
    rw [HostAction.onState, HostAction.onState, hmem, Option.map_map]
    cases q <;> simp [withPart, HostAction.part, Function.comp_def] at h ⊢
  | _ => cases q <;> simp [withPart, HostAction.part, HostAction.onState, State.writeReg] at h ⊢

/-! ### Two actions -/

/-- Actions on different parts of the state may be exchanged. -/
theorem onState_comm {a b : HostAction} (h : a.part ≠ b.part) (s : State) :
    (a.onState s).bind b.onState = (b.onState s).bind a.onState := by
  cases ha : a.onState s with
  | none =>
    cases hb : b.onState s with
    | none => rfl
    | some sb =>
      have hsb := eq_withPart_of_onState hb
      rw [Option.bind_none, Option.bind_some, hsb, onState_withPart h, ha]
      rfl
  | some sa =>
    have hsa := eq_withPart_of_onState ha
    cases hb : b.onState s with
    | none =>
      rw [Option.bind_none, Option.bind_some, hsa, onState_withPart (Ne.symm h), hb]
      rfl
    | some sb =>
      have hsb := eq_withPart_of_onState hb
      calc (some sa).bind b.onState = (b.onState s).map (withPart a.part sa) := by
            rw [Option.bind_some, hsa, onState_withPart (Ne.symm h), ← hsa]
        _ = some (withPart a.part sa (withPart b.part sb s)) := by rw [hb, Option.map_some, ← hsb]
        _ = some (withPart b.part sb (withPart a.part sa s)) := by rw [withPart_comm h]
        _ = (a.onState s).map (withPart b.part sb) := by rw [ha, Option.map_some, ← hsa]
        _ = (some sb).bind a.onState := by rw [Option.bind_some, hsb, onState_withPart h, ← hsb]

theorem registers_eq_nil {a : HostAction} (h : a.part ≠ .registers) : a.registers = [] := by
  cases a with
  | writeReg r v => exact absurd rfl h
  | _ => rfl

theorem registers_comm {a b : HostAction} (h : a.part ≠ b.part) (w : List (Fin 16)) :
    b.registers ++ (a.registers ++ w) = a.registers ++ (b.registers ++ w) := by
  by_cases ha : a.part = .registers
  · have hb : b.registers = [] := registers_eq_nil fun hb => h (ha.trans hb.symm)
    rw [hb, List.nil_append, List.nil_append]
  · rw [registers_eq_nil ha, List.nil_append, List.nil_append]

/-- Two actions outside a run. -/
theorem hostAct_bind {a b : HostAction} {h : Session} (hr : h.inRun = false) (hf : h.t.s.fatal = false) :
    (hostAct a h).bind (hostAct b) = ((a.onState h.t.s).bind b.onState).map fun s =>
      ⟨⟨s, b.registers ++ (a.registers ++ h.t.written)⟩, false⟩ := by
  rw [hostAct_free hr hf]
  cases ha : a.onState h.t.s with
  | none => rfl
  | some s =>
    have hsf : s.fatal = false := by rw [eq_withPart_of_onState ha, fatal_withPart, hf]
    exact hostAct_free rfl hsf

/-- Whether an action is done does not depend on the flag word. -/
theorem isSome_onState_flags (a : HostAction) (f : FlagWord) (s : State) :
    (a.onState { s with flags := f }).isSome = (a.onState s).isSome := by
  by_cases ha : a.part = .flags
  · cases a with
    | writeFlags g => rfl
    | _ => cases ha
  · have hpart : ({ s with flags := f } : State) = withPart .flags { s with flags := f } s := rfl
    rw [hpart, onState_withPart ha, Option.isSome_map]

theorem isSome_hostAct_free {a : HostAction} {h : Session} (hr : h.inRun = false) (hf : h.t.s.fatal = false) :
    (hostAct a h).isSome = (a.onState h.t.s).isSome := by
  rw [hostAct_free hr hf, Option.isSome_map]

theorem hostAct_bind_refused {a b : HostAction} {h : Session} (hr : h.inRun = true ∨ h.t.s.fatal = true) :
    (hostAct a h).bind (hostAct b) = none := by
  rw [hostAct_refused hr]
  rfl

/-- Settles O59: actions on different parts commute on the state, and their written registers do. -/
theorem bootStepsMayComeInAnyOrder : Obligations.BootStepsMayComeInAnyOrder := by
  refine ⟨fun a b h hab => ?_, fun r q v w h hrq => ?_, fun f h hr hf hrun => ?_⟩
  · by_cases hfree : h.inRun = true ∨ h.t.s.fatal = true
    · rw [hostAct_bind_refused hfree, hostAct_bind_refused hfree]
    · obtain ⟨hr, hf⟩ : h.inRun = false ∧ h.t.s.fatal = false := by simpa using hfree
      rw [hostAct_bind hr hf, hostAct_bind hr hf, onState_comm hab, registers_comm hab]
  · by_cases hfree : h.inRun = true ∨ h.t.s.fatal = true
    · rw [hostAct_bind_refused hfree, hostAct_bind_refused hfree]
    · obtain ⟨hr, hf⟩ : h.inRun = false ∧ h.t.s.fatal = false := by simpa using hfree
      rw [hostAct_bind hr hf, hostAct_bind hr hf]
      exact congrArg some (writeReg_comm h.t.s hrq v w)
  · refine ⟨_, hostAct_free hr hf, State.runState_running.mpr ⟨hf, hrun⟩, fun a => ?_⟩
    rw [isSome_hostAct_free hr hf, ← isSome_onState_flags a f]
    exact isSome_hostAct_free rfl hf

end Sys2Proof.Safety
end
